-- ==== Sys2Proof/Word.lean ====
section
/-! DEFINITION. The word types of the AES cipher engine: bytes, 32-bit register words, byte sequences
(spec/00_scope.md rule R7). -/

namespace Sys2Proof

/-- One byte of data memory, or of any operand (rule R7). -/
abbrev Byte := BitVec 8

/-- A register word, a command word or an address: 32 bits, unsigned (rules R12, R45). -/
abbrev Word := BitVec 32

/-- A byte sequence: element `i` is the byte at index `i`, counting from 0 (rule R7).
Blocks (16 bytes), key-schedule words (4 bytes), keys, schedules, IVs, tags and data are all byte
sequences; the lengths a rule asks for are checked by the commands. -/
abbrev Bytes := List Byte

end Sys2Proof
end

