-- ==== Sys2Proof/Machine/Bytes.lean ====
section
/-! DEFINITION. Byte sequences and the integers they spell (spec/00_scope.md rule R7). -/

namespace Sys2Proof.Machine

/-- `A xor B` of two byte sequences, byte by byte (rule R7); as long as the shorter one. -/
def xorBytes (a b : Bytes) : Bytes := List.zipWith (· ^^^ ·) a b

/-- `rep(v, n)`: `n` bytes of value `v` (rule R7). -/
def rep (v : Byte) (n : Nat) : Bytes := List.replicate n v

/-- `zeros(n)` (rule R7). -/
def zeros (n : Nat) : Bytes := rep 0 n

/-- `be(B)`: the unsigned integer a byte sequence spells big-endian (rule R7). -/
def be (b : Bytes) : Nat := b.foldl (fun v x => v * 256 + x.toNat) 0

/-- `bytes_be(v, n)`: the `n` bytes that spell `v` big-endian (rule R7); of a larger `v`, its low bytes. -/
def bytesBe (v : Nat) : Nat → Bytes
  | 0 => []
  | n + 1 => bytesBe (v / 256) n ++ [BitVec.ofNat 8 v]

/-- The first `k` pieces of `n` bytes each: piece `j` is `B[nj .. nj+n)`; the last pieces are shorter or
empty when the bytes run out. -/
def pieces (n : Nat) : Nat → Bytes → List Bytes
  | 0, _ => []
  | k + 1, b => b.take n :: pieces n k (b.drop n)

end Sys2Proof.Machine
end

