-- ==== Sys2Proof/Config.lean ====
section
/-! DEFINITION. What an implementation fixes and what the spec leaves free. -/

namespace Sys2Proof

/-- FREE VALUE. The byte at address `a` that nothing has written since reset number `epoch` (rules R26 and
R185: "unspecified: any byte"). It has no body: no proof can learn a value of it
(notes/assumptions/1.md). -/
opaque Config.powerOnByte : Nat → Nat → Byte

/-- The least `MEM_BYTES` (rule R6: `1 <= MEM_BYTES <= 2^32`). -/
def Config.minMemBytes : Nat := 1

/-- The largest `MEM_BYTES` (rule R6). -/
def Config.maxMemBytes : Nat := 2 ^ 32

/-- DESIGN CHOICE. The `MEM_BYTES` of `State.reset`: the size of the spec's own programs
(spec/95_test_vectors.md section 9). `MEM_BYTES` itself is a parameter (decision D5) and stands in
`State.memBytes`, over which every statement quantifies (notes/assumptions/2.md). -/
def Config.launchMemBytes : Nat := 4096

end Sys2Proof
end

