-- ==== Sys2Proof/Syntax.lean ====
section
/-! DEFINITION. The commands (spec/30_encoding.md rule R51), the registers by name (spec/10_state.md
rules R12 and R15) and the transactions of the host (spec/00_scope.md rule R9). -/

namespace Sys2Proof

/-- The four padding schemes of rule R106 (numbers: rule R50, in the decoder). -/
inductive Scheme
  | pkcs7
  | iso7816
  | whitespace
  | zero
  deriving DecidableEq, Repr

/-- The `SCH` operand of `PADB`: one of the four schemes, or a number that names none (rule R50:
"4 to 255 | not a scheme"). -/
inductive SchemeField
  | scheme (sc : Scheme)
  | unrecognized (n : Nat)
  deriving DecidableEq, Repr

/-- The twelve commands, one constructor per row of spec/opcode_table.json (rule R51).
Every operand but the padding scheme is found through the descriptor registers (rule R48). -/
inductive Instr
  | kexp
  | encb
  | decb
  | padb (sch : SchemeField)
  | ecbe
  | ecbd
  | cbce
  | cbcd
  | ctre
  | ctrd
  | gcme
  | gcmd
  deriving DecidableEq, Repr

/-- The fourteen registers by name (rules R12 and R15); their numbers are `Reg.number`. -/
inductive Reg
  | cmd
  | status
  | rlen
  | blksz
  | src
  | slen
  | dst
  | keyp
  | klen
  | ivp
  | ivlen
  | aadp
  | aadlen
  | tagp
  deriving DecidableEq, Repr

/-- What can happen to the engine from outside: the four host transactions of rules R9, R22 and R32,
each one atomic step, and reset (rule R185). A write of register 0 (`CMD`) issues a command (rule R16). -/
inductive Transaction
  | regWrite (n : Nat) (v : Word)
  | regRead (n : Nat)
  | memWrite (addr : Word) (v : Bytes)
  | memRead (addr : Word) (n : Nat)
  | reset
  deriving DecidableEq, Repr

/-- What the last transaction returned to the host: nothing yet, the bare return of a write, the
register word of a `RegRead` (rule R22), or the bytes of a `HostMemRead` (rule R32). -/
inductive Response
  | none
  | done
  | word (v : Word)
  | bytes (v : Bytes)
  deriving DecidableEq, Repr

end Sys2Proof
end

