-- ==== Sys2Proof/WellFormed.lean ====
section
/-! DEFINITION. Which terms of `Instr` are commands of the machine (spec/30_encoding.md rules R47 and R50). -/

namespace Sys2Proof

/-- An unrecognized `SCH` is a number that is none of the four schemes and fits the 8-bit field
(rule R50: 4 to 255). -/
def SchemeField.wellFormed : SchemeField → Bool
  | .scheme _ => true
  | .unrecognized n => decide (4 ≤ n) && decide (n < 256)

/-- A command is well formed when its one operand, the scheme field of `PADB`, is (rule R47). -/
def Instr.wellFormed : Instr → Bool
  | .padb sch => sch.wellFormed
  | .kexp | .encb | .decb | .ecbe | .ecbd | .cbce | .cbcd | .ctre | .ctrd | .gcme | .gcmd => true

end Sys2Proof
end

