-- ==== Sys2Proof/Decode.lean ====
section
/-! DEFINITION. The command word (spec/30_encoding.md rules R45 to R52): the decoder, total on all 2^32
words, and after it the encoder; and the register numbers (spec/10_state.md rules R12 and R15). -/

namespace Sys2Proof

/-- Field `OPC`, bits 7:0 (rule R47). -/
def opcField (w : Word) : Byte := w.extractLsb' 0 8

/-- Field `SCH`, bits 15:8 (rule R47). -/
def schField (w : Word) : Byte := w.extractLsb' 8 8

/-- Field `ZERO`, bits 31:16 (rule R47). -/
def zeroField (w : Word) : BitVec 16 := w.extractLsb' 16 16

/-- Why a word is no command (rules R49 and R52). Each ends in `IllegalCommand` (rule R173). -/
inductive IllegalWord
  /-- `ZERO` is not 0. -/
  | zeroFieldNotZero
  /-- `OPC` is none of the twelve opcodes. -/
  | unknownOpcode
  /-- `SCH` is not 0 in a command other than `PADB`. -/
  | schFieldNotZero
  deriving DecidableEq, Repr

/-- The scheme a value of `SCH` names (rule R50). -/
def schemeOfSch (sch : Byte) : SchemeField :=
  match sch.toNat with
  | 0 => .scheme .pkcs7
  | 1 => .scheme .iso7816
  | 2 => .scheme .whitespace
  | 3 => .scheme .zero
  | n => .unrecognized n

/-- The commands other than `PADB`, by opcode (rule R51). -/
def plainCommand (opc : Byte) : Option Instr :=
  match opc.toNat with
  | 0x01 => some .kexp
  | 0x02 => some .encb
  | 0x03 => some .decb
  | 0x10 => some .ecbe
  | 0x11 => some .ecbd
  | 0x12 => some .cbce
  | 0x13 => some .cbcd
  | 0x14 => some .ctre
  | 0x15 => some .ctrd
  | 0x16 => some .gcme
  | 0x17 => some .gcmd
  | _ => none

/-- Rule R49, line by line: `ZERO` first, then the opcode, then `SCH`. -/
def decode (w : Word) : Except IllegalWord Instr :=
  if zeroField w ≠ 0 then .error .zeroFieldNotZero
  else if opcField w = 0x04 then .ok (.padb (schemeOfSch (schField w)))
  else
    match plainCommand (opcField w) with
    | none => .error .unknownOpcode
    | some i => if schField w ≠ 0 then .error .schFieldNotZero else .ok i

/-- The instruction the decoder reads from a row's bits as spec/opcode_table.json numbers them: a command
is one 32-bit word (rule R45), and the table's bit 0 is the word's bit 0. -/
def decodeTableWord (nbits w : Nat) : Option Instr :=
  match decode (BitVec.ofNat 32 (w % 2 ^ nbits)) with
  | .ok i => some i
  | .error _ => none

/-- The number of a scheme field (rule R50). -/
def SchemeField.number : SchemeField → Nat
  | .scheme .pkcs7 => 0
  | .scheme .iso7816 => 1
  | .scheme .whitespace => 2
  | .scheme .zero => 3
  | .unrecognized n => n

/-- The opcode of a command (rule R51). -/
def Instr.opcode : Instr → Nat
  | .kexp => 0x01
  | .encb => 0x02
  | .decb => 0x03
  | .padb _ => 0x04
  | .ecbe => 0x10
  | .ecbd => 0x11
  | .cbce => 0x12
  | .cbcd => 0x13
  | .ctre => 0x14
  | .ctrd => 0x15
  | .gcme => 0x16
  | .gcmd => 0x17

/-- The value of the `SCH` field of a command: its scheme for `PADB`, 0 for the others (rule R47). -/
def Instr.schNumber : Instr → Nat
  | .padb sch => sch.number
  | .kexp | .encb | .decb | .ecbe | .ecbd | .cbce | .cbcd | .ctre | .ctrd | .gcme | .gcmd => 0

/-- Rule R47: `word = ZERO * 65536 + SCH * 256 + OPC`, with `ZERO = 0`. -/
def encode (i : Instr) : Word := BitVec.ofNat 32 (i.schNumber * 256 + i.opcode)

/-- The number of a register (rules R12 and R15). -/
def Reg.number : Reg → Nat
  | .cmd => 0
  | .status => 1
  | .rlen => 2
  | .blksz => 3
  | .src => 4
  | .slen => 5
  | .dst => 6
  | .keyp => 7
  | .klen => 8
  | .ivp => 9
  | .ivlen => 10
  | .aadp => 11
  | .aadlen => 12
  | .tagp => 13

/-- The register a number names; a number above 13 names none (rule R22). -/
def Reg.ofNumber (n : Nat) : Option Reg :=
  match n with
  | 0 => some .cmd
  | 1 => some .status
  | 2 => some .rlen
  | 3 => some .blksz
  | 4 => some .src
  | 5 => some .slen
  | 6 => some .dst
  | 7 => some .keyp
  | 8 => some .klen
  | 9 => some .ivp
  | 10 => some .ivlen
  | 11 => some .aadp
  | 12 => some .aadlen
  | 13 => some .tagp
  | _ => none

/-- One line of a listing in the spec's syntax (rule R55): a host transaction, or a command mnemonic. -/
inductive ListingLine
  | wr (r : Reg) (v : Word)
  | rd (r : Reg)
  | mw (addr : Word) (v : Bytes)
  | mr (addr : Word) (n : Nat)
  | command (i : Instr)
  deriving DecidableEq, Repr

/-- What a listing line means (rule R55). There are no pseudo-instructions: every command mnemonic is
exactly one `CMD` write (rule R56). -/
def ListingLine.transaction : ListingLine → Transaction
  | .wr r v => .regWrite r.number v
  | .rd r => .regRead r.number
  | .mw addr v => .memWrite addr v
  | .mr addr n => .memRead addr n
  | .command i => .regWrite Reg.cmd.number (encode i)

end Sys2Proof
end

