-- ==== Sys2Proof/Machine/State.lean ====
section
/-! DEFINITION. The state of one engine instance (spec/10_state.md rule R11) together with the host's side
of it, the reasons a step can stop, and the state after reset (rules R26 and R185). -/

namespace Sys2Proof.Machine

/-- The data memory: the bytes written since the last reset, as address and byte pairs with strictly
rising addresses. An address that is not listed reads as the free byte of `Config.powerOnByte`
(notes/assumptions/1.md). -/
abbrev Memory := List Host.Cell

/-- The canonical form of a memory: addresses strictly rising. -/
abbrev Memory.wf (m : Memory) : Prop := m.Pairwise fun c d => c.1 < d.1

/-- Why the machine stops with a fault: there is no such reason. Every command, legal or not, ends in a
next state with its outcome in `STATUS` (rules R57, R176, R194; spec/93_implementation_defined.md: "No
state of the model is `stuck`"), so this type has no constructor. The ten error codes of rule R165 are
`ErrorCode` in Machine/Flags.lean. -/
inductive Fault
  deriving DecidableEq, Repr

/-- Why a step has no meaning. -/
inductive Refusal
  /-- Raised by an arm of `exec` whose instruction has no meaning yet. Safe. No arm uses it. -/
  | notModelled (mnemonic : String)
  /-- Raised by `RegRead` and `RegWrite` of a register number above 13 (rule R22: "a model refuses it (it
  has no step)"; behaviour U6). Safe: nothing can be proved of such an access. -/
  | noSuchRegister
  /-- Raised by `HostMemRead` and `HostMemWrite` on a range that is not valid (rule R32: "a model refuses
  it"; behaviour U6). Safe: nothing can be proved of such an access. -/
  | hostRangeNotValid
  /-- Raised by `stepInstance` for an engine number the platform does not have (rule R183). Safe. -/
  | noSuchEngine
  deriving DecidableEq, Repr

/-- The state. The registers are named as in rules R12 and R15; `BLKSZ` (register 3) is hard-wired to 16
(rule R19) and needs no storage: `State.reg` reads it. `mem` is the data memory `M`. -/
structure State where
  /-- Register 0, the last command word (rule R16). -/
  cmd : Word
  /-- Register 1, `ERR` in bits 7:0 and `VALID` in bit 8 (rule R17). -/
  status : Word
  /-- Register 2, the bytes written at `DST` by the last command (rule R18). -/
  rlen : Word
  /-- Register 4, pointer to the input (rule R12). -/
  src : Word
  /-- Register 5, length of the input. -/
  slen : Word
  /-- Register 6, pointer to the output. -/
  dst : Word
  /-- Register 7, pointer to the key, or to the schedule for `ENCB` and `DECB`. -/
  keyp : Word
  /-- Register 8, length of what `KEYP` points to. -/
  klen : Word
  /-- Register 9, pointer to the IV or nonce. -/
  ivp : Word
  /-- Register 10, length of the IV or nonce. -/
  ivlen : Word
  /-- Register 11, pointer to the associated data. -/
  aadp : Word
  /-- Register 12, length of the associated data. -/
  aadlen : Word
  /-- Register 13, pointer to the tag. -/
  tagp : Word
  /-- The data memory `M` (rules R25 and R30). -/
  mem : Memory
  /-- The parameter `MEM_BYTES` of this instance (rule R6, decision D5): no step changes it. -/
  memBytes : Nat
  /-- THE MODEL'S OWN: how often the engine was reset. It selects the free power-on bytes. -/
  memEpoch : Nat
  /-- THE MODEL'S OWN: the transactions the host will still perform, next one first (rules R9 and R195). -/
  pending : List Transaction
  /-- THE MODEL'S OWN: what the last transaction returned to the host (rules R22 and R32). -/
  response : Response
  deriving DecidableEq, Repr

/-- The state a `MEM_BYTES`-byte engine has right after reset (rule R26), with no transaction pending. -/
def State.launch (memBytes : Nat) : State where
  cmd := 0
  status := 0
  rlen := 0
  src := 0
  slen := 0
  dst := 0
  keyp := 0
  klen := 0
  ivp := 0
  ivlen := 0
  aadp := 0
  aadlen := 0
  tagp := 0
  mem := []
  memBytes := memBytes
  memEpoch := 0
  pending := []
  response := .none

/-- The machine right after reset (rule R26); its `MEM_BYTES` is `Config.launchMemBytes`. -/
def State.reset : State := State.launch Config.launchMemBytes

end Sys2Proof.Machine
end

