-- ==== Sys2Proof/Machine/Flags.lean ====
section
/-! DEFINITION. The error codes (spec/60_exceptions.md rule R165) and the `STATUS` register (spec/10_state.md
rule R17). The engine has no flags (rule R21): `STATUS` and `RLEN` are all a command reports. -/

namespace Sys2Proof.Machine

/-- The ten error codes of rule R165, by name. -/
inductive ErrorCode
  | invalidKeyLength
  | invalidBlockLength
  | invalidDataLength
  | invalidSchemeError
  | authenticationError
  /-- Reserved for host software; never raised by the engine (rule R172). -/
  | malformedInputError
  | invalidInputError
  | illegalCommand
  | accessFault
  | unsupportedNonceLength
  deriving DecidableEq, Repr

/-- The number of an error code (rule R165). -/
def ErrorCode.code : ErrorCode → Nat
  | .invalidKeyLength => 1
  | .invalidBlockLength => 2
  | .invalidDataLength => 3
  | .invalidSchemeError => 4
  | .authenticationError => 5
  | .malformedInputError => 6
  | .invalidInputError => 7
  | .illegalCommand => 8
  | .accessFault => 9
  | .unsupportedNonceLength => 10

/-- `STATUS` after a command that succeeded: `VALID = 1`, `ERR = 0` (rule R57). -/
def statusSuccess : Word := 0x00000100

/-- `STATUS` after a command that raised `f`: `VALID = 1`, `ERR = code(f)` (rule R176). -/
def statusFault (f : ErrorCode) : Word := 0x00000100 + BitVec.ofNat 32 f.code

/-- Field `ERR`, bits 7:0 of `STATUS` (rule R17). -/
def State.err (s : State) : Nat := (s.status.extractLsb' 0 8).toNat

/-- Field `VALID`, bit 8 of `STATUS` (rule R17). -/
def State.valid (s : State) : Bool := s.status.getLsbD 8

/-- The reserved bits 31:9 of `STATUS` (rule R17). -/
def State.statusReserved (s : State) : BitVec 23 := s.status.extractLsb' 9 23

end Sys2Proof.Machine
end

