-- ==== Sys2Proof/Machine/Ops.lean ====
section
/-! DEFINITION. The shared operations: data memory (spec/20_memory.md), registers (spec/10_state.md),
raising a fault and ending a command (spec/60_exceptions.md rule R176, spec/30_encoding.md rule R57), and
reset (spec/70_reset_and_hazards.md rule R185). -/

namespace Sys2Proof.Machine

/-! ## Data memory -/

/-- The byte listed at address `a`, if one is. -/
def Memory.listed (a : Nat) : Memory → Option Byte
  | [] => none
  | c :: m => if c.1 = a then some c.2 else Memory.listed a m

/-- The memory with byte `b` listed at address `a`, in the canonical form. -/
def Memory.put (a : Nat) (b : Byte) : Memory → Memory
  | [] => [(a, b)]
  | c :: m =>
    if a < c.1 then (a, b) :: c :: m
    else if a = c.1 then (a, b) :: m
    else c :: Memory.put a b m

/-- The byte sequence `v` stored from address `a` upwards: byte `v[i]` at `a + i` (rule R31). -/
def Memory.putAll (a : Nat) : Bytes → Memory → Memory
  | [], m => m
  | b :: v, m => Memory.putAll (a + 1) v (Memory.put a b m)

/-- What an address that is not listed reads as: the free power-on byte (rule R26: "unspecified: any
byte"; notes/assumptions/1.md). -/
def unlistedByte (epoch a : Nat) : Byte := Config.powerOnByte epoch a

/-- `M[a]`: the last byte written at `a`, or the byte the address has had since reset (rules R25, R38). -/
def State.byteAt (s : State) (a : Nat) : Byte := (s.mem.listed a).getD (unlistedByte s.memEpoch a)

/-- `MemRead(a, n)`: the bytes `M[a], …, M[a+n-1]` (rule R31). -/
def State.memRead (s : State) (a : Nat) : Nat → Bytes
  | 0 => []
  | n + 1 => s.byteAt a :: State.memRead s (a + 1) n

/-- `MemWrite(a, len(v), v)` (rule R31). -/
def State.memWrite (s : State) (a : Nat) (v : Bytes) : State := { s with mem := s.mem.putAll a v }

/-- `valid(p, n)` (rule R33): an empty range, or one that ends inside `M`; a sum of naturals, no wrap. -/
abbrev State.rangeValid (s : State) (p n : Nat) : Prop := n = 0 ∨ p + n ≤ s.memBytes

/-- `overlap(p1, n1, p2, n2)` (rule R33). -/
abbrev overlap (p1 n1 p2 n2 : Nat) : Prop := 0 < n1 ∧ 0 < n2 ∧ p1 < p2 + n2 ∧ p2 < p1 + n1

/-! ## Registers -/

/-- The value of a register (rule R22). `BLKSZ` always reads 16 (rule R19). -/
def State.reg (s : State) : Reg → Word
  | .cmd => s.cmd
  | .status => s.status
  | .rlen => s.rlen
  | .blksz => 0x00000010
  | .src => s.src
  | .slen => s.slen
  | .dst => s.dst
  | .keyp => s.keyp
  | .klen => s.klen
  | .ivp => s.ivp
  | .ivlen => s.ivlen
  | .aadp => s.aadp
  | .aadlen => s.aadlen
  | .tagp => s.tagp

/-- The plain storage a host write of a register changes: a descriptor register takes the value, and
`STATUS`, `RLEN` and `BLKSZ` do not change (rule R22). The write of `CMD` stores the word; that it also
issues a command is `issue` in Machine/Transactions.lean (rule R16). -/
def State.setReg (s : State) (r : Reg) (v : Word) : State :=
  match r with
  | .cmd => { s with cmd := v }
  | .status => s
  | .rlen => s
  | .blksz => s
  | .src => { s with src := v }
  | .slen => { s with slen := v }
  | .dst => { s with dst := v }
  | .keyp => { s with keyp := v }
  | .klen => { s with klen := v }
  | .ivp => { s with ivp := v }
  | .ivlen => { s with ivlen := v }
  | .aadp => { s with aadp := v }
  | .aadlen => { s with aadlen := v }
  | .tagp => { s with tagp := v }

/-! ## The end of a command -/

/-- TAKING AN EXCEPTION (rule R176): `raise f` ends the command with `STATUS = 0x100 + code(f)` and
`RLEN = 0`; memory and every other register stay. There is no saved state, no vector and no return
instruction: the next `CMD` write runs as any other (rule R179). -/
def State.raise (s : State) (f : ErrorCode) : State := { s with status := statusFault f, rlen := 0 }

/-- The success of a command that wrote `n` bytes at `DST`: `RLEN = n`, `STATUS = 0x100` (rule R57). -/
def State.succeed (s : State) (n : Word) : State := { s with status := statusSuccess, rlen := n }

/-! ## Reset -/

/-- Reset (rules R26 and R185): every register at its reset value and memory unspecified. The
transactions the host will still perform are not the engine's and stay. -/
def State.resetEngine (s : State) : State :=
  { State.launch s.memBytes with memEpoch := s.memEpoch + 1, pending := s.pending }

end Sys2Proof.Machine
end

