-- ==== Sys2Proof/Machine/Operands.lean ====
section
/-! DEFINITION. The operand forms: every byte-sequence operand is a range named by a pointer register and
a length register or a fixed length (spec/30_encoding.md rule R48, spec/10_state.md rules R12 and R13),
and the checks the commands make of them. -/

namespace Sys2Proof.Machine

/-! ## The operands -/

/-- The key, or for `ENCB` and `DECB` the schedule: `MemRead(x[KEYP], x[KLEN])`. -/
def State.keyOperand (s : State) : Bytes := s.memRead s.keyp.toNat s.klen.toNat

/-- The data: `MemRead(x[SRC], x[SLEN])`. -/
def State.dataOperand (s : State) : Bytes := s.memRead s.src.toNat s.slen.toNat

/-- The one block of `ENCB` and `DECB`: `MemRead(x[SRC], 16)`. -/
def State.blockOperand (s : State) : Bytes := s.memRead s.src.toNat 16

/-- The IV of CBC, the initial counter of CTR: `MemRead(x[IVP], 16)`. -/
def State.ivOperand (s : State) : Bytes := s.memRead s.ivp.toNat 16

/-- The GCM nonce: `MemRead(x[IVP], 12)`. -/
def State.nonceOperand (s : State) : Bytes := s.memRead s.ivp.toNat 12

/-- The associated data: `MemRead(x[AADP], x[AADLEN])`. -/
def State.aadOperand (s : State) : Bytes := s.memRead s.aadp.toNat s.aadlen.toNat

/-- The tag supplied to `GCMD`: `MemRead(x[TAGP], 16)`. -/
def State.tagOperand (s : State) : Bytes := s.memRead s.tagp.toNat 16

/-! ## The lengths -/

/-- `x[KLEN]` is a key length (rule R166). -/
abbrev State.keyLengthOk (s : State) : Prop := s.klen.toNat = 16 ∨ s.klen.toNat = 24 ∨ s.klen.toNat = 32

/-- `x[KLEN]` is a schedule length (rules R96 and R166). -/
abbrev State.scheduleLengthOk (s : State) : Prop :=
  s.klen.toNat = 176 ∨ s.klen.toNat = 208 ∨ s.klen.toNat = 240

/-! ## The ranges (rule R174) -/

/-- `valid(x[KEYP], x[KLEN])`. -/
abbrev State.keyRangeOk (s : State) : Prop := s.rangeValid s.keyp.toNat s.klen.toNat

/-- `valid(x[SRC], x[SLEN])`. -/
abbrev State.dataRangeOk (s : State) : Prop := s.rangeValid s.src.toNat s.slen.toNat

/-- `valid(x[DST], n)`. -/
abbrev State.outRangeOk (s : State) (n : Nat) : Prop := s.rangeValid s.dst.toNat n

/-- `valid(x[IVP], n)`. -/
abbrev State.ivRangeOk (s : State) (n : Nat) : Prop := s.rangeValid s.ivp.toNat n

/-- `valid(x[AADP], x[AADLEN])`. -/
abbrev State.aadRangeOk (s : State) : Prop := s.rangeValid s.aadp.toNat s.aadlen.toNat

/-- `valid(x[TAGP], 16)`. -/
abbrev State.tagRangeOk (s : State) : Prop := s.rangeValid s.tagp.toNat 16

/-- `overlap(x[DST], x[SLEN], x[TAGP], 16)`: the two output ranges of `GCME` (rule R154). -/
abbrev State.outputsOverlap (s : State) : Prop := overlap s.dst.toNat s.slen.toNat s.tagp.toNat 16

end Sys2Proof.Machine
end

