-- ==== Sys2Proof/Machine/KeyExpansion.lean ====
section
/-! DEFINITION. The key-expansion engine and the command `KEXP` (spec/41_key_expansion.md). -/

namespace Sys2Proof.Machine

/-- The word `w[i]`, `i >= Nk`, from the words `w[0], …, w[i-1]` (rule R76). -/
def nextWord (nk i : Nat) (w : List Bytes) : Bytes :=
  let t := w.getD (i - 1) []
  let t :=
    if i % nk = 0 then xorBytes (subWord (rotWord t)) [rcon (i / nk), 0, 0, 0]
    else if nk = 8 ∧ i % nk = 4 then subWord t
    else t
  xorBytes (w.getD (i - nk) []) t

/-- The loop of rule R76: `n` more words after the `i` words `w`. -/
def expandLoop (nk : Nat) : Nat → Nat → List Bytes → List Bytes
  | 0, _, w => w
  | n + 1, i, w => expandLoop nk n (i + 1) (w ++ [nextWord nk i w])

/-- The `4 * (Nr + 1)` words of the schedule, `Nk = len(K) / 4` and `Nr = Nk + 6` (rules R75 and R76). -/
def scheduleWords (k : Bytes) : List Bytes :=
  let nk := k.length / 4
  let nr := nk + 6
  expandLoop nk (4 * (nr + 1) - nk) nk (pieces 4 nk k)

/-- `expand_key(K)` for a key of 16, 24 or 32 bytes (rule R76); the commands check the length. -/
def expandKey (k : Bytes) : Bytes := (scheduleWords k).flatten

/-- Round key `r` of a schedule: `rk(S, r) = S[16r .. 16r+16)` (rule R77). -/
def roundKey (sch : Bytes) (r : Nat) : Bytes := (sch.drop (16 * r)).take 16

/-- The length in bytes of the schedule of an `n`-byte key (rule R79): 176, 208 or 240. -/
def scheduleLength (n : Nat) : Nat := (n / 4 + 7) * 16

/-- `KEXP` (rule R79). -/
def execKexp (s : State) : Host.Outcome State Fault Refusal :=
  let n := s.klen.toNat
  let m := scheduleLength n
  if ¬ s.keyLengthOk then .next (s.raise .invalidKeyLength)
  else if ¬ (s.keyRangeOk ∧ s.outRangeOk m) then .next (s.raise .accessFault)
  else .next ((s.memWrite s.dst.toNat (expandKey s.keyOperand)).succeed (BitVec.ofNat 32 m))

end Sys2Proof.Machine
end

