-- ==== Sys2Proof/Machine/BlockTransform.lean ====
section
/-! DEFINITION. The round transform and the commands `ENCB` and `DECB` (spec/42_block_transform.md). The
16 bytes of a block are the flat sequence of rule R85: row `i mod 4`, column `i div 4`. -/

namespace Sys2Proof.Machine

/-! ## The stages -/

/-- `SubBytes` (rule R86). -/
def subBytes (s : Bytes) : Bytes := s.map sbox

/-- `ShiftRows` (rule R87). -/
def shiftRows (s : Bytes) : Bytes :=
  (List.range 16).map fun i => s.getD ((i + 4 * (i % 4)) % 16) 0

/-- `MixColumns`, column by column (rule R88). -/
def mixColumns : Bytes → Bytes
  | a0 :: a1 :: a2 :: a3 :: rest =>
    (gmul8 0x02 a0 ^^^ gmul8 0x03 a1 ^^^ a2 ^^^ a3)
      :: (a0 ^^^ gmul8 0x02 a1 ^^^ gmul8 0x03 a2 ^^^ a3)
      :: (a0 ^^^ a1 ^^^ gmul8 0x02 a2 ^^^ gmul8 0x03 a3)
      :: (gmul8 0x03 a0 ^^^ a1 ^^^ a2 ^^^ gmul8 0x02 a3)
      :: mixColumns rest
  | _ => []

/-- `AddRoundKey` (rule R89). -/
def addRoundKey (s k : Bytes) : Bytes := xorBytes s k

/-- `InvSubBytes` (rule R91). -/
def invSubBytes (s : Bytes) : Bytes := s.map invSbox

/-- `InvShiftRows` (rule R92); `i + 16 - 4 * (i mod 4)` is `i - 4 * (i mod 4)` modulo 16. -/
def invShiftRows (s : Bytes) : Bytes :=
  (List.range 16).map fun i => s.getD ((i + 16 - 4 * (i % 4)) % 16) 0

/-- `InvMixColumns`, column by column (rule R93). -/
def invMixColumns : Bytes → Bytes
  | a0 :: a1 :: a2 :: a3 :: rest =>
    (gmul8 0x0e a0 ^^^ gmul8 0x0b a1 ^^^ gmul8 0x0d a2 ^^^ gmul8 0x09 a3)
      :: (gmul8 0x09 a0 ^^^ gmul8 0x0e a1 ^^^ gmul8 0x0b a2 ^^^ gmul8 0x0d a3)
      :: (gmul8 0x0d a0 ^^^ gmul8 0x09 a1 ^^^ gmul8 0x0e a2 ^^^ gmul8 0x0b a3)
      :: (gmul8 0x0b a0 ^^^ gmul8 0x0d a1 ^^^ gmul8 0x09 a2 ^^^ gmul8 0x0e a3)
      :: invMixColumns rest
  | _ => []

/-! ## The block functions -/

/-- `Nr`, from the schedule's length alone (rule R96). -/
def roundCount (sch : Bytes) : Nat := sch.length / 16 - 1

/-- The block after the rounds `1 .. n` of rule R90, each with column mixing. -/
def encryptRounds (sch : Bytes) : Nat → Bytes → Bytes
  | 0, s => s
  | n + 1, s =>
    addRoundKey (mixColumns (shiftRows (subBytes (encryptRounds sch n s)))) (roundKey sch (n + 1))

/-- `encrypt_block(B, S)` (rule R90). -/
def encryptBlock (b sch : Bytes) : Bytes :=
  let nr := roundCount sch
  let s := encryptRounds sch (nr - 1) (addRoundKey b (roundKey sch 0))
  addRoundKey (shiftRows (subBytes s)) (roundKey sch nr)

/-- The rounds `n downto 1` of rule R94, before the last key addition. -/
def decryptRounds (sch : Bytes) : Nat → Bytes → Bytes
  | 0, s => s
  | n + 1, s =>
    decryptRounds sch n (invSubBytes (invShiftRows (invMixColumns (addRoundKey s (roundKey sch (n + 1))))))

/-- `decrypt_block(B, S)` (rule R94). -/
def decryptBlock (b sch : Bytes) : Bytes :=
  let nr := roundCount sch
  let s := invSubBytes (invShiftRows (addRoundKey b (roundKey sch nr)))
  addRoundKey (decryptRounds sch (nr - 1) s) (roundKey sch 0)

/-! ## The commands -/

/-- What `ENCB` and `DECB` share: registers, checks and status (rules R97 and R98). -/
def blockCommand (f : Bytes → Bytes → Bytes) (s : State) : Host.Outcome State Fault Refusal :=
  if ¬ s.scheduleLengthOk then .next (s.raise .invalidKeyLength)
  else if s.slen.toNat ≠ 16 then .next (s.raise .invalidBlockLength)
  else if ¬ (s.keyRangeOk ∧ s.rangeValid s.src.toNat 16 ∧ s.outRangeOk 16) then
    .next (s.raise .accessFault)
  else .next ((s.memWrite s.dst.toNat (f s.blockOperand s.keyOperand)).succeed 16)

/-- `ENCB` (rule R97). -/
def execEncb (s : State) : Host.Outcome State Fault Refusal := blockCommand encryptBlock s

/-- `DECB` (rule R98). -/
def execDecb (s : State) : Host.Outcome State Fault Refusal := blockCommand decryptBlock s

end Sys2Proof.Machine
end

