-- ==== Sys2Proof/Machine/Modes.lean ====
section
/-! DEFINITION. The ECB, CBC and CTR mode controllers and their six commands
(spec/44_modes_ecb_cbc_ctr.md). Every mode command takes a key and expands it for its own use (rule R115). -/

namespace Sys2Proof.Machine

/-- The 16-byte blocks `D[16j .. 16j+16)`, `j` in `0 .. len(D)/16 - 1`. -/
def blocks (d : Bytes) : List Bytes := pieces 16 (d.length / 16) d

/-- The 16-byte segments of any data, the last one of 1 to 16 bytes (rule R133). -/
def segments (d : Bytes) : List Bytes := pieces 16 ((d.length + 15) / 16) d

/-! ## ECB -/

/-- `ecb_encrypt(D, K)` (rule R116). -/
def ecbEncrypt (d k : Bytes) : Bytes :=
  let sch := expandKey k
  ((blocks d).map fun b => encryptBlock b sch).flatten

/-- `ecb_decrypt(D, K)` (rule R117). -/
def ecbDecrypt (d k : Bytes) : Bytes :=
  let sch := expandKey k
  ((blocks d).map fun b => decryptBlock b sch).flatten

/-- What `ECBE` and `ECBD` share (rules R118 and R119). `IVP` and `IVLEN` are not read (rule R120). -/
def ecbCommand (f : Bytes → Bytes → Bytes) (s : State) : Host.Outcome State Fault Refusal :=
  if ¬ s.keyLengthOk then .next (s.raise .invalidKeyLength)
  else if s.slen.toNat % 16 ≠ 0 then .next (s.raise .invalidDataLength)
  else if ¬ (s.keyRangeOk ∧ s.dataRangeOk ∧ s.outRangeOk s.slen.toNat) then .next (s.raise .accessFault)
  else .next ((s.memWrite s.dst.toNat (f s.dataOperand s.keyOperand)).succeed s.slen)

/-- `ECBE` (rule R118). -/
def execEcbe (s : State) : Host.Outcome State Fault Refusal := ecbCommand ecbEncrypt s

/-- `ECBD` (rule R119). -/
def execEcbd (s : State) : Host.Outcome State Fault Refusal := ecbCommand ecbDecrypt s

/-! ## CBC -/

/-- The loop of rule R121 over the plaintext blocks; `prev` is the previous ciphertext block. -/
def cbcEncryptLoop (sch : Bytes) : Bytes → List Bytes → Bytes
  | _, [] => []
  | prev, p :: ps =>
    let c := encryptBlock (xorBytes p prev) sch
    c ++ cbcEncryptLoop sch c ps

/-- `cbc_encrypt(P, K, IV)` (rule R121). -/
def cbcEncrypt (p k iv : Bytes) : Bytes := cbcEncryptLoop (expandKey k) iv (blocks p)

/-- The loop of rule R122 over the ciphertext blocks; `prev` is the previous ciphertext block. -/
def cbcDecryptLoop (sch : Bytes) : Bytes → List Bytes → Bytes
  | _, [] => []
  | prev, c :: cs => xorBytes (decryptBlock c sch) prev ++ cbcDecryptLoop sch c cs

/-- `cbc_decrypt(C, K, IV)` (rule R122). -/
def cbcDecrypt (c k iv : Bytes) : Bytes := cbcDecryptLoop (expandKey k) iv (blocks c)

/-- What `CBCE` and `CBCD` share (rules R130 and R131). -/
def cbcCommand (f : Bytes → Bytes → Bytes → Bytes) (s : State) : Host.Outcome State Fault Refusal :=
  if ¬ s.keyLengthOk then .next (s.raise .invalidKeyLength)
  else if s.ivlen.toNat ≠ 16 then .next (s.raise .invalidBlockLength)
  else if s.slen.toNat % 16 ≠ 0 then .next (s.raise .invalidDataLength)
  else if ¬ (s.keyRangeOk ∧ s.ivRangeOk 16 ∧ s.dataRangeOk ∧ s.outRangeOk s.slen.toNat) then
    .next (s.raise .accessFault)
  else .next ((s.memWrite s.dst.toNat (f s.dataOperand s.keyOperand s.ivOperand)).succeed s.slen)

/-- `CBCE` (rule R130). -/
def execCbce (s : State) : Host.Outcome State Fault Refusal := cbcCommand cbcEncrypt s

/-- `CBCD` (rule R131). -/
def execCbcd (s : State) : Host.Outcome State Fault Refusal := cbcCommand cbcDecrypt s

/-! ## CTR -/

/-- `inc128(C)`: the counter increment, big-endian over all 16 bytes, with wraparound (rule R132). -/
def inc128 (c : Bytes) : Bytes := bytesBe ((be c + 1) % 2 ^ 128) 16

/-- The loop of rule R133 over the data segments; `ctr` is the counter block. A partial last segment
meets the leading bytes of its keystream block. -/
def ctrLoop (sch : Bytes) : Bytes → List Bytes → Bytes
  | _, [] => []
  | ctr, d :: ds => xorBytes d (encryptBlock ctr sch) ++ ctrLoop sch (inc128 ctr) ds

/-- `ctr_xcrypt(D, K, IV)` (rule R133), for encryption and decryption alike (rule R134). -/
def ctrXcrypt (d k iv : Bytes) : Bytes := ctrLoop (expandKey k) iv (segments d)

/-- What `CTRE` and `CTRD` share: everything (rules R135 and R136). -/
def ctrCommand (s : State) : Host.Outcome State Fault Refusal :=
  if ¬ s.keyLengthOk then .next (s.raise .invalidKeyLength)
  else if s.ivlen.toNat ≠ 16 then .next (s.raise .invalidBlockLength)
  else if ¬ (s.keyRangeOk ∧ s.ivRangeOk 16 ∧ s.dataRangeOk ∧ s.outRangeOk s.slen.toNat) then
    .next (s.raise .accessFault)
  else
    .next ((s.memWrite s.dst.toNat (ctrXcrypt s.dataOperand s.keyOperand s.ivOperand)).succeed s.slen)

/-- `CTRE` (rule R135). -/
def execCtre (s : State) : Host.Outcome State Fault Refusal := ctrCommand s

/-- `CTRD` (rule R136). -/
def execCtrd (s : State) : Host.Outcome State Fault Refusal := ctrCommand s

end Sys2Proof.Machine
end

