-- ==== Sys2Proof/Machine/Gcm.lean ====
section
/-! DEFINITION. The GHASH tag generator, the GCM mode controller and its two commands
(spec/45_gcm_ghash.md). -/

namespace Sys2Proof.Machine

/-! ## GHASH -/

/-- `pad16(B)`: zero padding to a block multiple (rule R141). -/
def pad16 (b : Bytes) : Bytes := b ++ zeros ((16 - b.length % 16) % 16)

/-- `lenblock(A, C)`: the two bit lengths, 64 bits each, big-endian (rule R142). -/
def lenblock (a c : Bytes) : Bytes := bytesBe (8 * a.length) 8 ++ bytesBe (8 * c.length) 8

/-- The loop of rule R143: fold each block into the accumulator `y`. -/
def ghashLoop (h : Bytes) : Bytes → List Bytes → Bytes
  | y, [] => y
  | y, x :: xs => ghashLoop h (gf128Mul (xorBytes y x) h) xs

/-- `ghash(H, X)` (rule R143). -/
def ghash (h x : Bytes) : Bytes := ghashLoop h (zeros 16) (blocks x)

/-! ## The GCM construction -/

/-- `H = encrypt_block(zeros(16), S)` (rule R144). -/
def hashSubkey (sch : Bytes) : Bytes := encryptBlock (zeros 16) sch

/-- `J0 = N ‖ 00 00 00 01`, the initial counter block `counter_0` (rules R145 and R146). -/
def initialCounter (n : Bytes) : Bytes := n ++ [0x00, 0x00, 0x00, 0x01]

/-- `counter_k = bytes_be((be(J0) + k) mod 2^128, 16)` (rule R145). -/
def gcmCounter (n : Bytes) (k : Nat) : Bytes := bytesBe ((be (initialCounter n) + k) % 2 ^ 128) 16

/-- `gcm_ctr(D, K, N)`: the CTR controller started at `counter_1` (rule R147). -/
def gcmCtr (d k n : Bytes) : Bytes := ctrXcrypt d k (inc128 (initialCounter n))

/-- `gcm_tag(K, N, A, C)` (rule R149). -/
def gcmTag (k n a c : Bytes) : Bytes :=
  let sch := expandKey k
  let h := hashSubkey sch
  let sg := ghash h (pad16 a ++ pad16 c ++ lenblock a c)
  xorBytes sg (encryptBlock (initialCounter n) sch)

/-- `gcm_encrypt_and_tag(P, K, N, A)`: the ciphertext and the tag over it (rule R150). -/
def gcmEncryptAndTag (p k n a : Bytes) : Bytes × Bytes :=
  let c := gcmCtr p k n
  (c, gcmTag k n a c)

/-- `gcm_decrypt_and_verify(C, K, T, N, A)`: the plaintext, or nothing (`AuthenticationError`) when the
recomputed tag differs from the supplied one in any byte (rule R151). -/
def gcmDecryptAndVerify (c k t n a : Bytes) : Option Bytes :=
  if gcmTag k n a c ≠ t then none else some (gcmCtr c k n)

/-! ## The commands -/

/-- The ranges both GCM commands check (rules R154 and R155). -/
abbrev State.gcmRangesOk (s : State) : Prop :=
  s.keyRangeOk ∧ s.ivRangeOk 12 ∧ s.aadRangeOk ∧ s.dataRangeOk ∧ s.outRangeOk s.slen.toNat ∧ s.tagRangeOk

/-- `GCME` (rule R154): ciphertext at `DST`, tag at `TAGP`; the two must not overlap. -/
def execGcme (s : State) : Host.Outcome State Fault Refusal :=
  if ¬ s.keyLengthOk then .next (s.raise .invalidKeyLength)
  else if s.ivlen.toNat ≠ 12 then .next (s.raise .unsupportedNonceLength)
  else if ¬ s.gcmRangesOk ∨ s.outputsOverlap then .next (s.raise .accessFault)
  else
    let r := gcmEncryptAndTag s.dataOperand s.keyOperand s.nonceOperand s.aadOperand
    .next (((s.memWrite s.dst.toNat r.1).memWrite s.tagp.toNat r.2).succeed s.slen)

/-- `GCMD` (rule R155): nothing is written unless the tag matches. -/
def execGcmd (s : State) : Host.Outcome State Fault Refusal :=
  if ¬ s.keyLengthOk then .next (s.raise .invalidKeyLength)
  else if s.ivlen.toNat ≠ 12 then .next (s.raise .unsupportedNonceLength)
  else if ¬ s.gcmRangesOk then .next (s.raise .accessFault)
  else
    match gcmDecryptAndVerify s.dataOperand s.keyOperand s.tagOperand s.nonceOperand s.aadOperand with
    | none => .next (s.raise .authenticationError)
    | some p => .next ((s.memWrite s.dst.toNat p).succeed s.slen)

end Sys2Proof.Machine
end

