-- ==== Sys2Proof/Machine/Padding.lean ====
section
/-! DEFINITION. The block-padding pipeline and the command `PADB` (spec/43_padding.md). -/

namespace Sys2Proof.Machine

/-- The `n` padding bytes of a scheme, `n >= 1` (rules R105 and R106). -/
def paddingBytes (sc : Scheme) (n : Nat) : Bytes :=
  match sc with
  | .pkcs7 => rep (BitVec.ofNat 8 n) n
  | .iso7816 => 0x80 :: zeros (n - 1)
  | .whitespace => rep 0x20 n
  | .zero => zeros n

/-- `pad_block(data, scheme)` for at most 16 bytes of data (rule R105); `PADB` checks the length. -/
def padBlock (d : Bytes) (sc : Scheme) : Bytes :=
  let n := 16 - d.length
  if n = 0 then d else d ++ paddingBytes sc n

/-- `PADB` (rule R108): the scheme is judged first, then the length, then the ranges. -/
def execPadb (sch : SchemeField) (s : State) : Host.Outcome State Fault Refusal :=
  match sch with
  | .unrecognized _ => .next (s.raise .invalidSchemeError)
  | .scheme sc =>
    if 16 < s.slen.toNat then .next (s.raise .invalidInputError)
    else if ¬ (s.dataRangeOk ∧ s.outRangeOk 16) then .next (s.raise .accessFault)
    else .next ((s.memWrite s.dst.toNat (padBlock s.dataOperand sc)).succeed 16)

end Sys2Proof.Machine
end

