-- ==== Sys2Proof/Machine/Dispatch.lean ====
section
/-! DEFINITION. The dispatch: one arm per command (spec/30_encoding.md rules R51 and R57). -/

namespace Sys2Proof.Machine

def exec (i : Instr) (s : State) : Host.Outcome State Fault Refusal :=
  match i with
  | .kexp => Sys2Proof.Machine.execKexp s
  | .encb => Sys2Proof.Machine.execEncb s
  | .decb => Sys2Proof.Machine.execDecb s
  | .padb sch => Sys2Proof.Machine.execPadb sch s
  | .ecbe => Sys2Proof.Machine.execEcbe s
  | .ecbd => Sys2Proof.Machine.execEcbd s
  | .cbce => Sys2Proof.Machine.execCbce s
  | .cbcd => Sys2Proof.Machine.execCbcd s
  | .ctre => Sys2Proof.Machine.execCtre s
  | .ctrd => Sys2Proof.Machine.execCtrd s
  | .gcme => Sys2Proof.Machine.execGcme s
  | .gcmd => Sys2Proof.Machine.execGcmd s

end Sys2Proof.Machine
end

