-- ==== Sys2Proof/Machine/Transactions.lean ====
section
/-! DEFINITION. The transactions of the host and reset, each one atomic step (spec/00_scope.md rule R9,
spec/10_state.md rules R16 and R22, spec/20_memory.md rule R32, spec/70_reset_and_hazards.md rules R185 and
R196), and the engines of a platform with several of them (spec/60_exceptions.md rule R183). -/

namespace Sys2Proof.Machine

/-- The state in which a command word has arrived: `x[CMD] <- w` (rule R57), and the write will return
to the host when the command has ended (rule R9). -/
def State.accept (s : State) (w : Word) : State := { s with cmd := w, response := .done }

/-- A host write of `w` to `CMD` (rules R16 and R57): the word is stored, and the engine executes it to its
end; a word that is no command raises `IllegalCommand` (rule R173). -/
def issue (w : Word) (s : State) : Host.Outcome State Fault Refusal :=
  match decode w with
  | .error _ => .next ((s.accept w).raise .illegalCommand)
  | .ok i => exec i (s.accept w)

/-- `RegWrite(n, v)` (rule R22). -/
def hostRegWrite (n : Nat) (v : Word) (s : State) : Host.Outcome State Fault Refusal :=
  match Reg.ofNumber n with
  | none => .refused .noSuchRegister
  | some .cmd => issue v s
  | some r => .next { s.setReg r v with response := .done }

/-- `RegRead(n)` (rule R22): the value goes to the host and nothing else changes. -/
def hostRegRead (n : Nat) (s : State) : Host.Outcome State Fault Refusal :=
  match Reg.ofNumber n with
  | none => .refused .noSuchRegister
  | some r => .next { s with response := .word (s.reg r) }

/-- The ranges a host transaction may name (rules R32 and R33): valid ones, of a length below `2^32`. -/
abbrev State.hostRangeOk (s : State) (a n : Nat) : Prop := n < 2 ^ 32 ∧ s.rangeValid a n

/-- `HostMemWrite(addr, v)` (rule R32). -/
def hostMemWrite (addr : Word) (v : Bytes) (s : State) : Host.Outcome State Fault Refusal :=
  if s.hostRangeOk addr.toNat v.length then
    .next { s.memWrite addr.toNat v with response := .done }
  else .refused .hostRangeNotValid

/-- `HostMemRead(addr, n)` (rule R32): the bytes go to the host and nothing else changes. -/
def hostMemRead (addr : Word) (n : Nat) (s : State) : Host.Outcome State Fault Refusal :=
  if s.hostRangeOk addr.toNat n then .next { s with response := .bytes (s.memRead addr.toNat n) }
  else .refused .hostRangeNotValid

/-- One transaction as one atomic step (rules R9 and R196). -/
def perform (t : Transaction) (s : State) : Host.Outcome State Fault Refusal :=
  match t with
  | .regWrite n v => hostRegWrite n v s
  | .regRead n => hostRegRead n s
  | .memWrite addr v => hostMemWrite addr v s
  | .memRead addr n => hostMemRead addr n s
  | .reset => .next s.resetEngine

/-- One step of an engine and its host: the next pending transaction, or, when the host has none, an
idle engine (rules R184 and R195; notes/assumptions/3.md). -/
def stepOnce (s : State) : Host.Outcome State Fault Refusal :=
  match s.pending with
  | [] => .next s
  | t :: rest => perform t { s with pending := rest }

/-- A step of engine number `k` of a platform of several engines, each with its own registers and its own
`M` (rule R183, parameter `INSTANCES`): the other engines do not change. -/
def stepInstance (k : Nat) (engines : List State) : Host.Outcome (List State) Fault Refusal :=
  match engines[k]? with
  | none => .refused .noSuchEngine
  | some s =>
    match stepOnce s with
    | .next t => .next (engines.set k t)
    | .fault f => .fault f
    | .refused r => .refused r

end Sys2Proof.Machine
end

