-- ==== Sys2Proof/Machine/Step.lean ====
section
/-! DEFINITION. The step of the machine (spec/00_scope.md rule R9), and where it takes its next command
word from. -/

namespace Sys2Proof.Machine

/-- One step: one transaction of the host, with the whole command when the transaction is a `CMD` write. -/
def step (s : State) : Host.Outcome State Fault Refusal := stepOnce s

/-- The state with a `CMD` write of the word `w` as the host's next transaction: the engine has no program
counter and fetches nothing (rules R20 and R46), so this is where a step finds its command. -/
def State.withFetchWord (s : State) (nbits w : Nat) : State :=
  { s with pending := .regWrite Reg.cmd.number (BitVec.ofNat 32 (w % 2 ^ nbits)) :: s.pending }

end Sys2Proof.Machine
end

