-- ==== Sys2Proof/Safety.lean ====
section
/-! DEFINITION. What counts as a safe state and a safe run, in the terms the statements use. -/

namespace Sys2Proof.Machine

/-- Every listed byte of memory lies inside `M` (rule R30: "addresses 0 to `MEM_BYTES - 1` exist and no
others"). -/
abbrev State.memInside (s : State) : Prop := ∀ c ∈ s.mem, c.1 < s.memBytes

/-- `MEM_BYTES` is in its range (rule R6). -/
abbrev State.memBytesOk (s : State) : Prop :=
  Config.minMemBytes ≤ s.memBytes ∧ s.memBytes ≤ Config.maxMemBytes

/-- What `STATUS`, `RLEN` and `CMD` keep in every reachable state (rules R17 and R27). -/
abbrev State.statusOk (s : State) : Prop :=
  s.statusReserved = 0 ∧ s.err ≤ 10 ∧ s.err ≠ 6 ∧
    (s.valid = false → s.status = 0 ∧ s.rlen = 0 ∧ s.cmd = 0) ∧
    (s.err ≠ 0 → s.rlen = 0)

/-- The invariant of the machine: memory in its canonical form and inside `M`, `MEM_BYTES` in its range,
and the status registers as rule R27 lists. (`BLKSZ` reads 16 in every state: `State.reg`.) -/
abbrev State.Inv (s : State) : Prop := s.mem.wf ∧ s.memInside ∧ s.memBytesOk ∧ s.statusOk

/-- The last command, if there was one, did not fault. -/
abbrev State.noError (s : State) : Prop := s.err = 0

/-- A sticky fault record beside the engine, which the hardware does not have (rule R179: "keeps its own
sticky record"). -/
structure Monitor where
  engine : State
  faulted : Bool
  deriving DecidableEq, Repr

/-- A step of the engine; the record is set when the step leaves a nonzero `ERR`, and never cleared. -/
def Monitor.step (m : Monitor) : Host.Outcome Monitor Fault Refusal :=
  match Machine.step m.engine with
  | .next t => .next { engine := t, faulted := m.faulted || t.err != 0 }
  | .fault f => .fault f
  | .refused r => .refused r

/-- A run of `n` steps is safe when it ends in a state and no command of it faulted. -/
def safeRun : Nat → State → Bool
  | 0, _ => true
  | n + 1, s =>
    match step s with
    | .next t => t.err == 0 && safeRun n t
    | .fault _ => false
    | .refused _ => false

end Sys2Proof.Machine
end

