-- ==== Sys2Proof/Certificates/Slice0/Obligations.lean ====
section
/-! DEFINITION. The statements for the provers. Each docstring names the rule of the spec it formalises. -/

namespace Sys2Proof.Claims

open Sys2Proof.Machine

/-! ## Words the statements share -/

/-- Everything a command must leave alone: every register but `STATUS` and `RLEN` (the descriptor
registers, `CMD` and `BLKSZ` among them), the memory's size and its power-on bytes, and the host's side. -/
def Untouched (s t : State) : Prop :=
  (∀ r : Reg, r ≠ .status → r ≠ .rlen → t.reg r = s.reg r) ∧
    t.memBytes = s.memBytes ∧ t.memEpoch = s.memEpoch ∧ t.pending = s.pending ∧
    t.response = s.response

/-- Address `a` lies outside the `n` bytes from `p` upwards. -/
def Outside (a p n : Nat) : Prop := a < p ∨ p + n ≤ a

/-- The bytes `v` stand in memory from address `p` upwards. -/
def Holds (t : State) (p : Nat) (v : Bytes) : Prop :=
  ∀ k, (h : k < v.length) → t.byteAt (p + k) = v[k]

/-- The command `i` completes with its own effect: it answers a next state in which the `n` bytes `v`
stand at `DST`, every other byte of memory reads as before, `RLEN` is `n`, `STATUS` is `0x100`
(`VALID = 1`, `ERR = 0`), and everything else is as before. -/
def Completes (i : Instr) (s : State) (n : Nat) (v : Bytes) : Prop :=
  v.length = n ∧ ∃ t, exec i s = .next t ∧
    t.status = 0x00000100 ∧ t.rlen.toNat = n ∧ Untouched s t ∧
    Holds t s.dst.toNat v ∧ ∀ a, Outside a s.dst.toNat n → t.byteAt a = s.byteAt a

/-- The command `i` ends with error code `code` and no output (rule R176): `STATUS` is `0x100 + code`,
`RLEN` is 0, and every byte of memory and everything else is as before. -/
def FaultsWith (i : Instr) (s : State) (code : Nat) : Prop :=
  ∃ t, exec i s = .next t ∧
    t.status = 0x00000100 + BitVec.ofNat 32 code ∧ t.rlen = 0 ∧ Untouched s t ∧
    ∀ a, t.byteAt a = s.byteAt a

/-- The registers a command reads (rule R13). -/
def readRegs : Instr → List Reg
  | .kexp => [.dst, .keyp, .klen]
  | .encb | .decb => [.src, .slen, .dst, .keyp, .klen]
  | .padb _ => [.src, .slen, .dst]
  | .ecbe | .ecbd => [.src, .slen, .dst, .keyp, .klen]
  | .cbce | .cbcd | .ctre | .ctrd => [.src, .slen, .dst, .keyp, .klen, .ivp, .ivlen]
  | .gcme | .gcmd => [.src, .slen, .dst, .keyp, .klen, .ivp, .ivlen, .aadp, .aadlen, .tagp]

/-- The ranges of memory a command reads, as pointer and length (rule R13 and the command rules). -/
def inputRanges (i : Instr) (s : State) : List (Nat × Nat) :=
  let key := (s.keyp.toNat, s.klen.toNat)
  let data := (s.src.toNat, s.slen.toNat)
  let aad := (s.aadp.toNat, s.aadlen.toNat)
  match i with
  | .kexp => [key]
  | .encb | .decb => [key, (s.src.toNat, 16)]
  | .padb _ => [data]
  | .ecbe | .ecbd => [key, data]
  | .cbce | .cbcd | .ctre | .ctrd => [key, (s.ivp.toNat, 16), data]
  | .gcme => [key, (s.ivp.toNat, 12), aad, data]
  | .gcmd => [key, (s.ivp.toNat, 12), aad, data, (s.tagp.toNat, 16)]

/-- The ranges of memory a command writes when it succeeds (rule R13 and the command rules). -/
def outputRanges (i : Instr) (s : State) : List (Nat × Nat) :=
  match i with
  | .kexp => [(s.dst.toNat, (s.klen.toNat / 4 + 7) * 16)]
  | .encb | .decb | .padb _ => [(s.dst.toNat, 16)]
  | .ecbe | .ecbd | .cbce | .cbcd | .ctre | .ctrd | .gcmd => [(s.dst.toNat, s.slen.toNat)]
  | .gcme => [(s.dst.toNat, s.slen.toNat), (s.tagp.toNat, 16)]

/-- The cause of each error code, for a command (rules R166 to R175). -/
def Cause (i : Instr) (s : State) : ErrorCode → Prop
  | .invalidKeyLength =>
    match i with
    | .padb _ => False
    | .encb | .decb => s.klen.toNat ∉ [176, 208, 240]
    | .kexp | .ecbe | .ecbd | .cbce | .cbcd | .ctre | .ctrd | .gcme | .gcmd =>
      s.klen.toNat ∉ [16, 24, 32]
  | .invalidBlockLength =>
    match i with
    | .encb | .decb => s.slen.toNat ≠ 16
    | .cbce | .cbcd | .ctre | .ctrd => s.ivlen.toNat ≠ 16
    | .kexp | .padb _ | .ecbe | .ecbd | .gcme | .gcmd => False
  | .invalidDataLength =>
    match i with
    | .ecbe | .ecbd | .cbce | .cbcd => s.slen.toNat % 16 ≠ 0
    | .kexp | .encb | .decb | .padb _ | .ctre | .ctrd | .gcme | .gcmd => False
  | .invalidSchemeError => ∃ n, i = .padb (.unrecognized n)
  | .authenticationError =>
    i = .gcmd ∧ gcmTag s.keyOperand s.nonceOperand s.aadOperand s.dataOperand ≠ s.tagOperand
  | .malformedInputError => False
  | .invalidInputError => (∃ sch, i = .padb sch) ∧ 16 < s.slen.toNat
  | .illegalCommand => False
  | .accessFault =>
    (∃ r ∈ inputRanges i s ++ outputRanges i s, ¬ s.rangeValid r.1 r.2) ∨
      (i = .gcme ∧ overlap s.dst.toNat s.slen.toNat s.tagp.toNat 16)
  | .unsupportedNonceLength => (i = .gcme ∨ i = .gcmd) ∧ s.ivlen.toNat ≠ 12

/-- The cause of each error code, for a word written to `CMD` (rule R173 for a word that is no command). -/
def CauseOfWord (w : Word) (s : State) (f : ErrorCode) : Prop :=
  match decode w with
  | .error _ => f = .illegalCommand
  | .ok i => Cause i s f

/-- The place of an error code in the priority order (rule R177). -/
def rank : ErrorCode → Nat
  | .illegalCommand => 1
  | .invalidSchemeError => 2
  | .invalidKeyLength => 3
  | .invalidBlockLength => 4
  | .unsupportedNonceLength => 4
  | .invalidDataLength => 5
  | .invalidInputError => 5
  | .accessFault => 6
  | .authenticationError => 7
  | .malformedInputError => 8

/-- A key of a legal length (rule R166). -/
def KeyLength (k : Bytes) : Prop := k.length = 16 ∨ k.length = 24 ∨ k.length = 32

/-- A schedule of a legal length (rule R96). -/
def ScheduleLength (sch : Bytes) : Prop := sch.length = 176 ∨ sch.length = 208 ∨ sch.length = 240

/-- Block `j` of a byte sequence: `D[16j .. 16j+16)`. -/
def blockAt (d : Bytes) (j : Nat) : Bytes := (d.drop (16 * j)).take 16

/-- Word `i` of a schedule: `S[4i .. 4i+4)` (rule R75). -/
def wordAt (sch : Bytes) (i : Nat) : Bytes := (sch.drop (4 * i)).take 4

/-- The byte form of the counter increment (rule R132) on the reversed bytes: a byte `ff` becomes `00` and
the carry goes on, any other byte is raised by one and the carry ends. -/
def incReversed : Bytes → Bytes
  | [] => []
  | x :: r => if x = 0xff then 0x00 :: incReversed r else (x + 1) :: r

/-- The status after a `CMD` write: success, or one of the codes the engine can report. -/
def ReportsOutcome (t : State) : Prop :=
  t.status = 0x00000100 ∨
    ∃ c ∈ [1, 2, 3, 4, 5, 7, 8, 9, 10], t.status = 0x00000100 + BitVec.ofNat 32 c

/-- What every host write leaves alone beside the register or the bytes it names: the memory's size and its
power-on bytes and the transactions to come; and the write returns. -/
def HostWriteFrame (s t : State) : Prop :=
  t.memBytes = s.memBytes ∧ t.memEpoch = s.memEpoch ∧ t.pending = s.pending ∧ t.response = .done

/-- Is the transaction a write of register `r`? -/
def isWriteOf (r : Reg) : Transaction → Bool
  | .regWrite n _ => n == r.number
  | .regRead _ | .memWrite _ _ | .memRead _ _ | .reset => false

end Sys2Proof.Claims

open Sys2Proof Sys2Proof.Machine Sys2Proof.Claims

/-! ## Encoding -/

/-- Words written out from the spec's tables decode to their commands (rules R49 to R51). -/
def Obligations.SampleWordsDecode : Prop :=
  decode 0x00000001 = .ok .kexp ∧ decode 0x00000002 = .ok .encb ∧ decode 0x00000003 = .ok .decb ∧
    decode 0x00000304 = .ok (.padb (.scheme .zero)) ∧
    decode 0x0000ff04 = .ok (.padb (.unrecognized 255)) ∧
    decode 0x00000010 = .ok .ecbe ∧ decode 0x00000013 = .ok .cbcd ∧ decode 0x00000014 = .ok .ctre ∧
    decode 0x00000017 = .ok .gcmd ∧
    decode 0x00000000 = .error .unknownOpcode ∧ decode 0x00000110 = .error .schFieldNotZero ∧
    decode 0x00010404 = .error .zeroFieldNotZero

/-- Decoding the word of a well-formed command gives the command back, its scheme included (rules R47, R51). -/
def Obligations.DecodeOfEncode : Prop :=
  ∀ i : Instr, i.wellFormed = true → decode (encode i) = .ok i

/-- Every word that decodes is the word of exactly the well-formed command it decodes to. -/
def Obligations.EncodeOfDecode : Prop :=
  ∀ (w : Word) (i : Instr), decode w = .ok i → i.wellFormed = true ∧ encode i = w

/-- Rule R51: a word is a command exactly when it matches the command's mask and match. -/
def Obligations.MatchAndMaskDecode : Prop :=
  ∀ w : Word,
    (decode w = .ok .kexp ↔ w &&& 0xFFFFFFFF = 0x00000001) ∧
    (decode w = .ok .encb ↔ w &&& 0xFFFFFFFF = 0x00000002) ∧
    (decode w = .ok .decb ↔ w &&& 0xFFFFFFFF = 0x00000003) ∧
    ((∃ sch, decode w = .ok (.padb sch)) ↔ w &&& 0xFFFF00FF = 0x00000004) ∧
    (decode w = .ok .ecbe ↔ w &&& 0xFFFFFFFF = 0x00000010) ∧
    (decode w = .ok .ecbd ↔ w &&& 0xFFFFFFFF = 0x00000011) ∧
    (decode w = .ok .cbce ↔ w &&& 0xFFFFFFFF = 0x00000012) ∧
    (decode w = .ok .cbcd ↔ w &&& 0xFFFFFFFF = 0x00000013) ∧
    (decode w = .ok .ctre ↔ w &&& 0xFFFFFFFF = 0x00000014) ∧
    (decode w = .ok .ctrd ↔ w &&& 0xFFFFFFFF = 0x00000015) ∧
    (decode w = .ok .gcme ↔ w &&& 0xFFFFFFFF = 0x00000016) ∧
    (decode w = .ok .gcmd ↔ w &&& 0xFFFFFFFF = 0x00000017)

/-- Rule R50: the scheme each value of `SCH` names, and 4 to 255 name none and raise `InvalidSchemeError`. -/
def Obligations.SchemeNumbers : Prop :=
  decode 0x00000004 = .ok (.padb (.scheme .pkcs7)) ∧
    decode 0x00000104 = .ok (.padb (.scheme .iso7816)) ∧
    decode 0x00000204 = .ok (.padb (.scheme .whitespace)) ∧
    decode 0x00000304 = .ok (.padb (.scheme .zero)) ∧
    ∀ n : Nat, 4 ≤ n → n < 256 →
      decode (BitVec.ofNat 32 (n * 256 + 4)) = .ok (.padb (.unrecognized n)) ∧
        ∀ s : State, ∃ t, issue (BitVec.ofNat 32 (n * 256 + 4)) s = .next t ∧ t.status = 0x00000104

/-- Rules R52 and R173: the illegal words are exactly those with a nonzero bit in 31:16, those with an
`OPC` of `00`, `05` to `0F` or `18` to `FF`, and those with another `OPC` than `04` and a nonzero `SCH`;
the all-zero word is one; and writing one ends in `IllegalCommand` with no other effect. -/
def Obligations.IllegalWordsFault : Prop :=
  (∀ w : Word, (∃ e, decode w = .error e) ↔
    w.toNat / 65536 ≠ 0 ∨
    w.toNat % 256 = 0x00 ∨ (0x05 ≤ w.toNat % 256 ∧ w.toNat % 256 ≤ 0x0F) ∨ 0x18 ≤ w.toNat % 256 ∨
    (w.toNat % 256 ≠ 0x04 ∧ w.toNat / 256 % 256 ≠ 0)) ∧
  (∃ e, decode 0 = .error e) ∧
  ∀ (w : Word) (s : State), (∃ e, decode w = .error e) →
    ∃ t, issue w s = .next t ∧ t.cmd = w ∧ t.status = 0x00000108 ∧ t.rlen = 0 ∧
      Untouched (s.accept w) t ∧ ∀ a, t.byteAt a = s.byteAt a

/-! ## The step -/

/-- A step whose next transaction is a `CMD` write of a word that decodes to `i` is `exec i`, from the state
in which the word stands in `CMD`, the write will return to the host, and the transaction is taken off;
a word that decodes to none raises `IllegalCommand` there (rules R46 and R57). `withFetchWord` places
such a write in front. -/
def Obligations.StepRunsTheDecodedCommand : Prop :=
  (∀ (s : State) (w : Word) (rest : List Transaction) (i : Instr),
    s.pending = .regWrite 0 w :: rest → decode w = .ok i →
    step s = exec i { s with pending := rest, cmd := w, response := .done }) ∧
  (∀ (s : State) (w : Word) (rest : List Transaction) (e : IllegalWord),
    s.pending = .regWrite 0 w :: rest → decode w = .error e →
    step s = .next (State.raise { s with pending := rest, cmd := w, response := .done } .illegalCommand)) ∧
  ∀ (s : State) (w : Word),
    (s.withFetchWord 32 w.toNat).pending = .regWrite 0 w :: s.pending ∧
      { s.withFetchWord 32 w.toNat with pending := s.pending } = s

/-- Rule R56: every command mnemonic is exactly one `CMD` write, and that one step runs the command; no
other command has the same word, `CTRE` and `CTRD` among them. -/
def Obligations.ListingCommandIsOneWrite : Prop :=
  ∀ (i : Instr) (s : State), i.wellFormed = true →
    (ListingLine.command i).transaction = .regWrite 0 (encode i) ∧
      perform (ListingLine.command i).transaction s = exec i (s.accept (encode i)) ∧
      ∀ j : Instr, j.wellFormed = true → encode j = encode i → j = i

/-- Rule R194: every `CMD` write ends in a next state, whatever the word and the operands. -/
def Obligations.EveryCommandEnds : Prop :=
  ∀ (w : Word) (s : State), ∃ t, issue w s = .next t ∧ ReportsOutcome t

/-! ## Registers -/

/-- Rule R22: what a host access to each register does; a number above 13 names no register. -/
def Obligations.HostRegisterAccess : Prop :=
  (∀ (n : Nat) (v : Word) (s : State), 4 ≤ n → n ≤ 13 →
    ∃ r t, Reg.ofNumber n = some r ∧ perform (.regWrite n v) s = .next t ∧ t.reg r = v ∧
      (∀ q, q ≠ r → t.reg q = s.reg q) ∧ t.mem = s.mem ∧ HostWriteFrame s t ∧
      ∀ a, t.byteAt a = s.byteAt a) ∧
  (∀ (v : Word) (s : State), perform (.regWrite 0 v) s = issue v s) ∧
  (∀ (n : Nat) (v : Word) (s : State), 1 ≤ n → n ≤ 3 →
    perform (.regWrite n v) s = .next { s with response := .done }) ∧
  (∀ (n : Nat) (s : State), n ≤ 13 →
    ∃ r, Reg.ofNumber n = some r ∧
      perform (.regRead n) s = .next { s with response := .word (s.reg r) }) ∧
  ∀ (n : Nat) (v : Word) (s : State), 13 < n →
    perform (.regWrite n v) s = .refused .noSuchRegister ∧
      perform (.regRead n) s = .refused .noSuchRegister

/-- Rule R19: `BLKSZ` reads 16 before and after anything, a host write of it among them. -/
def Obligations.BlockSizeIsSixteen : Prop :=
  ∀ (s : State),
    perform (.regRead 3) s = .next { s with response := .word 0x00000010 } ∧
    ∀ v : Word, perform (.regWrite 3 v) s = .next { s with response := .done } ∧
      perform (.regRead 3) { s with response := .done } = .next { s with response := .word 0x00000010 }

/-- Rule R16: a `CMD` write of any word executes it and leaves the word in `CMD`, after a fault too; reading
it back, or reading the 0 it holds after reset, has no side effect. -/
def Obligations.CommandRegisterHoldsTheWord : Prop :=
  (∀ (w : Word) (s : State), ∃ t, perform (.regWrite 0 w) s = .next t ∧ issue w s = .next t ∧
    t.reg .cmd = w ∧ perform (.regRead 0) t = .next { t with response := .word w }) ∧
  ∀ s : State, ∃ t, perform .reset s = .next t ∧
    perform (.regRead 0) t = .next { t with response := .word 0 }

/-- Rule R14: a descriptor register keeps its value over any step but a host write of that register and
a reset; no command, ending well or in a fault, changes it. -/
def Obligations.DescriptorRegistersKept : Prop :=
  ∀ (s t : State) (r : Reg), 4 ≤ r.number → step s = .next t →
    (∀ x rest, s.pending = x :: rest → isWriteOf r x = false ∧ x ≠ .reset) → t.reg r = s.reg r

/-- Rule R17: every `CMD` write overwrites the whole of `STATUS` with `0x100 + code`, never code 6; reset
makes it 0, `VALID` included; nothing else changes it. -/
def Obligations.StatusWrittenByCommandsOnly : Prop :=
  (∀ (w : Word) (s t : State), issue w s = .next t →
    ReportsOutcome t ∧ t.valid = true ∧ t.statusReserved = 0 ∧ t.err ≤ 10 ∧ t.err ≠ 6) ∧
  (∀ s : State, ∃ t, perform .reset s = .next t ∧ t.status = 0 ∧ t.valid = false ∧ t.err = 0) ∧
  ∀ s t : State, step s = .next t →
    (∀ x rest, s.pending = x :: rest → isWriteOf .cmd x = false ∧ x ≠ .reset) →
    t.status = s.status ∧ t.cmd = s.cmd

/-- Rule R18: `RLEN` after a command: 0 after a fault; after a success 176, 208 or 240 for `KEXP`, 16 for
`ENCB`, `DECB` and `PADB`, and `SLEN` for the mode commands; nothing but a `CMD` write and a reset changes
it. -/
def Obligations.ResultLengthReported : Prop :=
  (∀ (i : Instr) (s t : State), exec i s = .next t →
    (t.err ≠ 0 → t.rlen = 0) ∧
    (t.err = 0 →
      match i with
      | .kexp => t.rlen.toNat ∈ [176, 208, 240]
      | .encb | .decb | .padb _ => t.rlen.toNat = 16
      | .ecbe | .ecbd | .cbce | .cbcd | .ctre | .ctrd | .gcme | .gcmd => t.rlen = s.slen)) ∧
  ∀ s t : State, step s = .next t →
    (∀ x rest, s.pending = x :: rest → isWriteOf .cmd x = false ∧ x ≠ .reset) → t.rlen = s.rlen

/-! ## Memory -/

/-- Rule R31: after `MemWrite(a, n, v)` the range holds `v` byte by byte, `MemRead` of it returns `v`, and
every byte outside it reads as before; a read of no bytes is empty. -/
def Obligations.ReadAfterWrite : Prop :=
  ∀ (s : State) (a : Nat) (v : Bytes), s.mem.wf →
    Holds (s.memWrite a v) a v ∧ (s.memWrite a v).memRead a v.length = v ∧
    (∀ x, Outside x a v.length → (s.memWrite a v).byteAt x = s.byteAt x) ∧
    s.memRead a 0 = []

/-- Rule R32: a host write of a valid range stores its bytes, a host read of one returns them and changes
nothing else, and a range that is not valid is refused. -/
def Obligations.HostMemoryAccess : Prop :=
  (∀ (s : State) (a : Word) (v : Bytes), s.mem.wf → v.length < 2 ^ 32 → s.rangeValid a.toNat v.length →
    ∃ t, perform (.memWrite a v) s = .next t ∧ Holds t a.toNat v ∧
      (∀ x, Outside x a.toNat v.length → t.byteAt x = s.byteAt x) ∧ (∀ r, t.reg r = s.reg r) ∧
      HostWriteFrame s t) ∧
  (∀ (s : State) (a : Word) (n : Nat), n < 2 ^ 32 → s.rangeValid a.toNat n →
    perform (.memRead a n) s = .next { s with response := .bytes (s.memRead a.toNat n) }) ∧
  (∀ (s : State) (a : Word) (v : Bytes), ¬ s.rangeValid a.toNat v.length →
    perform (.memWrite a v) s = .refused .hostRangeNotValid) ∧
  ∀ (s : State) (a : Word) (n : Nat), ¬ s.rangeValid a.toNat n →
    perform (.memRead a n) s = .refused .hostRangeNotValid

/-- Rule R33: an empty range is valid and overlaps nothing, whatever its pointer; a range that runs past
the last byte of `M`, or past `2^32`, is not valid; an access never wraps. -/
def Obligations.RangesDoNotWrap : Prop :=
  ∀ s : State, s.memBytesOk →
    (∀ p, s.rangeValid p 0) ∧ (∀ p q n, ¬ overlap p 0 q n ∧ ¬ overlap p n q 0) ∧
    (∀ p n, 0 < n → (s.rangeValid p n ↔ ∀ k, k < n → p + k < s.memBytes)) ∧
    ∀ p n, 0 < n → 2 ^ 32 < p + n → ¬ s.rangeValid p n

/-- Rule R25: the byte at an address changes only in a host memory write of a range that holds it, in a
reset, or in a command that succeeds and one of whose output ranges holds it. -/
def Obligations.MemoryWrittenByNothingElse : Prop :=
  ∀ (s t : State) (a : Nat), s.mem.wf → step s = .next t → t.byteAt a ≠ s.byteAt a →
    ∃ x rest, s.pending = x :: rest ∧
      (x = .reset ∨
        (∃ p v, x = .memWrite p v ∧ ¬ Outside a p.toNat v.length) ∨
        ∃ w i, x = .regWrite 0 w ∧ decode w = .ok i ∧ t.err = 0 ∧
          ∃ r ∈ outputRanges i s, ¬ Outside a r.1 r.2)

/-! ## Reset and the invariant -/

/-- The table of rule R26, for a reset from any state: every register at its reset value and the pending
transactions of the host kept. THE MODEL'S CHOICE (notes/assumptions/1.md): each byte of memory is the
free power-on byte of its address and of this reset. -/
def Obligations.ResetState : Prop :=
  ∀ s : State, ∃ t, perform .reset s = .next t ∧
    (∀ r, t.reg r = if r = .blksz then 0x00000010 else 0) ∧
    t.memBytes = s.memBytes ∧ t.pending = s.pending ∧
    ∀ a, t.byteAt a = Config.powerOnByte t.memEpoch a

/-- The reset state satisfies the invariant of the machine (rules R26 and R27). -/
def Obligations.ResetSatisfiesInvariant : Prop := State.reset.Inv

/-- Every step keeps the invariant (rule R27): memory stays in its canonical form and inside `M`,
`MEM_BYTES` stays in its range, `STATUS` bits 31:9 stay 0, `ERR` stays at most 10 and is never 6, before
the first command `STATUS`, `RLEN` and `CMD` are 0, and after a fault `RLEN` is 0. -/
def Obligations.StepKeepsInvariant : Prop :=
  ∀ s t : State, s.Inv → step s = .next t → t.Inv

/-! ## Faults -/

/-- Rule R176: a `CMD` write that ends with a nonzero error code leaves every byte of memory and
everything but `CMD` (the word written), `STATUS` and `RLEN` (0) as before. -/
def Obligations.FaultsHaveNoOtherEffect : Prop :=
  ∀ (w : Word) (s t : State), issue w s = .next t → t.err ≠ 0 →
    t.cmd = w ∧ t.rlen = 0 ∧ t.status = 0x00000100 + BitVec.ofNat 32 t.err ∧ Untouched (s.accept w) t ∧
      ∀ a, t.byteAt a = s.byteAt a

/-- Rule R177, with the codes and causes of rules R166 to R175: a `CMD` write reports exactly one error
code, the first in the priority order among those whose cause is there, and it succeeds exactly when no
cause is there. -/
def Obligations.FirstFaultIsReported : Prop :=
  [ErrorCode.invalidKeyLength, .invalidBlockLength, .invalidDataLength, .invalidSchemeError,
    .authenticationError, .malformedInputError, .invalidInputError, .illegalCommand, .accessFault,
    .unsupportedNonceLength].map ErrorCode.code = [1, 2, 3, 4, 5, 6, 7, 8, 9, 10] ∧
  ∀ (w : Word) (s t : State), issue w s = .next t →
    (∀ f : ErrorCode, t.err = f.code ↔
      CauseOfWord w s f ∧ ∀ g, rank g < rank f → ¬ CauseOfWord w s g) ∧
    (t.err = 0 ↔ ∀ f, ¬ CauseOfWord w s f)

/-! ## The commands -/

/-- `KEXP` (rule R79): the schedule at `DST`, or `InvalidKeyLength`, or `AccessFault`, in this order. -/
def Obligations.KexpWritesTheSchedule : Prop :=
  encode .kexp = 0x00000001 ∧ ∀ s : State, s.mem.wf →
    (s.keyLengthOk → s.keyRangeOk → s.outRangeOk ((s.klen.toNat / 4 + 7) * 16) →
      Completes .kexp s ((s.klen.toNat / 4 + 7) * 16) (expandKey s.keyOperand)) ∧
    (¬ s.keyLengthOk → FaultsWith .kexp s 1) ∧
    (s.keyLengthOk → ¬ (s.keyRangeOk ∧ s.outRangeOk ((s.klen.toNat / 4 + 7) * 16)) →
      FaultsWith .kexp s 9)

/-- `ENCB` and `DECB` (rules R97 and R98): one block transformed with the schedule at `KEYP`, or
`InvalidKeyLength`, or `InvalidBlockLength`, or `AccessFault`, in this order. -/
def Obligations.BlockCommandsTransformOneBlock : Prop :=
  encode .encb = 0x00000002 ∧ encode .decb = 0x00000003 ∧ ∀ s : State, s.mem.wf →
    (s.scheduleLengthOk → s.slen.toNat = 16 → s.keyRangeOk → s.rangeValid s.src.toNat 16 →
      s.outRangeOk 16 →
      Completes .encb s 16 (encryptBlock s.blockOperand s.keyOperand) ∧
      Completes .decb s 16 (decryptBlock s.blockOperand s.keyOperand)) ∧
    (¬ s.scheduleLengthOk → FaultsWith .encb s 1 ∧ FaultsWith .decb s 1) ∧
    (s.scheduleLengthOk → s.slen.toNat ≠ 16 → FaultsWith .encb s 2 ∧ FaultsWith .decb s 2) ∧
    (s.scheduleLengthOk → s.slen.toNat = 16 →
      ¬ (s.keyRangeOk ∧ s.rangeValid s.src.toNat 16 ∧ s.outRangeOk 16) →
      FaultsWith .encb s 9 ∧ FaultsWith .decb s 9)

/-- `PADB` (rule R108): the padded block at `DST`, or `InvalidSchemeError` (judged first, whatever the
length), or `InvalidInputError`, or `AccessFault`, in this order. -/
def Obligations.PadbPadsTheBlock : Prop :=
  (∀ sc, encode (.padb (.scheme sc)) = BitVec.ofNat 32 ((SchemeField.scheme sc).number * 256 + 4)) ∧
  ∀ s : State, s.mem.wf →
    (∀ sc, s.slen.toNat ≤ 16 → s.dataRangeOk → s.outRangeOk 16 →
      Completes (.padb (.scheme sc)) s 16 (padBlock s.dataOperand sc)) ∧
    (∀ n, 3 < n → FaultsWith (.padb (.unrecognized n)) s 4) ∧
    (∀ sc, 16 < s.slen.toNat → FaultsWith (.padb (.scheme sc)) s 7) ∧
    (∀ sc, s.slen.toNat ≤ 16 → ¬ (s.dataRangeOk ∧ s.outRangeOk 16) →
      FaultsWith (.padb (.scheme sc)) s 9)

/-- `ECBE` and `ECBD` (rules R118 and R119): the data transformed at `DST`, or `InvalidKeyLength`, or
`InvalidDataLength`, or `AccessFault`, in this order. -/
def Obligations.EcbCommandsTransformTheData : Prop :=
  encode .ecbe = 0x00000010 ∧ encode .ecbd = 0x00000011 ∧ ∀ s : State, s.mem.wf →
    (s.keyLengthOk → s.slen.toNat % 16 = 0 → s.keyRangeOk → s.dataRangeOk →
      s.outRangeOk s.slen.toNat →
      Completes .ecbe s s.slen.toNat (ecbEncrypt s.dataOperand s.keyOperand) ∧
      Completes .ecbd s s.slen.toNat (ecbDecrypt s.dataOperand s.keyOperand)) ∧
    (¬ s.keyLengthOk → FaultsWith .ecbe s 1 ∧ FaultsWith .ecbd s 1) ∧
    (s.keyLengthOk → s.slen.toNat % 16 ≠ 0 → FaultsWith .ecbe s 3 ∧ FaultsWith .ecbd s 3) ∧
    (s.keyLengthOk → s.slen.toNat % 16 = 0 →
      ¬ (s.keyRangeOk ∧ s.dataRangeOk ∧ s.outRangeOk s.slen.toNat) →
      FaultsWith .ecbe s 9 ∧ FaultsWith .ecbd s 9)

/-- `CBCE` and `CBCD` (rules R130 and R131): the data transformed at `DST`, or `InvalidKeyLength`, or
`InvalidBlockLength`, or `InvalidDataLength`, or `AccessFault`, in this order. -/
def Obligations.CbcCommandsTransformTheData : Prop :=
  encode .cbce = 0x00000012 ∧ encode .cbcd = 0x00000013 ∧ ∀ s : State, s.mem.wf →
    (s.keyLengthOk → s.ivlen.toNat = 16 → s.slen.toNat % 16 = 0 → s.keyRangeOk → s.ivRangeOk 16 →
      s.dataRangeOk → s.outRangeOk s.slen.toNat →
      Completes .cbce s s.slen.toNat (cbcEncrypt s.dataOperand s.keyOperand s.ivOperand) ∧
      Completes .cbcd s s.slen.toNat (cbcDecrypt s.dataOperand s.keyOperand s.ivOperand)) ∧
    (¬ s.keyLengthOk → FaultsWith .cbce s 1 ∧ FaultsWith .cbcd s 1) ∧
    (s.keyLengthOk → s.ivlen.toNat ≠ 16 → FaultsWith .cbce s 2 ∧ FaultsWith .cbcd s 2) ∧
    (s.keyLengthOk → s.ivlen.toNat = 16 → s.slen.toNat % 16 ≠ 0 →
      FaultsWith .cbce s 3 ∧ FaultsWith .cbcd s 3) ∧
    (s.keyLengthOk → s.ivlen.toNat = 16 → s.slen.toNat % 16 = 0 →
      ¬ (s.keyRangeOk ∧ s.ivRangeOk 16 ∧ s.dataRangeOk ∧ s.outRangeOk s.slen.toNat) →
      FaultsWith .cbce s 9 ∧ FaultsWith .cbcd s 9)

/-- `CTRE` and `CTRD` (rules R135 and R136): the data of any length with the keystream at `DST`, the same
for both, or `InvalidKeyLength`, or `InvalidBlockLength`, or `AccessFault`, in this order; issued from one
state, the two end in the same state but for `CMD`. -/
def Obligations.CtrCommandsTransformTheData : Prop :=
  encode .ctre = 0x00000014 ∧ encode .ctrd = 0x00000015 ∧
  (∀ s : State, ∃ t, issue 0x00000014 s = .next t ∧ issue 0x00000015 s = .next { t with cmd := 0x00000015 }) ∧
  ∀ s : State, s.mem.wf →
    (s.keyLengthOk → s.ivlen.toNat = 16 → s.keyRangeOk → s.ivRangeOk 16 → s.dataRangeOk →
      s.outRangeOk s.slen.toNat →
      Completes .ctre s s.slen.toNat (ctrXcrypt s.dataOperand s.keyOperand s.ivOperand) ∧
      Completes .ctrd s s.slen.toNat (ctrXcrypt s.dataOperand s.keyOperand s.ivOperand)) ∧
    (¬ s.keyLengthOk → FaultsWith .ctre s 1 ∧ FaultsWith .ctrd s 1) ∧
    (s.keyLengthOk → s.ivlen.toNat ≠ 16 → FaultsWith .ctre s 2 ∧ FaultsWith .ctrd s 2) ∧
    (s.keyLengthOk → s.ivlen.toNat = 16 →
      ¬ (s.keyRangeOk ∧ s.ivRangeOk 16 ∧ s.dataRangeOk ∧ s.outRangeOk s.slen.toNat) →
      FaultsWith .ctre s 9 ∧ FaultsWith .ctrd s 9)

/-- `GCME` (rule R154): the ciphertext at `DST` and the 16-byte tag at `TAGP`, with `RLEN` not counting the
tag, or `InvalidKeyLength`, or `UnsupportedNonceLength`, or `AccessFault` (also when the two output
ranges overlap), in this order. -/
def Obligations.GcmeWritesCiphertextAndTag : Prop :=
  encode .gcme = 0x00000016 ∧ ∀ s : State, s.mem.wf →
    (s.keyLengthOk → s.ivlen.toNat = 12 → s.gcmRangesOk → ¬ s.outputsOverlap →
      (gcmEncryptAndTag s.dataOperand s.keyOperand s.nonceOperand s.aadOperand).1.length =
        s.slen.toNat ∧
      (gcmEncryptAndTag s.dataOperand s.keyOperand s.nonceOperand s.aadOperand).2.length = 16 ∧
      ∃ t, exec .gcme s = .next t ∧ t.status = 0x00000100 ∧ t.rlen = s.slen ∧ Untouched s t ∧
        Holds t s.dst.toNat
          (gcmEncryptAndTag s.dataOperand s.keyOperand s.nonceOperand s.aadOperand).1 ∧
        Holds t s.tagp.toNat
          (gcmEncryptAndTag s.dataOperand s.keyOperand s.nonceOperand s.aadOperand).2 ∧
        ∀ a, Outside a s.dst.toNat s.slen.toNat → Outside a s.tagp.toNat 16 →
          t.byteAt a = s.byteAt a) ∧
    (¬ s.keyLengthOk → FaultsWith .gcme s 1) ∧
    (s.keyLengthOk → s.ivlen.toNat ≠ 12 → FaultsWith .gcme s 10) ∧
    (s.keyLengthOk → s.ivlen.toNat = 12 → ¬ s.gcmRangesOk ∨ s.outputsOverlap → FaultsWith .gcme s 9)

/-- `GCMD` (rule R155): the plaintext at `DST` when the supplied tag is the tag of the ciphertext, or
`InvalidKeyLength`, or `UnsupportedNonceLength`, or `AccessFault`, or, when any byte of the tag differs,
`AuthenticationError` with no byte of memory changed, in this order. -/
def Obligations.GcmdVerifiesThenDecrypts : Prop :=
  encode .gcmd = 0x00000017 ∧ ∀ s : State, s.mem.wf →
    (s.keyLengthOk → s.ivlen.toNat = 12 → s.gcmRangesOk →
      gcmTag s.keyOperand s.nonceOperand s.aadOperand s.dataOperand = s.tagOperand →
      Completes .gcmd s s.slen.toNat (gcmCtr s.dataOperand s.keyOperand s.nonceOperand)) ∧
    (¬ s.keyLengthOk → FaultsWith .gcmd s 1) ∧
    (s.keyLengthOk → s.ivlen.toNat ≠ 12 → FaultsWith .gcmd s 10) ∧
    (s.keyLengthOk → s.ivlen.toNat = 12 → ¬ s.gcmRangesOk → FaultsWith .gcmd s 9) ∧
    (s.keyLengthOk → s.ivlen.toNat = 12 → s.gcmRangesOk →
      gcmTag s.keyOperand s.nonceOperand s.aadOperand s.dataOperand ≠ s.tagOperand →
      FaultsWith .gcmd s 5)

/-! ## Fields and tables -/

/-- Rule R63: the laws of `gmul8`, for all bytes. -/
def Obligations.ByteFieldLaws : Prop :=
  ∀ a b c : Byte,
    gmul8 a b = gmul8 b a ∧ gmul8 a 0x01 = a ∧ gmul8 a 0x00 = 0x00 ∧ gmul8 a 0x02 = xtime a ∧
    gmul8 a 0x03 = xtime a ^^^ a ∧ gmul8 a (b ^^^ c) = gmul8 a b ^^^ gmul8 a c ∧
    gmul8 a (gmul8 b c) = gmul8 (gmul8 a b) c ∧
    (a ≠ 0 → ∃ x, gmul8 a x = 0x01 ∧ inv8 a = x ∧ ∀ y, gmul8 a y = 0x01 → y = x) ∧
    inv8 0x00 = 0x00

/-- Rules R64 and R65: the S-box table is the affine map of the field inverse and has no fixed point, and the
inverse S-box undoes it and is undone by it. -/
def Obligations.SboxTablesAreTheirDefinitions : Prop :=
  ∀ a b : Byte, b = inv8 a →
    sbox a = b ^^^ b.rotateLeft 1 ^^^ b.rotateLeft 2 ^^^ b.rotateLeft 3 ^^^ b.rotateLeft 4 ^^^ 0x63 ∧
      sbox a ≠ a ∧ invSbox (sbox a) = a ∧ sbox (invSbox a) = a

/-- Rule R66: the round constants, by repeated doubling from 1. -/
def Obligations.RoundConstants : Prop :=
  rcon 1 = 0x01 ∧ (∀ j, 1 ≤ j → rcon (j + 1) = xtime (rcon j)) ∧
    (List.range 10).map (fun j => rcon (j + 1)) =
      [0x01, 0x02, 0x04, 0x08, 0x10, 0x20, 0x40, 0x80, 0x1b, 0x36]

/-- Rule R69: `bit(X, i)` is bit `7 - (i mod 8)` of byte `i div 8`, and a block is its 128 bits. -/
def Obligations.BlockBitNumbering : Prop :=
  ∀ x : Bytes, x.length = 16 →
    (∀ i, i < 128 → (blockBits x).getMsbD i = (x.getD (i / 8) 0).getLsbD (7 - i % 8)) ∧
    bitsBlock (blockBits x) = x

/-- Rule R72: the laws of `gf128_mul`, for all blocks. -/
def Obligations.BlockFieldLaws : Prop :=
  ∀ x y w : Bytes, x.length = 16 → y.length = 16 → w.length = 16 →
    gf128Mul x y = gf128Mul y x ∧ gf128Mul x (0x80 :: zeros 15) = x ∧
    gf128Mul x (zeros 16) = zeros 16 ∧
    gf128Mul (xorBytes x w) y = xorBytes (gf128Mul x y) (gf128Mul w y) ∧
    gf128Mul (gf128Mul x y) w = gf128Mul x (gf128Mul y w)

/-! ## The key schedule and the block transform -/

/-- Rules R75 to R78: the schedule of a legal key begins with the key, has `4 * (Nr + 1)` words, and every
later word is the word `Nk` back XORed with the previous word, transformed at a boundary and, for
`Nk = 8`, substituted in the middle. -/
def Obligations.KeyScheduleRecurrence : Prop :=
  ∀ k : Bytes, KeyLength k →
    (expandKey k).length = 16 * (k.length / 4 + 7) ∧ (expandKey k).take k.length = k ∧
    ∀ i, k.length / 4 ≤ i → i < 4 * (k.length / 4 + 7) →
      wordAt (expandKey k) i =
        xorBytes (wordAt (expandKey k) (i - k.length / 4))
          (if i % (k.length / 4) = 0 then
            xorBytes (subWord (rotWord (wordAt (expandKey k) (i - 1)))) [rcon (i / (k.length / 4)), 0, 0, 0]
          else if k.length / 4 = 8 ∧ i % 8 = 4 then subWord (wordAt (expandKey k) (i - 1))
          else wordAt (expandKey k) (i - 1))

/-- Rules R86 to R89, R91 and R92: the stages of a round as formulas over the flat block, and each undone by
its inverse. -/
def Obligations.RoundStages : Prop :=
  ∀ s k : Bytes, s.length = 16 → k.length = 16 →
    (∀ i, i < 16 →
      (subBytes s)[i]? = some (sbox (s.getD i 0)) ∧ (invSubBytes s)[i]? = some (invSbox (s.getD i 0)) ∧
      (shiftRows s)[i]? = some (s.getD ((i + 4 * (i % 4)) % 16) 0) ∧
      (invShiftRows s)[(i + 4 * (i % 4)) % 16]? = some (s.getD i 0) ∧
      (addRoundKey s k)[i]? = some (s.getD i 0 ^^^ k.getD i 0)) ∧
    (∀ c r, c < 4 → r < 4 →
      (mixColumns s)[4 * c + r]? =
        some (gmul8 0x02 (s.getD (4 * c + r) 0) ^^^ gmul8 0x03 (s.getD (4 * c + (r + 1) % 4) 0) ^^^
          s.getD (4 * c + (r + 2) % 4) 0 ^^^ s.getD (4 * c + (r + 3) % 4) 0)) ∧
    invSubBytes (subBytes s) = s ∧ invShiftRows (shiftRows s) = s ∧ invMixColumns (mixColumns s) = s ∧
    addRoundKey (addRoundKey s k) k = s

/-- Rule R95: for every block and every schedule of a legal length, whether or not it came from a key,
decryption and encryption undo each other. -/
def Obligations.BlockTransformsAreInverse : Prop :=
  ∀ b sch : Bytes, b.length = 16 → ScheduleLength sch →
    decryptBlock (encryptBlock b sch) sch = b ∧ encryptBlock (decryptBlock b sch) sch = b

/-- The inverse law at the level of commands (rule R98): `ENCB`, then `DECB` with `SRC` set to the `DST` of
the first and the schedule still in memory, returns the first block. -/
def Obligations.DecbUndoesEncb : Prop :=
  ∀ (s t : State) (d : Word), s.mem.wf → exec .encb s = .next t → t.err = 0 →
    (∀ k, k < s.klen.toNat → Outside (s.keyp.toNat + k) s.dst.toNat 16) → s.rangeValid d.toNat 16 →
    ∃ u, exec .decb { t with src := s.dst, dst := d } = .next u ∧ u.err = 0 ∧
      ∀ k, k < 16 → u.byteAt (d.toNat + k) = s.byteAt (s.src.toNat + k)

/-! ## Padding -/

/-- Rules R105 and R106: the padded block has 16 bytes, begins with the data, and is the data when that has
16 bytes; each padding byte is the scheme's fill value; padding a padded block changes nothing. -/
def Obligations.PaddingFillsTheTail : Prop :=
  ∀ (d : Bytes) (sc : Scheme), d.length ≤ 16 →
    (padBlock d sc).length = 16 ∧ (padBlock d sc).take d.length = d ∧
    (d.length = 16 → padBlock d sc = d) ∧
    (∀ k, d.length ≤ k → k < 16 →
      (padBlock d sc)[k]? = some
        (match sc with
        | .pkcs7 => BitVec.ofNat 8 (16 - d.length)
        | .iso7816 => if k = d.length then 0x80 else 0x00
        | .whitespace => 0x20
        | .zero => 0x00)) ∧
    ∀ sc', padBlock (padBlock d sc) sc' = padBlock d sc

/-! ## The modes -/

/-- Rule R116: each block is transformed on its own with the same key; so equal blocks give equal blocks. -/
def Obligations.EcbBlocksAreIndependent : Prop :=
  ∀ d k : Bytes, KeyLength k → d.length % 16 = 0 →
    (ecbEncrypt d k).length = d.length ∧
    (∀ j, j < d.length / 16 → blockAt (ecbEncrypt d k) j = encryptBlock (blockAt d j) (expandKey k)) ∧
    ∀ j j', j < d.length / 16 → j' < d.length / 16 → blockAt d j = blockAt d j' →
      blockAt (ecbEncrypt d k) j = blockAt (ecbEncrypt d k) j'

/-- Rule R117: ECB decryption transforms each block on its own with the inverse, and decryption and
encryption undo each other. -/
def Obligations.EcbRoundTrip : Prop :=
  ∀ d k : Bytes, KeyLength k → d.length % 16 = 0 →
    (∀ j, j < d.length / 16 → blockAt (ecbDecrypt d k) j = decryptBlock (blockAt d j) (expandKey k)) ∧
    ecbDecrypt (ecbEncrypt d k) k = d ∧ ecbEncrypt (ecbDecrypt d k) k = d

/-- Rules R121 and R122: the chaining of CBC, block by block, in both directions. -/
def Obligations.CbcChaining : Prop :=
  ∀ d k iv : Bytes, KeyLength k → iv.length = 16 → d.length % 16 = 0 →
    (cbcEncrypt d k iv).length = d.length ∧ (cbcDecrypt d k iv).length = d.length ∧
    ∀ j, j < d.length / 16 →
      blockAt (cbcEncrypt d k iv) j =
        encryptBlock (xorBytes (blockAt d j) (if j = 0 then iv else blockAt (cbcEncrypt d k iv) (j - 1)))
          (expandKey k) ∧
      blockAt (cbcDecrypt d k iv) j =
        xorBytes (decryptBlock (blockAt d j) (expandKey k)) (if j = 0 then iv else blockAt d (j - 1))

/-- Rule R123: CBC decryption undoes encryption; a wrong IV changes only the first block; a changed
ciphertext block `j` changes only the plaintext blocks `j` and `j + 1`. -/
def Obligations.CbcRoundTripAndLocality : Prop :=
  ∀ d k iv : Bytes, KeyLength k → iv.length = 16 → d.length % 16 = 0 →
    cbcDecrypt (cbcEncrypt d k iv) k iv = d ∧
    (∀ iv' : Bytes, iv'.length = 16 → (cbcDecrypt d k iv').drop 16 = (cbcDecrypt d k iv).drop 16) ∧
    ∀ (d' : Bytes) (j : Nat), d'.length = d.length →
      (∀ i, Outside i (16 * j) 16 → d'[i]? = d[i]?) →
      ∀ i, Outside i (16 * j) 32 → (cbcDecrypt d' k iv)[i]? = (cbcDecrypt d k iv)[i]?

/-- Rule R132: the counter increment is the byte form with its carry through all 16 bytes, is addition of
one modulo `2^128`, and wraps from all ones to zero. -/
def Obligations.CounterIncrement : Prop :=
  (∀ c : Bytes, c.length = 16 →
    inc128 c = (incReversed c.reverse).reverse ∧ be (inc128 c) = (be c + 1) % 2 ^ 128 ∧
      (inc128 c).length = 16) ∧
  inc128 (rep 0xff 16) = zeros 16

/-- Rule R133: output byte `i` of CTR is input byte `i` XORed with byte `i mod 16` of the encryption of the
counter `IV + i div 16` modulo `2^128`; the length stays. -/
def Obligations.CtrKeystream : Prop :=
  ∀ d k iv : Bytes, KeyLength k → iv.length = 16 →
    (ctrXcrypt d k iv).length = d.length ∧
    ∀ i, i < d.length →
      (ctrXcrypt d k iv).getD i 0 =
        d.getD i 0 ^^^
          (encryptBlock (bytesBe ((be iv + i / 16) % 2 ^ 128) 16) (expandKey k)).getD (i % 16) 0

/-- Rule R134: CTR is its own inverse for data of any length; `CTRE` and `CTRD` are one operation; an output
byte depends on no input byte but its own. -/
def Obligations.CtrIsItsOwnInverse : Prop :=
  (∀ d k iv : Bytes, KeyLength k → iv.length = 16 → ctrXcrypt (ctrXcrypt d k iv) k iv = d) ∧
  (∀ (d d' k iv : Bytes) (i : Nat), KeyLength k → iv.length = 16 → i < d.length → i < d'.length →
    d'.getD i 0 = d.getD i 0 → (ctrXcrypt d' k iv).getD i 0 = (ctrXcrypt d k iv).getD i 0) ∧
  ∀ s : State, exec .ctre s = exec .ctrd s

/-! ## GCM -/

/-- Rule R142: the length block holds the two bit lengths, each below `2^35`, in 64-bit halves. -/
def Obligations.LengthBlock : Prop :=
  ∀ a c : Bytes, a.length < 2 ^ 32 → c.length < 2 ^ 32 →
    (lenblock a c).length = 16 ∧ be ((lenblock a c).take 8) = 8 * a.length ∧
    be ((lenblock a c).drop 8) = 8 * c.length ∧
    (lenblock a c).take 3 = zeros 3 ∧ ((lenblock a c).drop 8).take 3 = zeros 3

/-- Rules R145 to R147 (and R148): the GCM counters of a 12-byte nonce count from the nonce and a 32-bit 1;
within the lengths of the engine no carry reaches the nonce; each counter is the increment of the one
before; and the data is XORed with the encryptions of the counters from `counter_1` on, so never with that
of `counter_0`. -/
def Obligations.GcmCountersStayInLowWord : Prop :=
  (∀ (n : Bytes) (k : Nat), n.length = 12 → k ≤ 2 ^ 28 →
    gcmCounter n k = n ++ bytesBe (1 + k) 4) ∧
  (∀ (n : Bytes) (k : Nat), n.length = 12 →
    gcmCounter n 0 = n ++ [0x00, 0x00, 0x00, 0x01] ∧ inc128 (gcmCounter n k) = gcmCounter n (k + 1) ∧
    be (gcmCounter n k) = (be (n ++ [0x00, 0x00, 0x00, 0x01]) + k) % 2 ^ 128) ∧
  ∀ d k n : Bytes, KeyLength k → n.length = 12 →
    gcmCtr d k n = ctrXcrypt d k (inc128 (n ++ [0x00, 0x00, 0x00, 0x01])) ∧
    (gcmCtr d k n).length = d.length ∧
    ∀ i, i < d.length →
      (gcmCtr d k n).getD i 0 =
        d.getD i 0 ^^^ (encryptBlock (gcmCounter n (1 + i / 16)) (expandKey k)).getD (i % 16) 0

/-- Rules R143 and R150: GHASH of nothing is zero, and with no data and no associated data the tag is the
encryption of the initial counter. -/
def Obligations.EmptyMessageTag : Prop :=
  ∀ k n : Bytes, KeyLength k → n.length = 12 →
    (∀ h : Bytes, ghash h [] = zeros 16) ∧
    gcmEncryptAndTag [] k n [] = ([], encryptBlock (initialCounter n) (expandKey k))

/-- Part of rule R153: GCM decryption of an encryption returns the plaintext, and any other tag than the
right one, so any tag with a flipped bit, is refused. -/
def Obligations.GcmRoundTripAndTagCheck : Prop :=
  ∀ p k n a : Bytes, KeyLength k → n.length = 12 →
    gcmDecryptAndVerify (gcmEncryptAndTag p k n a).1 k (gcmEncryptAndTag p k n a).2 n a = some p ∧
    ∀ c tag : Bytes, tag ≠ gcmTag k n a c → gcmDecryptAndVerify c k tag n a = none

/-- The ciphertext part of rule R153: flipping one bit of one byte of the ciphertext changes the tag, so the
decryption with the old tag is refused, whenever the hash subkey is not zero. -/
def Obligations.CiphertextBitFlipIsDetected : Prop :=
  ∀ (c k n a : Bytes) (i b : Nat), KeyLength k → n.length = 12 →
    hashSubkey (expandKey k) ≠ zeros 16 → i < c.length → b < 8 →
    gcmTag k n a (c.set i (c.getD i 0 ^^^ ((0x01 : Byte) <<< b))) ≠ gcmTag k n a c ∧
      gcmDecryptAndVerify (c.set i (c.getD i 0 ^^^ ((0x01 : Byte) <<< b))) k (gcmTag k n a c) n a = none

/-! ## Isolation -/

/-- Rules R13 and R186: the outcome of a command depends only on the command, the registers it reads, the
bytes its input ranges name, and the size of memory: two states that agree there give the same status,
the same `RLEN` and, on success, the same bytes in the output ranges, whatever the rest of memory, the
other registers, the earlier commands and the earlier resets were. -/
def Obligations.CommandDependsOnItsOperandsOnly : Prop :=
  ∀ (i : Instr) (s s' t t' : State), s.mem.wf → s'.mem.wf → s'.memBytes = s.memBytes →
    (∀ r ∈ readRegs i, s'.reg r = s.reg r) →
    (∀ r ∈ inputRanges i s, ∀ k, k < r.2 → s'.byteAt (r.1 + k) = s.byteAt (r.1 + k)) →
    exec i s = .next t → exec i s' = .next t' →
    t'.status = t.status ∧ t'.rlen = t.rlen ∧
    (t.err = 0 → ∀ r ∈ outputRanges i s, ∀ k, k < r.2 → t'.byteAt (r.1 + k) = t.byteAt (r.1 + k))

/-- Rule R37: all reads come before all writes, so the output of a command is the same bytes wherever it
is put, over its own input or not. -/
def Obligations.OutputDoesNotDependOnItsPlace : Prop :=
  ∀ (i : Instr) (s t t' : State) (d : Word), s.mem.wf →
    exec i s = .next t → exec i { s with dst := d } = .next t' → t.err = 0 → t'.err = 0 →
    t'.rlen = t.rlen ∧
    ∀ k, k < t.rlen.toNat → t'.byteAt (d.toNat + k) = t.byteAt (s.dst.toNat + k)

/-- Rule R183: engines of one platform are independent copies: a step of engine `j` is that engine's own step,
put in its place, and leaves every other engine as it is; and steps of two different engines give the same
platform in either order. -/
def Obligations.EnginesAreIndependent : Prop :=
  (∀ (j : Nat) (es : List State) (s : State), es[j]? = some s →
    (∀ t, step s = .next t →
      ∃ es1, stepInstance j es = .next es1 ∧ es1 = es.set j t ∧ es1[j]? = some t ∧
        ∀ m, m ≠ j → es1[m]? = es[m]?) ∧
    ∀ r, step s = .refused r → stepInstance j es = .refused r) ∧
  ∀ (j k : Nat) (es es1 es2 : List State), j ≠ k →
    stepInstance j es = .next es1 → stepInstance k es1 = .next es2 →
    (∀ m, m ≠ j → es1[m]? = es[m]?) ∧
    ∃ es1', stepInstance k es = .next es1' ∧ stepInstance j es1' = .next es2

/-- Rule R179: a fault record kept beside the engine is sticky: it is never cleared, and while it is clear
the last step left no error code. -/
def Obligations.FaultRecordIsSticky : Prop :=
  ∀ m m' : Monitor, m.step = .next m' →
    (m.faulted = true → m'.faulted = true) ∧ (m'.faulted = false → m'.engine.noError) ∧
    step m.engine = .next m'.engine

/-! ## The tag and the rounds, through their parts -/

/-- Rules R141, R143, R144 and R149, and the modulus of rules R70 and R71. The product with the block `40 00..00`
is one step of `V`: each byte is shifted right, takes the low bit of the byte before as its top bit, and
`e1` goes into byte 0 when the last bit fell out. GHASH folds one block by XOR and multiplication by `H`.
The zero padding ends at a block boundary and adds less than a block. The tag is the GHASH of the padded
associated data, the padded ciphertext and the length block, XORed with the encrypted initial counter; and
encryption computes it over the ciphertext. -/
def Obligations.GhashAndTag : Prop :=
  (∀ v : Bytes, v.length = 16 →
    (gf128Mul (0x40 :: zeros 15) v).length = 16 ∧
    ∀ j, j < 16 →
      (gf128Mul (0x40 :: zeros 15) v).getD j 0 =
        (v.getD j 0 >>> 1) ^^^
          (if j = 0 then bif (v.getD 15 0).getLsbD 0 then 0xe1 else 0x00
          else v.getD (j - 1) 0 <<< 7 : Byte)) ∧
  (∀ h x b : Bytes, x.length % 16 = 0 → b.length = 16 →
    ghash h [] = zeros 16 ∧ ghash h (x ++ b) = gf128Mul (xorBytes (ghash h x) b) h) ∧
  (∀ b : Bytes, (pad16 b).length % 16 = 0 ∧ (pad16 b).length < b.length + 16 ∧
    pad16 b = b ++ zeros ((pad16 b).length - b.length)) ∧
  ∀ k n a c : Bytes, KeyLength k → n.length = 12 →
    hashSubkey (expandKey k) = encryptBlock (zeros 16) (expandKey k) ∧
    (gcmTag k n a c).length = 16 ∧
    gcmTag k n a c =
      xorBytes (ghash (encryptBlock (zeros 16) (expandKey k)) (pad16 a ++ pad16 c ++ lenblock a c))
        (encryptBlock (n ++ [0x00, 0x00, 0x00, 0x01]) (expandKey k)) ∧
    gcmEncryptAndTag c k n a = (gcmCtr c k n, gcmTag k n a (gcmCtr c k n))

/-- Rules R90 and R94: the block functions are their rounds, in order, over the round keys of the schedule: key
0, then rounds 1 to `Nr - 1` with column mixing, then the last round without; decryption backwards. -/
def Obligations.BlockFunctionsAreTheirRounds : Prop :=
  ∀ b sch : Bytes, b.length = 16 → ScheduleLength sch →
    encryptBlock b sch =
      addRoundKey
        (shiftRows (subBytes
          ((List.range' 1 (sch.length / 16 - 2)).foldl
            (fun s r => addRoundKey (mixColumns (shiftRows (subBytes s))) (blockAt sch r))
            (addRoundKey b (blockAt sch 0)))))
        (blockAt sch (sch.length / 16 - 1)) ∧
    decryptBlock b sch =
      addRoundKey
        ((List.range' 1 (sch.length / 16 - 2)).foldr
          (fun r s => invSubBytes (invShiftRows (invMixColumns (addRoundKey s (blockAt sch r)))))
          (invSubBytes (invShiftRows (addRoundKey b (blockAt sch (sch.length / 16 - 1))))))
        (blockAt sch 0)
end

