-- ==== Sys2Proof/Laws/Bytes.lean ====
section
/-! SUPPORT. Lemmas about byte sequences and the integers they spell. -/

namespace Sys2Proof.Machine

/-! ## `xor` -/

@[simp] theorem xorBytes_length (a b : Bytes) : (xorBytes a b).length = min a.length b.length := by
  simp [xorBytes]

/-- XOR with the same bytes twice gives the first operand back. -/
theorem xorBytes_cancel (a b : Bytes) (h : a.length ≤ b.length) : xorBytes (xorBytes a b) b = a := by
  induction a generalizing b with
  | nil => simp [xorBytes]
  | cons x a ih =>
    cases b with
    | nil => simp at h
    | cons y b =>
      have h' : a.length ≤ b.length := by simpa using h
      have := ih b h'
      simp only [xorBytes, List.zipWith_cons_cons, List.cons.injEq] at this ⊢
      exact ⟨by rw [BitVec.xor_assoc, BitVec.xor_self, BitVec.xor_zero], this⟩

/-! ## Fixed bytes -/

@[simp] theorem rep_length (v : Byte) (n : Nat) : (rep v n).length = n := by simp [rep]

@[simp] theorem zeros_length (n : Nat) : (zeros n).length = n := by simp [zeros]

/-! ## Integers -/

@[simp] theorem bytesBe_length (v n : Nat) : (bytesBe v n).length = n := by
  induction n generalizing v with
  | zero => rfl
  | succ n ih => simp [bytesBe, ih]

@[simp] theorem be_nil : be [] = 0 := rfl

theorem be_concat (b : Bytes) (x : Byte) : be (b ++ [x]) = be b * 256 + x.toNat := by
  simp [be]

theorem be_lt (b : Bytes) : be b < 256 ^ b.length := by
  induction b using List.reverseRecOn with
  | nil => simp
  | append_singleton b x ih =>
    have := x.isLt
    rw [be_concat, List.length_append, List.length_singleton, Nat.pow_succ]
    omega

/-- `be` of `bytes_be`: the integer, modulo the field's range. -/
theorem be_bytesBe (v n : Nat) : be (bytesBe v n) = v % 256 ^ n := by
  induction n generalizing v with
  | zero => simp [bytesBe, Nat.mod_one]
  | succ n ih =>
    have h : v % 256 ^ (n + 1) = v % 256 + 256 * (v / 256 % 256 ^ n) := by
      rw [Nat.pow_succ, Nat.mul_comm, Nat.mod_mul]
    rw [bytesBe, be_concat, ih, BitVec.toNat_ofNat, h]
    omega

/-- `bytes_be` of `be`: the bytes back. -/
theorem bytesBe_be (b : Bytes) : bytesBe (be b) b.length = b := by
  induction b using List.reverseRecOn with
  | nil => rfl
  | append_singleton b x ih =>
    have hx := x.isLt
    rw [List.length_append, List.length_singleton, bytesBe, be_concat]
    have h1 : (be b * 256 + x.toNat) / 256 = be b := by omega
    have h2 : BitVec.ofNat 8 (be b * 256 + x.toNat) = x := by
      apply BitVec.eq_of_toNat_eq
      rw [BitVec.toNat_ofNat]
      omega
    rw [h1, h2, ih]

/-! ## Pieces -/

@[simp] theorem pieces_length (n k : Nat) (b : Bytes) : (pieces n k b).length = k := by
  induction k generalizing b with
  | zero => rfl
  | succ k ih => simp [pieces, ih]

/-- The pieces are a partition of bytes that fit in them. -/
theorem pieces_flatten (n k : Nat) (b : Bytes) (h : b.length ≤ n * k) : (pieces n k b).flatten = b := by
  induction k generalizing b with
  | zero =>
    have : b = [] := List.eq_nil_of_length_eq_zero (by simpa using h)
    simp [pieces, this]
  | succ k ih =>
    have h' : (b.drop n).length ≤ n * k := by
      rw [List.length_drop]
      rw [Nat.mul_succ] at h
      omega
    simp [pieces, ih _ h', List.take_append_drop]

/-- Every piece has `n` bytes when the bytes suffice. -/
theorem pieces_all_length (n k : Nat) (b : Bytes) (h : n * k ≤ b.length) :
    ∀ p ∈ pieces n k b, p.length = n := by
  induction k generalizing b with
  | zero => simp [pieces]
  | succ k ih =>
    rw [Nat.mul_succ] at h
    intro p hp
    simp only [pieces, List.mem_cons] at hp
    rcases hp with rfl | hp
    · rw [List.length_take]; omega
    · exact ih _ (by rw [List.length_drop]; omega) p hp

/-- Every piece has at most `n` bytes. -/
theorem pieces_all_le (n k : Nat) (b : Bytes) : ∀ p ∈ pieces n k b, p.length ≤ n := by
  induction k generalizing b with
  | zero => simp [pieces]
  | succ k ih =>
    intro p hp
    simp only [pieces, List.mem_cons] at hp
    rcases hp with rfl | hp
    · rw [List.length_take]; omega
    · exact ih _ p hp

end Sys2Proof.Machine
end

