-- ==== Sys2Proof/Laws/State.lean ====
section
/-! SUPPORT. One lemma per field per update of the state, true by definition, so that no proof unfolds a
record update. -/

namespace Sys2Proof.Machine

/-! ## `memWrite` changes the memory alone -/

@[simp] theorem State.memWrite_cmd (s : State) (a : Nat) (v : Bytes) : (s.memWrite a v).cmd = s.cmd := rfl
@[simp] theorem State.memWrite_status (s : State) (a : Nat) (v : Bytes) : (s.memWrite a v).status = s.status := rfl
@[simp] theorem State.memWrite_rlen (s : State) (a : Nat) (v : Bytes) : (s.memWrite a v).rlen = s.rlen := rfl
@[simp] theorem State.memWrite_src (s : State) (a : Nat) (v : Bytes) : (s.memWrite a v).src = s.src := rfl
@[simp] theorem State.memWrite_slen (s : State) (a : Nat) (v : Bytes) : (s.memWrite a v).slen = s.slen := rfl
@[simp] theorem State.memWrite_dst (s : State) (a : Nat) (v : Bytes) : (s.memWrite a v).dst = s.dst := rfl
@[simp] theorem State.memWrite_keyp (s : State) (a : Nat) (v : Bytes) : (s.memWrite a v).keyp = s.keyp := rfl
@[simp] theorem State.memWrite_klen (s : State) (a : Nat) (v : Bytes) : (s.memWrite a v).klen = s.klen := rfl
@[simp] theorem State.memWrite_ivp (s : State) (a : Nat) (v : Bytes) : (s.memWrite a v).ivp = s.ivp := rfl
@[simp] theorem State.memWrite_ivlen (s : State) (a : Nat) (v : Bytes) : (s.memWrite a v).ivlen = s.ivlen := rfl
@[simp] theorem State.memWrite_aadp (s : State) (a : Nat) (v : Bytes) : (s.memWrite a v).aadp = s.aadp := rfl
@[simp] theorem State.memWrite_aadlen (s : State) (a : Nat) (v : Bytes) : (s.memWrite a v).aadlen = s.aadlen := rfl
@[simp] theorem State.memWrite_tagp (s : State) (a : Nat) (v : Bytes) : (s.memWrite a v).tagp = s.tagp := rfl
@[simp] theorem State.memWrite_mem (s : State) (a : Nat) (v : Bytes) : (s.memWrite a v).mem = s.mem.putAll a v := rfl
@[simp] theorem State.memWrite_memBytes (s : State) (a : Nat) (v : Bytes) : (s.memWrite a v).memBytes = s.memBytes := rfl
@[simp] theorem State.memWrite_memEpoch (s : State) (a : Nat) (v : Bytes) : (s.memWrite a v).memEpoch = s.memEpoch := rfl
@[simp] theorem State.memWrite_pending (s : State) (a : Nat) (v : Bytes) : (s.memWrite a v).pending = s.pending := rfl
@[simp] theorem State.memWrite_response (s : State) (a : Nat) (v : Bytes) : (s.memWrite a v).response = s.response := rfl

/-! ## `raise` changes `STATUS` and `RLEN` alone -/

@[simp] theorem State.raise_cmd (s : State) (f : ErrorCode) : (s.raise f).cmd = s.cmd := rfl
@[simp] theorem State.raise_status (s : State) (f : ErrorCode) : (s.raise f).status = statusFault f := rfl
@[simp] theorem State.raise_rlen (s : State) (f : ErrorCode) : (s.raise f).rlen = 0 := rfl
@[simp] theorem State.raise_src (s : State) (f : ErrorCode) : (s.raise f).src = s.src := rfl
@[simp] theorem State.raise_slen (s : State) (f : ErrorCode) : (s.raise f).slen = s.slen := rfl
@[simp] theorem State.raise_dst (s : State) (f : ErrorCode) : (s.raise f).dst = s.dst := rfl
@[simp] theorem State.raise_keyp (s : State) (f : ErrorCode) : (s.raise f).keyp = s.keyp := rfl
@[simp] theorem State.raise_klen (s : State) (f : ErrorCode) : (s.raise f).klen = s.klen := rfl
@[simp] theorem State.raise_ivp (s : State) (f : ErrorCode) : (s.raise f).ivp = s.ivp := rfl
@[simp] theorem State.raise_ivlen (s : State) (f : ErrorCode) : (s.raise f).ivlen = s.ivlen := rfl
@[simp] theorem State.raise_aadp (s : State) (f : ErrorCode) : (s.raise f).aadp = s.aadp := rfl
@[simp] theorem State.raise_aadlen (s : State) (f : ErrorCode) : (s.raise f).aadlen = s.aadlen := rfl
@[simp] theorem State.raise_tagp (s : State) (f : ErrorCode) : (s.raise f).tagp = s.tagp := rfl
@[simp] theorem State.raise_mem (s : State) (f : ErrorCode) : (s.raise f).mem = s.mem := rfl
@[simp] theorem State.raise_memBytes (s : State) (f : ErrorCode) : (s.raise f).memBytes = s.memBytes := rfl
@[simp] theorem State.raise_memEpoch (s : State) (f : ErrorCode) : (s.raise f).memEpoch = s.memEpoch := rfl
@[simp] theorem State.raise_pending (s : State) (f : ErrorCode) : (s.raise f).pending = s.pending := rfl
@[simp] theorem State.raise_response (s : State) (f : ErrorCode) : (s.raise f).response = s.response := rfl

/-! ## `succeed` changes `STATUS` and `RLEN` alone -/

@[simp] theorem State.succeed_cmd (s : State) (n : Word) : (s.succeed n).cmd = s.cmd := rfl
@[simp] theorem State.succeed_status (s : State) (n : Word) : (s.succeed n).status = statusSuccess := rfl
@[simp] theorem State.succeed_rlen (s : State) (n : Word) : (s.succeed n).rlen = n := rfl
@[simp] theorem State.succeed_src (s : State) (n : Word) : (s.succeed n).src = s.src := rfl
@[simp] theorem State.succeed_slen (s : State) (n : Word) : (s.succeed n).slen = s.slen := rfl
@[simp] theorem State.succeed_dst (s : State) (n : Word) : (s.succeed n).dst = s.dst := rfl
@[simp] theorem State.succeed_keyp (s : State) (n : Word) : (s.succeed n).keyp = s.keyp := rfl
@[simp] theorem State.succeed_klen (s : State) (n : Word) : (s.succeed n).klen = s.klen := rfl
@[simp] theorem State.succeed_ivp (s : State) (n : Word) : (s.succeed n).ivp = s.ivp := rfl
@[simp] theorem State.succeed_ivlen (s : State) (n : Word) : (s.succeed n).ivlen = s.ivlen := rfl
@[simp] theorem State.succeed_aadp (s : State) (n : Word) : (s.succeed n).aadp = s.aadp := rfl
@[simp] theorem State.succeed_aadlen (s : State) (n : Word) : (s.succeed n).aadlen = s.aadlen := rfl
@[simp] theorem State.succeed_tagp (s : State) (n : Word) : (s.succeed n).tagp = s.tagp := rfl
@[simp] theorem State.succeed_mem (s : State) (n : Word) : (s.succeed n).mem = s.mem := rfl
@[simp] theorem State.succeed_memBytes (s : State) (n : Word) : (s.succeed n).memBytes = s.memBytes := rfl
@[simp] theorem State.succeed_memEpoch (s : State) (n : Word) : (s.succeed n).memEpoch = s.memEpoch := rfl
@[simp] theorem State.succeed_pending (s : State) (n : Word) : (s.succeed n).pending = s.pending := rfl
@[simp] theorem State.succeed_response (s : State) (n : Word) : (s.succeed n).response = s.response := rfl

/-! ## `accept` changes `CMD` and the response alone -/

@[simp] theorem State.accept_cmd (s : State) (w : Word) : (s.accept w).cmd = w := rfl
@[simp] theorem State.accept_status (s : State) (w : Word) : (s.accept w).status = s.status := rfl
@[simp] theorem State.accept_rlen (s : State) (w : Word) : (s.accept w).rlen = s.rlen := rfl
@[simp] theorem State.accept_src (s : State) (w : Word) : (s.accept w).src = s.src := rfl
@[simp] theorem State.accept_slen (s : State) (w : Word) : (s.accept w).slen = s.slen := rfl
@[simp] theorem State.accept_dst (s : State) (w : Word) : (s.accept w).dst = s.dst := rfl
@[simp] theorem State.accept_keyp (s : State) (w : Word) : (s.accept w).keyp = s.keyp := rfl
@[simp] theorem State.accept_klen (s : State) (w : Word) : (s.accept w).klen = s.klen := rfl
@[simp] theorem State.accept_ivp (s : State) (w : Word) : (s.accept w).ivp = s.ivp := rfl
@[simp] theorem State.accept_ivlen (s : State) (w : Word) : (s.accept w).ivlen = s.ivlen := rfl
@[simp] theorem State.accept_aadp (s : State) (w : Word) : (s.accept w).aadp = s.aadp := rfl
@[simp] theorem State.accept_aadlen (s : State) (w : Word) : (s.accept w).aadlen = s.aadlen := rfl
@[simp] theorem State.accept_tagp (s : State) (w : Word) : (s.accept w).tagp = s.tagp := rfl
@[simp] theorem State.accept_mem (s : State) (w : Word) : (s.accept w).mem = s.mem := rfl
@[simp] theorem State.accept_memBytes (s : State) (w : Word) : (s.accept w).memBytes = s.memBytes := rfl
@[simp] theorem State.accept_memEpoch (s : State) (w : Word) : (s.accept w).memEpoch = s.memEpoch := rfl
@[simp] theorem State.accept_pending (s : State) (w : Word) : (s.accept w).pending = s.pending := rfl
@[simp] theorem State.accept_response (s : State) (w : Word) : (s.accept w).response = .done := rfl

/-! ## `setReg` changes one register alone -/

@[simp] theorem State.setReg_status (s : State) (r : Reg) (v : Word) : (s.setReg r v).status = s.status := by cases r <;> rfl
@[simp] theorem State.setReg_rlen (s : State) (r : Reg) (v : Word) : (s.setReg r v).rlen = s.rlen := by cases r <;> rfl
@[simp] theorem State.setReg_mem (s : State) (r : Reg) (v : Word) : (s.setReg r v).mem = s.mem := by cases r <;> rfl
@[simp] theorem State.setReg_memBytes (s : State) (r : Reg) (v : Word) : (s.setReg r v).memBytes = s.memBytes := by cases r <;> rfl
@[simp] theorem State.setReg_memEpoch (s : State) (r : Reg) (v : Word) : (s.setReg r v).memEpoch = s.memEpoch := by cases r <;> rfl
@[simp] theorem State.setReg_pending (s : State) (r : Reg) (v : Word) : (s.setReg r v).pending = s.pending := by cases r <;> rfl
@[simp] theorem State.setReg_response (s : State) (r : Reg) (v : Word) : (s.setReg r v).response = s.response := by cases r <;> rfl

/-- A write of one register leaves the others. -/
theorem State.setReg_reg_other (s : State) {r q : Reg} (v : Word) (h : q ≠ r) :
    (s.setReg r v).reg q = s.reg q := by
  cases r <;> cases q <;> first | rfl | exact absurd rfl h

/-! ## `resetEngine` -/

@[simp] theorem State.resetEngine_cmd (s : State) : s.resetEngine.cmd = 0 := rfl
@[simp] theorem State.resetEngine_status (s : State) : s.resetEngine.status = 0 := rfl
@[simp] theorem State.resetEngine_rlen (s : State) : s.resetEngine.rlen = 0 := rfl
@[simp] theorem State.resetEngine_src (s : State) : s.resetEngine.src = 0 := rfl
@[simp] theorem State.resetEngine_slen (s : State) : s.resetEngine.slen = 0 := rfl
@[simp] theorem State.resetEngine_dst (s : State) : s.resetEngine.dst = 0 := rfl
@[simp] theorem State.resetEngine_keyp (s : State) : s.resetEngine.keyp = 0 := rfl
@[simp] theorem State.resetEngine_klen (s : State) : s.resetEngine.klen = 0 := rfl
@[simp] theorem State.resetEngine_ivp (s : State) : s.resetEngine.ivp = 0 := rfl
@[simp] theorem State.resetEngine_ivlen (s : State) : s.resetEngine.ivlen = 0 := rfl
@[simp] theorem State.resetEngine_aadp (s : State) : s.resetEngine.aadp = 0 := rfl
@[simp] theorem State.resetEngine_aadlen (s : State) : s.resetEngine.aadlen = 0 := rfl
@[simp] theorem State.resetEngine_tagp (s : State) : s.resetEngine.tagp = 0 := rfl
@[simp] theorem State.resetEngine_mem (s : State) : s.resetEngine.mem = [] := rfl
@[simp] theorem State.resetEngine_memBytes (s : State) : s.resetEngine.memBytes = s.memBytes := rfl
@[simp] theorem State.resetEngine_memEpoch (s : State) : s.resetEngine.memEpoch = s.memEpoch + 1 := rfl
@[simp] theorem State.resetEngine_pending (s : State) : s.resetEngine.pending = s.pending := rfl
@[simp] theorem State.resetEngine_response (s : State) : s.resetEngine.response = .none := rfl

end Sys2Proof.Machine
end

