-- ==== Sys2Proof/Laws/Flags.lean ====
section
/-! SUPPORT. What the fields of `STATUS` are after a command (rules R17, R57, R176). -/

namespace Sys2Proof.Machine

/-- The fields of the `STATUS` word of a fault. -/
theorem statusFault_fields (f : ErrorCode) :
    ((statusFault f).extractLsb' 0 8).toNat = f.code ∧ (statusFault f).getLsbD 8 = true ∧
      (statusFault f).extractLsb' 9 23 = 0 := by
  cases f <;> decide

/-- The fields of the `STATUS` word of a success. -/
theorem statusSuccess_fields :
    (statusSuccess.extractLsb' 0 8).toNat = 0 ∧ statusSuccess.getLsbD 8 = true ∧
      statusSuccess.extractLsb' 9 23 = 0 := by
  decide

@[simp] theorem State.raise_err (s : State) (f : ErrorCode) : (s.raise f).err = f.code :=
  (statusFault_fields f).1

@[simp] theorem State.raise_valid (s : State) (f : ErrorCode) : (s.raise f).valid = true :=
  (statusFault_fields f).2.1

@[simp] theorem State.raise_statusReserved (s : State) (f : ErrorCode) :
    (s.raise f).statusReserved = 0 :=
  (statusFault_fields f).2.2

@[simp] theorem State.succeed_err (s : State) (n : Word) : (s.succeed n).err = 0 :=
  statusSuccess_fields.1

@[simp] theorem State.succeed_valid (s : State) (n : Word) : (s.succeed n).valid = true :=
  statusSuccess_fields.2.1

@[simp] theorem State.succeed_statusReserved (s : State) (n : Word) :
    (s.succeed n).statusReserved = 0 :=
  statusSuccess_fields.2.2

/-- The codes are numbered 1 to 10 (rule R165). -/
theorem ErrorCode.code_range (f : ErrorCode) : 1 ≤ f.code ∧ f.code ≤ 10 := by
  cases f <;> decide

/-- Only the reserved code has number 6 (rule R172). -/
theorem ErrorCode.code_ne_six {f : ErrorCode} (h : f ≠ .malformedInputError) : f.code ≠ 6 := by
  cases f <;> first | decide | exact absurd rfl h

/-- No two codes share a number. -/
theorem ErrorCode.code_injective {f g : ErrorCode} (h : f.code = g.code) : f = g := by
  cases f <;> cases g <;> first | rfl | exact absurd h (by decide)

end Sys2Proof.Machine
end

