-- ==== Sys2Proof/Laws/Lengths.lean ====
section
/-! SUPPORT. The length of every computed byte sequence: what a command stores has the length its rule
states (rules R38 and R77). -/

namespace Sys2Proof.Machine

/-- Sequences of one length, joined. -/
theorem flatten_length_of_all (n : Nat) (l : List Bytes) (h : ∀ p ∈ l, p.length = n) :
    l.flatten.length = n * l.length := by
  induction l with
  | nil => simp
  | cons p l ih =>
    rw [List.flatten_cons, List.length_append, h p (by simp), ih fun q hq => h q (by simp [hq]),
      List.length_cons, Nat.mul_succ]
    omega

/-! ## The key schedule -/

@[simp] theorem subWord_length (w : Bytes) : (subWord w).length = w.length := by simp [subWord]

@[simp] theorem rotWord_length (w : Bytes) : (rotWord w).length = w.length := by
  cases w <;> simp [rotWord]

theorem getD_length_of_all {n : Nat} {w : List Bytes} (h : ∀ p ∈ w, p.length = n) {i : Nat}
    (hi : i < w.length) : (w.getD i []).length = n := by
  rw [List.getD_eq_getElem?_getD, List.getElem?_eq_getElem hi]
  exact h _ (List.getElem_mem hi)

theorem nextWord_length {nk i : Nat} {w : List Bytes} (hnk : 0 < nk) (hi : nk ≤ i) (hw : w.length = i)
    (h : ∀ p ∈ w, p.length = 4) : (nextWord nk i w).length = 4 := by
  have h1 := getD_length_of_all h (i := i - 1) (by omega)
  have h2 := getD_length_of_all h (i := i - nk) (by omega)
  simp only [nextWord]
  split
  · rw [xorBytes_length, xorBytes_length, subWord_length, rotWord_length, h1, h2]; rfl
  · split
    · rw [xorBytes_length, subWord_length, h1, h2]; rfl
    · rw [xorBytes_length, h1, h2]; rfl

/-- The key-schedule loop makes `n` more words, all of four bytes. -/
theorem expandLoop_words {nk : Nat} (n : Nat) {i : Nat} {w : List Bytes} (hnk : 0 < nk) (hi : nk ≤ i)
    (hw : w.length = i) (h : ∀ p ∈ w, p.length = 4) :
    (expandLoop nk n i w).length = i + n ∧ ∀ p ∈ expandLoop nk n i w, p.length = 4 := by
  induction n generalizing i w with
  | zero => exact ⟨by simpa [expandLoop] using hw, by simpa [expandLoop] using h⟩
  | succ n ih =>
    have hall : ∀ p ∈ w ++ [nextWord nk i w], p.length = 4 := by
      intro p hp
      rcases List.mem_append.mp hp with hp | hp
      · exact h p hp
      · rw [List.mem_singleton.mp hp]
        exact nextWord_length hnk hi hw h
    obtain ⟨hl, hx⟩ := ih (i := i + 1) (by omega) (by simp [hw]) hall
    exact ⟨by rw [expandLoop, hl]; omega, hx⟩

/-- The schedule's words: `4 * (Nr + 1)` of them, of four bytes (rule R75). -/
theorem scheduleWords_words {k : Bytes} (h : 4 ≤ k.length) :
    (scheduleWords k).length = 4 * (k.length / 4 + 7) ∧ ∀ p ∈ scheduleWords k, p.length = 4 := by
  have hw := expandLoop_words (nk := k.length / 4) (4 * (k.length / 4 + 6 + 1) - k.length / 4)
    (i := k.length / 4) (w := pieces 4 (k.length / 4) k) (by omega) (Nat.le_refl _) (by simp)
    (pieces_all_length 4 _ k (by omega))
  refine ⟨?_, hw.2⟩
  rw [scheduleWords, hw.1]
  omega

/-- `expand_key` gives `(Nr + 1) * 16` bytes (rule R77). -/
theorem expandKey_length {k : Bytes} (h : 4 ≤ k.length) :
    (expandKey k).length = scheduleLength k.length := by
  obtain ⟨hl, hx⟩ := scheduleWords_words h
  rw [expandKey, flatten_length_of_all 4 _ hx, hl, scheduleLength]
  omega

theorem roundKey_length {sch : Bytes} {r : Nat} (h : 16 * (r + 1) ≤ sch.length) :
    (roundKey sch r).length = 16 := by
  rw [roundKey, List.length_take, List.length_drop]
  omega

/-! ## The block transform -/

@[simp] theorem subBytes_length (s : Bytes) : (subBytes s).length = s.length := by simp [subBytes]

@[simp] theorem invSubBytes_length (s : Bytes) : (invSubBytes s).length = s.length := by
  simp [invSubBytes]

@[simp] theorem shiftRows_length (s : Bytes) : (shiftRows s).length = 16 := by simp [shiftRows]

@[simp] theorem invShiftRows_length (s : Bytes) : (invShiftRows s).length = 16 := by
  simp [invShiftRows]

/-- A sequence of `n + 4` bytes begins with four bytes. -/
theorem exists_four {s : Bytes} {n : Nat} (h : s.length = n + 4) :
    ∃ a b c d t, s = a :: b :: c :: d :: t ∧ t.length = n := by
  match s, h with
  | a :: b :: c :: d :: t, h => exact ⟨a, b, c, d, t, rfl, by simpa using h⟩

/-- Sixteen bytes, written out. -/
theorem exists_sixteen {s : Bytes} (h : s.length = 16) :
    ∃ a0 a1 a2 a3 a4 a5 a6 a7 a8 a9 a10 a11 a12 a13 a14 a15,
      s = [a0, a1, a2, a3, a4, a5, a6, a7, a8, a9, a10, a11, a12, a13, a14, a15] := by
  obtain ⟨a0, a1, a2, a3, s1, rfl, h1⟩ := exists_four (n := 12) h
  obtain ⟨a4, a5, a6, a7, s2, rfl, h2⟩ := exists_four (n := 8) h1
  obtain ⟨a8, a9, a10, a11, s3, rfl, h3⟩ := exists_four (n := 4) h2
  obtain ⟨a12, a13, a14, a15, s4, rfl, h4⟩ := exists_four (n := 0) h3
  obtain rfl := List.eq_nil_of_length_eq_zero h4
  exact ⟨_, _, _, _, _, _, _, _, _, _, _, _, _, _, _, _, rfl⟩

theorem mixColumns_length {s : Bytes} (h : s.length = 16) : (mixColumns s).length = 16 := by
  obtain ⟨a0, a1, a2, a3, a4, a5, a6, a7, a8, a9, a10, a11, a12, a13, a14, a15, rfl⟩ := exists_sixteen h
  rfl

theorem invMixColumns_length {s : Bytes} (h : s.length = 16) : (invMixColumns s).length = 16 := by
  obtain ⟨a0, a1, a2, a3, a4, a5, a6, a7, a8, a9, a10, a11, a12, a13, a14, a15, rfl⟩ := exists_sixteen h
  rfl

theorem addRoundKey_length {s k : Bytes} (hs : s.length = 16) (hk : k.length = 16) :
    (addRoundKey s k).length = 16 := by
  rw [addRoundKey, xorBytes_length, hs, hk]; rfl

theorem encryptRounds_length {sch s : Bytes} (hs : s.length = 16) (n : Nat)
    (h : 16 * (n + 1) ≤ sch.length) : (encryptRounds sch n s).length = 16 := by
  cases n with
  | zero => exact hs
  | succ n => exact addRoundKey_length (mixColumns_length (shiftRows_length _)) (roundKey_length h)

theorem decryptRounds_length {sch s : Bytes} (hs : s.length = 16) (n : Nat)
    (h : 16 * (n + 1) ≤ sch.length) : (decryptRounds sch n s).length = 16 := by
  induction n generalizing s with
  | zero => exact hs
  | succ n ih => exact ih (by simp) (by omega)

/-- A schedule has at least one round key and the last is inside it. -/
theorem roundCount_fits {sch : Bytes} (h : 16 ≤ sch.length) : 16 * (roundCount sch + 1) ≤ sch.length := by
  rw [roundCount]; omega

theorem encryptBlock_length (b : Bytes) {sch : Bytes} (h : 16 ≤ sch.length) :
    (encryptBlock b sch).length = 16 :=
  addRoundKey_length (shiftRows_length _) (roundKey_length (roundCount_fits h))

theorem decryptBlock_length (b : Bytes) {sch : Bytes} (h : 16 ≤ sch.length) :
    (decryptBlock b sch).length = 16 := by
  have hn := roundCount_fits h
  rw [decryptBlock]
  exact addRoundKey_length (decryptRounds_length (by simp) _ (by omega)) (roundKey_length (by omega))

/-! ## Padding -/

/-- `pad_block` gives 16 bytes (rule R105). -/
theorem padBlock_length {d : Bytes} (sc : Scheme) (h : d.length ≤ 16) : (padBlock d sc).length = 16 := by
  simp only [padBlock]
  split
  · omega
  · cases sc <;> simp [paddingBytes] <;> omega

/-! ## The modes -/

/-- A key length gives a schedule of at least one round key. -/
theorem expandKey_long {k : Bytes} (h : 16 ≤ k.length) : 16 ≤ (expandKey k).length := by
  rw [expandKey_length (by omega), scheduleLength]; omega

@[simp] theorem blocks_length (d : Bytes) : (blocks d).length = d.length / 16 := by simp [blocks]

theorem ecbEncrypt_length {d k : Bytes} (hk : 16 ≤ k.length) (hd : d.length % 16 = 0) :
    (ecbEncrypt d k).length = d.length := by
  rw [ecbEncrypt, flatten_length_of_all 16]
  · rw [List.length_map, blocks_length]; omega
  · intro p hp
    obtain ⟨b, _, rfl⟩ := List.mem_map.mp hp
    exact encryptBlock_length b (expandKey_long hk)

theorem ecbDecrypt_length {d k : Bytes} (hk : 16 ≤ k.length) (hd : d.length % 16 = 0) :
    (ecbDecrypt d k).length = d.length := by
  rw [ecbDecrypt, flatten_length_of_all 16]
  · rw [List.length_map, blocks_length]; omega
  · intro p hp
    obtain ⟨b, _, rfl⟩ := List.mem_map.mp hp
    exact decryptBlock_length b (expandKey_long hk)

theorem cbcEncryptLoop_length {sch : Bytes} (hs : 16 ≤ sch.length) (prev : Bytes) (ps : List Bytes) :
    (cbcEncryptLoop sch prev ps).length = 16 * ps.length := by
  induction ps generalizing prev with
  | nil => rfl
  | cons p ps ih =>
    simp only [cbcEncryptLoop, List.length_append, ih, encryptBlock_length _ hs, List.length_cons]
    omega

theorem cbcDecryptLoop_length {sch prev : Bytes} {cs : List Bytes} (hs : 16 ≤ sch.length)
    (hp : prev.length = 16) (hc : ∀ c ∈ cs, c.length = 16) :
    (cbcDecryptLoop sch prev cs).length = 16 * cs.length := by
  induction cs generalizing prev with
  | nil => rfl
  | cons c cs ih =>
    rw [cbcDecryptLoop, List.length_append, xorBytes_length, decryptBlock_length _ hs, hp,
      ih (hc c (by simp)) fun q hq => hc q (by simp [hq]), List.length_cons]
    omega

/-- The blocks of whole-block data have 16 bytes each. -/
theorem blocks_all_length (d : Bytes) : ∀ b ∈ blocks d, b.length = 16 :=
  pieces_all_length 16 _ d (by omega)

theorem cbcEncrypt_length {p k : Bytes} (iv : Bytes) (hk : 16 ≤ k.length) (hp : p.length % 16 = 0) :
    (cbcEncrypt p k iv).length = p.length := by
  rw [cbcEncrypt, cbcEncryptLoop_length (expandKey_long hk), blocks_length]; omega

theorem cbcDecrypt_length {c k iv : Bytes} (hk : 16 ≤ k.length) (hi : iv.length = 16)
    (hc : c.length % 16 = 0) : (cbcDecrypt c k iv).length = c.length := by
  rw [cbcDecrypt, cbcDecryptLoop_length (expandKey_long hk) hi (blocks_all_length c), blocks_length]
  omega

theorem ctrLoop_length {sch : Bytes} (hs : 16 ≤ sch.length) (ctr : Bytes) {ds : List Bytes}
    (hd : ∀ d ∈ ds, d.length ≤ 16) : (ctrLoop sch ctr ds).length = ds.flatten.length := by
  induction ds generalizing ctr with
  | nil => rfl
  | cons d ds ih =>
    have := hd d (by simp)
    rw [ctrLoop, List.length_append, xorBytes_length, encryptBlock_length _ hs,
      ih _ fun q hq => hd q (by simp [hq]), List.flatten_cons, List.length_append]
    omega

/-- The segments, joined, are the data. -/
theorem segments_flatten (d : Bytes) : (segments d).flatten = d :=
  pieces_flatten 16 _ d (by omega)

/-- CTR keeps the length, whatever it is (rule R133). -/
theorem ctrXcrypt_length (d : Bytes) {k : Bytes} (iv : Bytes) (hk : 16 ≤ k.length) :
    (ctrXcrypt d k iv).length = d.length := by
  rw [ctrXcrypt, ctrLoop_length (ds := segments d) (expandKey_long hk) iv (pieces_all_le 16 _ d),
    segments_flatten]

/-! ## GCM -/

@[simp] theorem bitsBlock_length (v : BitVec 128) : (bitsBlock v).length = 16 := by simp [bitsBlock]

@[simp] theorem gf128Mul_length (x y : Bytes) : (gf128Mul x y).length = 16 := by simp [gf128Mul]

theorem ghashLoop_length {h y : Bytes} (hy : y.length = 16) (xs : List Bytes) :
    (ghashLoop h y xs).length = 16 := by
  induction xs generalizing y with
  | nil => rw [ghashLoop]; exact hy
  | cons x xs ih => rw [ghashLoop]; exact ih (gf128Mul_length _ _)

@[simp] theorem ghash_length (h x : Bytes) : (ghash h x).length = 16 :=
  ghashLoop_length (by simp) _

/-- The tag has 16 bytes (rule R149). -/
theorem gcmTag_length {k : Bytes} (n a c : Bytes) (hk : 16 ≤ k.length) :
    (gcmTag k n a c).length = 16 := by
  simp only [gcmTag]
  rw [xorBytes_length, ghash_length, encryptBlock_length _ (expandKey_long hk)]
  rfl

theorem gcmCtr_length (d n : Bytes) {k : Bytes} (hk : 16 ≤ k.length) :
    (gcmCtr d k n).length = d.length :=
  ctrXcrypt_length d _ hk

end Sys2Proof.Machine
end

