-- ==== Sys2Proof/Laws/Memory.lean ====
section
/-! SUPPORT. The laws of the data memory: a read after a write, the frame of a write, the canonical form. -/

namespace Sys2Proof.Machine

/-! ## One byte -/

theorem Memory.listed_put (m : Memory) (a x : Nat) (b : Byte) (h : m.wf) :
    Memory.listed x (m.put a b) = if x = a then some b else Memory.listed x m := by
  induction m with
  | nil => simp [Memory.put, Memory.listed, eq_comm]
  | cons c m ih =>
    obtain ⟨hc, hm⟩ := List.pairwise_cons.mp h
    have beyond : ∀ y, y ≤ c.1 → Memory.listed y m = none := by
      intro y hy
      clear ih h
      induction m with
      | nil => rfl
      | cons d m ihm =>
        have := hc d (by simp)
        simp only [Memory.listed]
        rw [if_neg (by omega)]
        exact ihm (fun e he => hc e (by simp [he])) (List.pairwise_cons.mp hm).2
    by_cases h1 : a < c.1
    · simp only [Memory.put, h1, if_true, Memory.listed]
      by_cases hx : x = a
      · simp [hx]
      · simp [hx, Ne.symm hx]
    · by_cases h2 : a = c.1
      · subst h2
        simp only [Memory.put, Nat.lt_irrefl, if_false, if_true, Memory.listed]
        by_cases hx : x = c.1
        · simp [hx]
        · simp [hx, Ne.symm hx]
      · simp only [Memory.put, h1, h2, if_false, Memory.listed, ih hm]
        by_cases hx : c.1 = x
        · simp [hx]; intro hxa; omega
        · simp [hx]

theorem Memory.mem_put {m : Memory} {a : Nat} {b : Byte} {c : Host.Cell} (h : c ∈ m.put a b) :
    c = (a, b) ∨ c ∈ m := by
  induction m with
  | nil => simpa [Memory.put] using h
  | cons d m ih =>
    simp only [Memory.put] at h
    split at h
    · simpa using h
    · split at h
      · rcases List.mem_cons.mp h with h | h
        · exact .inl h
        · exact .inr (by simp [h])
      · rcases List.mem_cons.mp h with h | h
        · exact .inr (by simp [h])
        · rcases ih h with h | h
          · exact .inl h
          · exact .inr (by simp [h])

/-- `put` keeps the canonical form. -/
theorem Memory.put_wf {m : Memory} (a : Nat) (b : Byte) (h : m.wf) : (m.put a b).wf := by
  induction m with
  | nil => simp [Memory.put, Memory.wf]
  | cons c m ih =>
    obtain ⟨hc, hm⟩ := List.pairwise_cons.mp h
    simp only [Memory.put]
    split
    · rename_i hlt
      refine List.pairwise_cons.mpr ⟨?_, h⟩
      intro d hd
      rcases List.mem_cons.mp hd with rfl | hd
      · exact hlt
      · exact Nat.lt_trans hlt (hc d hd)
    · split
      · rename_i heq
        exact List.pairwise_cons.mpr ⟨fun d hd => by simpa [heq] using hc d hd, hm⟩
      · refine List.pairwise_cons.mpr ⟨?_, ih hm⟩
        intro d hd
        rcases Memory.mem_put hd with rfl | hd
        · simp only; omega
        · exact hc d hd

/-! ## A sequence of bytes -/

/-- `putAll` keeps the canonical form. -/
theorem Memory.putAll_wf {m : Memory} (a : Nat) (v : Bytes) (h : m.wf) : (m.putAll a v).wf := by
  induction v generalizing a m with
  | nil => exact h
  | cons b v ih => exact ih (a + 1) (Memory.put_wf a b h)

theorem Memory.mem_putAll {m : Memory} {a : Nat} {v : Bytes} {c : Host.Cell} (h : c ∈ m.putAll a v) :
    (a ≤ c.1 ∧ c.1 < a + v.length) ∨ c ∈ m := by
  induction v generalizing a m with
  | nil => exact .inr h
  | cons b v ih =>
    rcases ih (m := m.put a b) (a := a + 1) h with h | h
    · left; simp only [List.length_cons]; omega
    · rcases Memory.mem_put h with rfl | h
      · left; simp
      · exact .inr h

/-- What is listed after a write: the written byte inside the range, the old one outside. -/
theorem Memory.listed_putAll (m : Memory) (a x : Nat) (v : Bytes) (h : m.wf) :
    Memory.listed x (m.putAll a v) =
      if a ≤ x ∧ x < a + v.length then v[x - a]? else Memory.listed x m := by
  induction v generalizing a m with
  | nil =>
    rw [if_neg (by simp only [List.length_nil]; omega)]
    rfl
  | cons b v ih =>
    rw [Memory.putAll, ih _ _ (Memory.put_wf a b h), Memory.listed_put m a x b h]
    simp only [List.length_cons]
    by_cases h1 : x = a
    · subst h1
      rw [if_neg (by omega), if_pos rfl, if_pos (by omega)]
      simp
    · by_cases h2 : a + 1 ≤ x ∧ x < a + 1 + v.length
      · rw [if_pos h2, if_pos (by omega)]
        have : x - a = (x - (a + 1)) + 1 := by omega
        rw [this, List.getElem?_cons_succ]
      · rw [if_neg h2, if_neg h1, if_neg (by omega)]

/-- The memory of the reset state has the canonical form. -/
theorem State.reset_mem_wf : State.reset.mem.wf := List.Pairwise.nil

/-- So has the memory after a reset. -/
theorem State.resetEngine_mem_wf (s : State) : s.resetEngine.mem.wf := List.Pairwise.nil

/-- A write keeps the canonical form. -/
theorem State.memWrite_mem_wf {s : State} (a : Nat) (v : Bytes) (h : s.mem.wf) :
    (s.memWrite a v).mem.wf :=
  Memory.putAll_wf a v h

/-! ## The state's bytes -/

/-- A byte inside a written range reads as written (rule R31). -/
theorem State.byteAt_memWrite_inside (s : State) (a i : Nat) (v : Bytes) (h : s.mem.wf)
    (hi : i < v.length) : (s.memWrite a v).byteAt (a + i) = v[i] := by
  unfold State.byteAt
  rw [State.memWrite_mem, Memory.listed_putAll s.mem a (a + i) v h, if_pos (by omega)]
  simp [hi]

/-- A byte outside a written range reads as before (rule R38). -/
theorem State.byteAt_memWrite_outside (s : State) (a x : Nat) (v : Bytes) (h : s.mem.wf)
    (hx : x < a ∨ a + v.length ≤ x) : (s.memWrite a v).byteAt x = s.byteAt x := by
  unfold State.byteAt
  rw [State.memWrite_mem, Memory.listed_putAll s.mem a x v h, if_neg (by omega),
    State.memWrite_memEpoch]

@[simp] theorem State.byteAt_raise (s : State) (f : ErrorCode) (a : Nat) :
    (s.raise f).byteAt a = s.byteAt a := rfl

@[simp] theorem State.byteAt_succeed (s : State) (n : Word) (a : Nat) :
    (s.succeed n).byteAt a = s.byteAt a := rfl

@[simp] theorem State.byteAt_accept (s : State) (w : Word) (a : Nat) :
    (s.accept w).byteAt a = s.byteAt a := rfl

@[simp] theorem State.byteAt_setReg (s : State) (r : Reg) (v : Word) (a : Nat) :
    (s.setReg r v).byteAt a = s.byteAt a := by
  simp [State.byteAt]

@[simp] theorem State.memRead_length (s : State) (a n : Nat) : (s.memRead a n).length = n := by
  induction n generalizing a with
  | zero => rfl
  | succ n ih => simp [State.memRead, ih]

/-- Byte `i` of a read is the byte at `a + i` (rule R31). -/
theorem State.memRead_getElem (s : State) (a n i : Nat) (h : i < (s.memRead a n).length) :
    (s.memRead a n)[i] = s.byteAt (a + i) := by
  induction n generalizing a i with
  | zero => simp [State.memRead] at h
  | succ n ih =>
    cases i with
    | zero => rfl
    | succ i =>
      simp only [State.memRead, List.getElem_cons_succ]
      rw [ih]
      congr 1
      omega

/-- A read depends on the bytes of its range alone. -/
theorem State.memRead_congr {s t : State} (a n : Nat)
    (h : ∀ i, i < n → t.byteAt (a + i) = s.byteAt (a + i)) : t.memRead a n = s.memRead a n := by
  apply List.ext_getElem
  · simp
  · intro i h1 h2
    rw [State.memRead_getElem, State.memRead_getElem]
    exact h i (by simpa using h1)

end Sys2Proof.Machine
end

