-- ==== Sys2Proof/Laws/Commands.lean ====
section
/-! SUPPORT. Everything a command and a step can do, said once (rules R57, R176 and R196). -/

namespace Sys2Proof.Machine

/-! ## The operands' lengths -/

@[simp] theorem State.keyOperand_length (s : State) : s.keyOperand.length = s.klen.toNat := by
  simp [State.keyOperand]

@[simp] theorem State.dataOperand_length (s : State) : s.dataOperand.length = s.slen.toNat := by
  simp [State.dataOperand]

@[simp] theorem State.blockOperand_length (s : State) : s.blockOperand.length = 16 := by
  simp [State.blockOperand]

@[simp] theorem State.ivOperand_length (s : State) : s.ivOperand.length = 16 := by
  simp [State.ivOperand]

@[simp] theorem State.nonceOperand_length (s : State) : s.nonceOperand.length = 12 := by
  simp [State.nonceOperand]

@[simp] theorem State.aadOperand_length (s : State) : s.aadOperand.length = s.aadlen.toNat := by
  simp [State.aadOperand]

@[simp] theorem State.tagOperand_length (s : State) : s.tagOperand.length = 16 := by
  simp [State.tagOperand]

theorem State.keyLengthOk_ge {s : State} (h : s.keyLengthOk) : 16 ≤ s.klen.toNat := by
  rcases h with h | h | h <;> omega

theorem State.scheduleLengthOk_ge {s : State} (h : s.scheduleLengthOk) : 16 ≤ s.klen.toNat := by
  rcases h with h | h | h <;> omega

/-! ## How a command ends -/

/-- The ways a command ends (rule R57): it raises an error code the engine has, or it stores one output
in a valid range at `DST`, or (`GCME`) an output there and a tag at `TAGP`. -/
inductive Ends (s t : State) : Prop
  | raised (f : ErrorCode) (hf : f ≠ .malformedInputError) (ht : t = s.raise f)
  | stored (v : Bytes) (n : Word) (hv : s.rangeValid s.dst.toNat v.length)
      (ht : t = (s.memWrite s.dst.toNat v).succeed n)
  | storedTwo (c g : Bytes) (n : Word) (hc : s.rangeValid s.dst.toNat c.length)
      (hg : s.rangeValid s.tagp.toNat g.length)
      (hd : ¬ overlap s.dst.toNat c.length s.tagp.toNat g.length)
      (ht : t = ((s.memWrite s.dst.toNat c).memWrite s.tagp.toNat g).succeed n)

theorem execKexp_ends (s : State) : ∃ t, execKexp s = .next t ∧ Ends s t := by
  simp only [execKexp]
  split
  · exact ⟨_, rfl, .raised _ (by simp) rfl⟩
  · rename_i hk
    have := s.keyLengthOk_ge (not_not.mp hk)
    split
    · exact ⟨_, rfl, .raised _ (by simp) rfl⟩
    · rename_i hr
      refine ⟨_, rfl, .stored _ _ ?_ rfl⟩
      rw [expandKey_length (by simpa using by omega), State.keyOperand_length]
      exact (not_not.mp hr).2

theorem blockCommand_ends {f : Bytes → Bytes → Bytes} (s : State)
    (hf : ∀ b {sch : Bytes}, 16 ≤ sch.length → (f b sch).length = 16) :
    ∃ t, blockCommand f s = .next t ∧ Ends s t := by
  simp only [blockCommand]
  split
  · exact ⟨_, rfl, .raised _ (by simp) rfl⟩
  · rename_i hk
    have := s.scheduleLengthOk_ge (not_not.mp hk)
    split
    · exact ⟨_, rfl, .raised _ (by simp) rfl⟩
    · split
      · exact ⟨_, rfl, .raised _ (by simp) rfl⟩
      · rename_i hr
        refine ⟨_, rfl, .stored _ _ ?_ rfl⟩
        rw [hf _ (by simpa using this)]
        exact (not_not.mp hr).2.2

theorem execPadb_ends (sch : SchemeField) (s : State) : ∃ t, execPadb sch s = .next t ∧ Ends s t := by
  cases sch with
  | unrecognized n => exact ⟨_, rfl, .raised _ (by simp) rfl⟩
  | scheme sc =>
    simp only [execPadb]
    split
    · exact ⟨_, rfl, .raised _ (by simp) rfl⟩
    · split
      · exact ⟨_, rfl, .raised _ (by simp) rfl⟩
      · rename_i hl hr
        refine ⟨_, rfl, .stored _ _ ?_ rfl⟩
        rw [padBlock_length sc (by simpa using hl)]
        exact (not_not.mp hr).2

theorem ecbCommand_ends {f : Bytes → Bytes → Bytes} (s : State)
    (hf : ∀ {d k : Bytes}, 16 ≤ k.length → d.length % 16 = 0 → (f d k).length = d.length) :
    ∃ t, ecbCommand f s = .next t ∧ Ends s t := by
  simp only [ecbCommand]
  split
  · exact ⟨_, rfl, .raised _ (by simp) rfl⟩
  · rename_i hk
    have := s.keyLengthOk_ge (not_not.mp hk)
    split
    · exact ⟨_, rfl, .raised _ (by simp) rfl⟩
    · split
      · exact ⟨_, rfl, .raised _ (by simp) rfl⟩
      · rename_i hl hr
        refine ⟨_, rfl, .stored _ _ ?_ rfl⟩
        rw [hf (by simpa using this) (by simpa using hl), State.dataOperand_length]
        exact (not_not.mp hr).2.2

theorem cbcCommand_ends {f : Bytes → Bytes → Bytes → Bytes} (s : State)
    (hf : ∀ {d k iv : Bytes}, 16 ≤ k.length → iv.length = 16 → d.length % 16 = 0 →
      (f d k iv).length = d.length) :
    ∃ t, cbcCommand f s = .next t ∧ Ends s t := by
  simp only [cbcCommand]
  split
  · exact ⟨_, rfl, .raised _ (by simp) rfl⟩
  · rename_i hk
    have := s.keyLengthOk_ge (not_not.mp hk)
    split
    · exact ⟨_, rfl, .raised _ (by simp) rfl⟩
    · split
      · exact ⟨_, rfl, .raised _ (by simp) rfl⟩
      · split
        · exact ⟨_, rfl, .raised _ (by simp) rfl⟩
        · rename_i hl hr
          refine ⟨_, rfl, .stored _ _ ?_ rfl⟩
          rw [hf (by simpa using this) (by simp) (by simpa using hl), State.dataOperand_length]
          exact (not_not.mp hr).2.2.2

theorem ctrCommand_ends (s : State) : ∃ t, ctrCommand s = .next t ∧ Ends s t := by
  simp only [ctrCommand]
  split
  · exact ⟨_, rfl, .raised _ (by simp) rfl⟩
  · rename_i hk
    have := s.keyLengthOk_ge (not_not.mp hk)
    split
    · exact ⟨_, rfl, .raised _ (by simp) rfl⟩
    · split
      · exact ⟨_, rfl, .raised _ (by simp) rfl⟩
      · rename_i hr
        refine ⟨_, rfl, .stored _ _ ?_ rfl⟩
        rw [ctrXcrypt_length _ _ (by simpa using this), State.dataOperand_length]
        exact (not_not.mp hr).2.2.2

theorem execGcme_ends (s : State) : ∃ t, execGcme s = .next t ∧ Ends s t := by
  simp only [execGcme]
  split
  · exact ⟨_, rfl, .raised _ (by simp) rfl⟩
  · rename_i hk
    have := s.keyLengthOk_ge (not_not.mp hk)
    split
    · exact ⟨_, rfl, .raised _ (by simp) rfl⟩
    · split
      · exact ⟨_, rfl, .raised _ (by simp) rfl⟩
      · rename_i hr
        obtain ⟨h1, h2⟩ := not_or.mp hr
        obtain ⟨-, -, -, -, hd, ht⟩ := not_not.mp h1
        have hlen : 16 ≤ s.keyOperand.length := by simpa using this
        have hl1 : (gcmEncryptAndTag s.dataOperand s.keyOperand s.nonceOperand s.aadOperand).1.length
            = s.slen.toNat := by
          rw [gcmEncryptAndTag, gcmCtr_length _ _ hlen, State.dataOperand_length]
        have hl2 : (gcmEncryptAndTag s.dataOperand s.keyOperand s.nonceOperand s.aadOperand).2.length
            = 16 := gcmTag_length _ _ _ hlen
        exact ⟨_, rfl, .storedTwo _ _ _ (by rw [hl1]; exact hd) (by rw [hl2]; exact ht)
          (by rw [hl1, hl2]; exact h2) rfl⟩

theorem execGcmd_ends (s : State) : ∃ t, execGcmd s = .next t ∧ Ends s t := by
  simp only [execGcmd]
  split
  · exact ⟨_, rfl, .raised _ (by simp) rfl⟩
  · rename_i hk
    have := s.keyLengthOk_ge (not_not.mp hk)
    split
    · exact ⟨_, rfl, .raised _ (by simp) rfl⟩
    · split
      · exact ⟨_, rfl, .raised _ (by simp) rfl⟩
      · rename_i hr
        obtain ⟨-, -, -, -, hd, -⟩ := not_not.mp hr
        split
        · exact ⟨_, rfl, .raised _ (by simp) rfl⟩
        · rename_i p hp
          have hlen : p.length = s.slen.toNat := by
            simp only [gcmDecryptAndVerify] at hp
            split at hp
            · cases hp
            · cases hp
              rw [gcmCtr_length _ _ (by simpa using this), State.dataOperand_length]
          exact ⟨_, rfl, .stored _ _ (by rw [hlen]; exact hd) rfl⟩

/-- What a command can do: it always answers a next state, and it ends in one of the ways of `Ends`. -/
theorem exec_ends (i : Instr) (s : State) : ∃ t, exec i s = .next t ∧ Ends s t := by
  cases i with
  | kexp => exact execKexp_ends s
  | encb => exact blockCommand_ends s encryptBlock_length
  | decb => exact blockCommand_ends s decryptBlock_length
  | padb sch => exact execPadb_ends sch s
  | ecbe => exact ecbCommand_ends s ecbEncrypt_length
  | ecbd => exact ecbCommand_ends s ecbDecrypt_length
  | cbce => exact cbcCommand_ends s fun hk _ hd => cbcEncrypt_length _ hk hd
  | cbcd => exact cbcCommand_ends s cbcDecrypt_length
  | ctre => exact ctrCommand_ends s
  | ctrd => exact ctrCommand_ends s
  | gcme => exact execGcme_ends s
  | gcmd => exact execGcmd_ends s

/-- What a `CMD` write can do: the same, from the state in which the word has arrived. -/
theorem issue_ends (w : Word) (s : State) : ∃ t, issue w s = .next t ∧ Ends (s.accept w) t := by
  simp only [issue]
  split
  · exact ⟨_, rfl, .raised _ (by simp) rfl⟩
  · exact exec_ends _ _

/-! ## What a transaction does -/

theorem Reg.ofNumber_number (r : Reg) : Reg.ofNumber r.number = some r := by cases r <;> rfl

theorem Reg.number_of_ofNumber {n : Nat} {r : Reg} (h : Reg.ofNumber n = some r) : r.number = n := by
  simp only [Reg.ofNumber] at h
  split at h <;> cases h <;> rfl

/-- The ways a transaction ends in a next state (rule R196). -/
inductive Performed (t : Transaction) (s u : State) : Prop
  | command (w : Word) (ht : t = .regWrite 0 w) (he : Ends (s.accept w) u)
  | wrote (r : Reg) (v : Word) (ht : t = .regWrite r.number v) (hr : r ≠ .cmd)
      (hu : u = { s.setReg r v with response := .done })
  | read (r : Reg) (ht : t = .regRead r.number) (hu : u = { s with response := .word (s.reg r) })
  | stored (a : Word) (v : Bytes) (ht : t = .memWrite a v) (hv : s.hostRangeOk a.toNat v.length)
      (hu : u = { s.memWrite a.toNat v with response := .done })
  | loaded (a : Word) (n : Nat) (ht : t = .memRead a n) (hv : s.hostRangeOk a.toNat n)
      (hu : u = { s with response := .bytes (s.memRead a.toNat n) })
  | wasReset (ht : t = .reset) (hu : u = s.resetEngine)

/-- What one transaction can do. -/
theorem perform_cases {t : Transaction} {s u : State} (h : perform t s = .next u) : Performed t s u := by
  cases t with
  | regWrite n v =>
    simp only [perform, hostRegWrite] at h
    split at h
    · cases h
    · rename_i hr
      obtain ⟨x, hx, he⟩ := issue_ends v s
      rw [hx] at h
      cases h
      exact .command v (by rw [← Reg.number_of_ofNumber hr]; rfl) he
    · rename_i r hne hr
      cases h
      exact .wrote r v (by rw [Reg.number_of_ofNumber hr]) hne rfl
  | regRead n =>
    simp only [perform, hostRegRead] at h
    split at h
    · cases h
    · rename_i r hr
      cases h
      exact .read r (by rw [Reg.number_of_ofNumber hr]) rfl
  | memWrite a v =>
    simp only [perform, hostMemWrite] at h
    split at h
    · rename_i hv
      cases h
      exact .stored a v rfl hv rfl
    · cases h
  | memRead a n =>
    simp only [perform, hostMemRead] at h
    split at h
    · rename_i hv
      cases h
      exact .loaded a n rfl hv rfl
    · cases h
  | reset =>
    cases h
    exact .wasReset rfl rfl

/-- What one step can do: nothing when the host has no transaction left, or the next transaction. -/
theorem step_cases {s u : State} (h : step s = .next u) :
    (s.pending = [] ∧ u = s) ∨
      ∃ t rest, s.pending = t :: rest ∧ Performed t { s with pending := rest } u := by
  simp only [step, stepOnce] at h
  split at h
  · rename_i hp
    cases h
    exact .inl ⟨hp, rfl⟩
  · rename_i t rest hp
    exact .inr ⟨t, rest, hp, perform_cases h⟩

/-- Everything a step of one engine of a platform can do when it answers a next platform (rule R183). -/
theorem stepInstance_next {j : Nat} {es es1 : List State} (h : stepInstance j es = .next es1) :
    ∃ s t, es[j]? = some s ∧ step s = .next t ∧ es1 = es.set j t := by
  unfold stepInstance at h
  split at h
  · cases h
  · rename_i s hs
    split at h <;> cases h
    exact ⟨s, _, hs, ‹_›, rfl⟩

end Sys2Proof.Machine
end

