-- ==== Sys2Proof/Laws/PerInstr.lean ====
section
/-! SUPPORT. A fact about every command as syntax, one lemma per constructor. -/

namespace Sys2Proof.Laws.EncodingFields

/-- The word of a command is below `2^16` (its `ZERO` field is 0), its low byte is the opcode of rule R51,
and its `SCH` field is 0 unless the command is `PADB` (rule R47). -/
def Statement (i : Instr) : Prop :=
  i.wellFormed = true →
    (encode i).toNat = i.schNumber * 256 + i.opcode ∧ (encode i).toNat < 65536 ∧
      (i.opcode ≠ 0x04 → i.schNumber = 0)

theorem kexp : Statement .kexp := fun _ => ⟨rfl, by decide, fun _ => rfl⟩
theorem encb : Statement .encb := fun _ => ⟨rfl, by decide, fun _ => rfl⟩
theorem decb : Statement .decb := fun _ => ⟨rfl, by decide, fun _ => rfl⟩

theorem padb (sch : SchemeField) : Statement (.padb sch) := by
  intro h
  have hn : sch.number < 256 := by
    cases sch with
    | scheme sc => cases sc <;> decide
    | unrecognized n =>
      simp only [Instr.wellFormed, SchemeField.wellFormed, Bool.and_eq_true, decide_eq_true_eq] at h
      exact h.2
  have he : (encode (.padb sch)).toNat = sch.number * 256 + 4 := by
    simp only [encode, Instr.schNumber, Instr.opcode, BitVec.toNat_ofNat]
    omega
  exact ⟨he, by omega, fun hne => absurd rfl hne⟩

theorem ecbe : Statement .ecbe := fun _ => ⟨rfl, by decide, fun _ => rfl⟩
theorem ecbd : Statement .ecbd := fun _ => ⟨rfl, by decide, fun _ => rfl⟩
theorem cbce : Statement .cbce := fun _ => ⟨rfl, by decide, fun _ => rfl⟩
theorem cbcd : Statement .cbcd := fun _ => ⟨rfl, by decide, fun _ => rfl⟩
theorem ctre : Statement .ctre := fun _ => ⟨rfl, by decide, fun _ => rfl⟩
theorem ctrd : Statement .ctrd := fun _ => ⟨rfl, by decide, fun _ => rfl⟩
theorem gcme : Statement .gcme := fun _ => ⟨rfl, by decide, fun _ => rfl⟩
theorem gcmd : Statement .gcmd := fun _ => ⟨rfl, by decide, fun _ => rfl⟩

end Sys2Proof.Laws.EncodingFields
end

