-- ==== Sys2Proof/Tests/Slice0.lean ====
section
/-! SUPPORT. The model's own tests. Expected values come from spec/95_test_vectors.md (the V numbers) or
from the tables of the rules; the witnesses at the end show that the statements' hypotheses can be met. -/

namespace Sys2Proof.Tests

set_option Elab.async false

open Sys2Proof.Machine

/-! ## Well-formedness (rules R47 and R50) -/

theorem test_wf_recognized_number_refused : (Instr.padb (.unrecognized 3)).wellFormed = false := by decide
theorem test_wf_wide_number_refused : (Instr.padb (.unrecognized 256)).wellFormed = false := by decide
theorem test_wf_bounds_accepted :
    (Instr.padb (.unrecognized 4)).wellFormed = true ∧ (Instr.padb (.unrecognized 255)).wellFormed = true := by
  decide

/-! ## Decoding: the words of rule R51, bit by bit (bits 31:16, 15:8, 7:0) -/

theorem test_decode_kexp : decode 0b0000000000000000_00000000_00000001 = .ok .kexp := by decide
theorem test_decode_encb : decode 0b0000000000000000_00000000_00000010 = .ok .encb := by decide
theorem test_decode_decb : decode 0b0000000000000000_00000000_00000011 = .ok .decb := by decide
theorem test_decode_padb_whitespace :
    decode 0b0000000000000000_00000010_00000100 = .ok (.padb (.scheme .whitespace)) := by decide
theorem test_decode_padb_unrecognized :
    decode 0b0000000000000000_00000100_00000100 = .ok (.padb (.unrecognized 4)) := by decide
theorem test_decode_ecbe : decode 0b0000000000000000_00000000_00010000 = .ok .ecbe := by decide
theorem test_decode_ecbd : decode 0b0000000000000000_00000000_00010001 = .ok .ecbd := by decide
theorem test_decode_cbce : decode 0b0000000000000000_00000000_00010010 = .ok .cbce := by decide
theorem test_decode_cbcd : decode 0b0000000000000000_00000000_00010011 = .ok .cbcd := by decide
theorem test_decode_ctre : decode 0b0000000000000000_00000000_00010100 = .ok .ctre := by decide
theorem test_decode_ctrd : decode 0b0000000000000000_00000000_00010101 = .ok .ctrd := by decide
theorem test_decode_gcme : decode 0b0000000000000000_00000000_00010110 = .ok .gcme := by decide
theorem test_decode_gcmd : decode 0b0000000000000000_00000000_00010111 = .ok .gcmd := by decide

/-- V100: the illegal words of the table. -/
theorem test_decode_illegal :
    decode 0x00000000 = .error .unknownOpcode ∧ decode 0x00000005 = .error .unknownOpcode ∧
      decode 0x0000000f = .error .unknownOpcode ∧ decode 0x00000018 = .error .unknownOpcode ∧
      decode 0x00000110 = .error .schFieldNotZero ∧ decode 0x00010010 = .error .zeroFieldNotZero ∧
      decode 0x00010404 = .error .zeroFieldNotZero ∧ decode 0xffffffff = .error .zeroFieldNotZero := by
  decide

theorem test_decodeTableWord : decodeTableWord 32 0x17 = some .gcmd ∧ decodeTableWord 32 0x118 = none := by
  decide

/-! ## Fields and tables -/

/-- V20 and V21. -/
theorem test_gmul8 :
    gmul8 0x57 0x83 = 0xc1 ∧ gmul8 0x57 0x13 = 0xfe ∧ gmul8 0xff 0xff = 0x13 ∧ gmul8 0x0e 0x57 = 0x67 ∧
      xtime 0x80 = 0x1b ∧ xtime 0x47 = 0x8e := by
  decide +kernel

/-- V23, V24. -/
theorem test_tables :
    sbox 0x53 = 0xed ∧ sbox 0xff = 0x16 ∧ invSbox 0x00 = 0x52 ∧ invSbox 0x16 = 0xff ∧
      subWord (rotWord [0x09, 0xcf, 0x4f, 0x3c]) = [0x8a, 0x84, 0xeb, 0x01] := by
  decide +kernel

/-- V25: the row rotations, in both directions. -/
theorem test_rows :
    shiftRows (bytesBe 0x000102030405060708090a0b0c0d0e0f 16) =
        bytesBe 0x00050a0f04090e03080d02070c01060b 16 ∧
      invShiftRows (bytesBe 0x000102030405060708090a0b0c0d0e0f 16) =
        bytesBe 0x000d0a0704010e0b0805020f0c090603 16 := by
  decide +kernel

/-- V26 and V27: the columns, in both directions. -/
theorem test_columns :
    mixColumns (bytesBe 0xdb135345f20a225c01010101c6c6c6c6 16) =
        bytesBe 0x8e4da1bc9fdc589d01010101c6c6c6c6 16 ∧
      invMixColumns (bytesBe 0x8e4da1bc9fdc589d01010101c6c6c6c6 16) =
        bytesBe 0xdb135345f20a225c01010101c6c6c6c6 16 := by
  decide +kernel

/-- V28: `x^127` squared, and `Y` squared. -/
theorem test_gf128 :
    gf128Mul (bytesBe 1 16) (bytesBe 1 16) = bytesBe 0xe6080000000000000000000000000003 16 ∧
      gf128Mul (bytesBe 0x66e94bd4ef8a2c3b884cfa59ca342b2e 16)
          (bytesBe 0x66e94bd4ef8a2c3b884cfa59ca342b2e 16) =
        bytesBe 0xa569901bb4b18906f5059d24465c904d 16 := by
  decide +kernel

/-- The examples of rule R71: multiplication by `x`, the reduction included. -/
theorem test_gf128_by_x :
    gf128Mul (0x40 :: zeros 15) (bytesBe 0x66e94bd4ef8a2c3b884cfa59ca342b2e 16) =
        bytesBe 0x3374a5ea77c5161dc4267d2ce51a1597 16 ∧
      gf128Mul (bytesBe 1 16) (0x40 :: zeros 15) = 0xe1 :: zeros 15 := by
  decide +kernel

/-- V33 and V34: the last round keys of the 24-byte and the 32-byte key. -/
theorem test_expandKey_long :
    (expandKey (bytesBe 0x000102030405060708090a0b0c0d0e0f1011121314151617 24)).drop 192 =
        bytesBe 0xa4970a331a78dc09c418c271e3a41d5d 16 ∧
      (expandKey (bytesBe 0x000102030405060708090a0b0c0d0e0f101112131415161718191a1b1c1d1e1f 32)).drop 224 =
        bytesBe 0x24fc79ccbf0979e9371ac23c6d68de36 16 := by
  decide +kernel

/-! ## The commands: one `CMD` write each -/

/-- A 4096-byte engine after reset. -/
def fresh : State := State.launch 4096

/-- The key `k0` of DOC0 at 0, also used as IV at 0x10 and, its first 12 bytes, as nonce. -/
def withK0 : State :=
  { (fresh.memWrite 0 (bytesBe 0x20150000000000000000000000000000 16)).memWrite 0x10
      (bytesBe 0x20150000000000000000000000000000 16) with
    keyp := 0, klen := 16, ivp := 0x10, ivlen := 16, src := 0x100, dst := 0x200 }

/-- The first block of `MSG` and the padded second block (V8). -/
def withMessage : State :=
  { withK0.memWrite 0x100
      (bytesBe 0x536563726574206d6573736167652067_6f657320686572650808080808080808 32) with slen := 32 }

/-- The status, the result length and `n` bytes of memory after one step that issues the word `w`. -/
def outcome (s : State) (w p n : Nat) : Option (Word × Word × Bytes) :=
  match step (s.withFetchWord 32 w) with
  | .next t => some (t.status, t.rlen, t.memRead p n)
  | .fault _ => none
  | .refused _ => none

/-- The key of FIPS 197 C.1 at 0, the schedule to go to the last 176 bytes of memory (V36). -/
def kexpState : State :=
  { fresh.memWrite 0 (bytesBe 0x000102030405060708090a0b0c0d0e0f 16) with klen := 16, dst := 0xf50 }

/-- V36, V31: `KEXP` up to the last byte of memory. -/
theorem test_kexp :
    outcome kexpState 0x01 0xff0 16 = some (0x100, 0xb0, bytesBe 0x13111d7fe3944a17f307a78b4d2b30c5 16) := by
  decide +kernel

/-- V36: one byte further does not fit, and the key length is judged before the addresses. -/
theorem test_kexp_faults :
    outcome { kexpState with dst := 0xf51 } 0x01 0 0 = some (0x109, 0, []) ∧
      outcome { kexpState with klen := 7, keyp := 0xffffffff } 0x01 0 0 = some (0x101, 0, []) := by
  decide +kernel

/-- The schedule V31 at 0x200 and the block of V41 at 0x100. -/
def blockState : State :=
  { (fresh.memWrite 0x200 (bytesBe 0x000102030405060708090a0b0c0d0e0fd6aa74fdd2af72fadaa678f1d6ab76feb692cf0b643dbdf1be9bc5006830b3feb6ff744ed2c2c9bf6c590cbf0469bf4147f7f7bc95353e03f96c32bcfd058dfd3caaa3e8a99f9deb50f3af57adf622aa5e390f7df7a69296a7553dc10aa31f6b14f9701ae35fe28c440adf4d4ea9c02647438735a41c65b9e016baf4aebf7ad2549932d1f08557681093ed9cbe2c974e13111d7fe3944a17f307a78b4d2b30c5 176)).memWrite
      0x100 (bytesBe 0x00112233445566778899aabbccddeeff 16) with
    keyp := 0x200, klen := 176, src := 0x100, slen := 16, dst := 0x100 }

/-- V47: `ENCB` in place. -/
theorem test_encb :
    outcome blockState 0x02 0x100 16 = some (0x100, 16, bytesBe 0x69c4e0d86a7b0430d8cdb78070b4c55a 16) := by
  decide +kernel

/-- V47: a key length is no schedule length; key before block; block length. -/
theorem test_encb_faults :
    outcome { blockState with klen := 16 } 0x02 0 0 = some (0x101, 0, []) ∧
      outcome { blockState with klen := 100, slen := 3 } 0x02 0 0 = some (0x101, 0, []) ∧
      outcome { blockState with slen := 15 } 0x02 0 0 = some (0x102, 0, []) := by
  decide +kernel

/-- V47: `DECB` of the ciphertext of V41. -/
theorem test_decb :
    outcome (blockState.memWrite 0x100 (bytesBe 0x69c4e0d86a7b0430d8cdb78070b4c55a 16)) 0x03 0x100 16 =
      some (0x100, 16, bytesBe 0x00112233445566778899aabbccddeeff 16) := by
  decide +kernel

/-- V55: four bytes of data at 0x100. -/
def padState : State :=
  { fresh.memWrite 0x100 (bytesBe 0x21a043ff 4) with src := 0x100, slen := 4, dst := 0x180 }

/-- V7 and V55: the four schemes. -/
theorem test_padb :
    outcome padState 0x004 0x180 16 = some (0x100, 16, bytesBe 0x21a043ff0c0c0c0c0c0c0c0c0c0c0c0c 16) ∧
      outcome padState 0x104 0x180 16 = some (0x100, 16, bytesBe 0x21a043ff800000000000000000000000 16) ∧
      outcome padState 0x204 0x180 16 = some (0x100, 16, bytesBe 0x21a043ff202020202020202020202020 16) ∧
      outcome padState 0x304 0x180 16 = some (0x100, 16, bytesBe 0x21a043ff000000000000000000000000 16) := by
  decide +kernel

/-- V55: the faults, the scheme before the length, and an empty range that is valid anywhere. -/
theorem test_padb_corners :
    outcome { padState with slen := 16 } 0xff04 0 0 = some (0x104, 0, []) ∧
      outcome { padState with slen := 17 } 0x0904 0 0 = some (0x104, 0, []) ∧
      outcome { padState with slen := 17 } 0x0004 0 0 = some (0x107, 0, []) ∧
      outcome { padState with dst := 0xff1 } 0x0004 0 0 = some (0x109, 0, []) ∧
      outcome { padState with slen := 0, src := 0xffffffff } 0x0004 0x180 1 = some (0x100, 16, [0x10]) := by
  decide +kernel

/-- V61 and V63: `ECBE`, the IV registers not read. -/
theorem test_ecbe :
    outcome { withMessage with slen := 16, ivp := 0xffffffff, ivlen := 5 } 0x10 0x200 16 =
      some (0x100, 16, bytesBe 0xaa865d81973e02929d1b525b5b4c2f75 16) := by
  decide +kernel

/-- V64 and V75: empty data succeeds with a legal key only; the data length. -/
theorem test_ecbe_corners :
    outcome { withK0 with slen := 0 } 0x10 0 0 = some (0x100, 0, []) ∧
      outcome { withK0 with slen := 0, klen := 5 } 0x10 0 0 = some (0x101, 0, []) ∧
      outcome { withK0 with slen := 24 } 0x10 0 0 = some (0x103, 0, []) := by
  decide +kernel

/-- Rule R119: the block back. -/
theorem test_ecbd :
    outcome { withK0.memWrite 0x100 (bytesBe 0xaa865d81973e02929d1b525b5b4c2f75 16) with slen := 16 }
        0x11 0x200 16 =
      some (0x100, 16, bytesBe 0x536563726574206d6573736167652067 16) := by
  decide +kernel

/-- V8: DOC0's own ciphertext. -/
theorem test_cbce :
    outcome withMessage 0x12 0x200 32 =
      some (0x100, 32, bytesBe 0x97922be50bc318916b79396d26b3b540e627c2962ec87588ab392d5b9e7cf1cd 32) := by
  decide +kernel

/-- V104: one command with several defects. -/
theorem test_cbce_priority :
    outcome { withK0 with klen := 5, ivlen := 3, slen := 7, src := 0xffffffff } 0x12 0 0 =
        some (0x101, 0, []) ∧
      outcome { withK0 with ivlen := 3, slen := 7, src := 0xffffffff } 0x12 0 0 = some (0x102, 0, []) ∧
      outcome { withK0 with slen := 7, src := 0xffffffff } 0x12 0 0 = some (0x103, 0, []) ∧
      outcome { withK0 with slen := 16, src := 0xffffffff } 0x12 0 0 = some (0x109, 0, []) := by
  decide +kernel

/-- V8 and rule R131: the first block back, the IV XORed in. -/
theorem test_cbcd :
    outcome { withK0.memWrite 0x100 (bytesBe 0x97922be50bc318916b79396d26b3b540 16) with slen := 16 }
        0x13 0x200 16 =
      some (0x100, 16, bytesBe 0x536563726574206d6573736167652067 16) := by
  decide +kernel

/-- V68: the counter wraps from all ones; a partial last segment. -/
theorem test_ctre :
    outcome { (withK0.memWrite 0x10 (rep 0xff 16)).memWrite 0x100 (zeros 20) with slen := 20 } 0x14 0x200 20 =
      some (0x100, 20, bytesBe 0x4985433829240c53387bc4fc75500b8324f21dde 20) := by
  decide +kernel

/-- V75: an IV length, a range that ends exactly at the end of memory and one that does not. -/
theorem test_ctre_corners :
    outcome { withK0 with ivlen := 12 } 0x14 0 0 = some (0x102, 0, []) ∧
      outcome { withK0 with slen := 17, dst := 0xff0 } 0x14 0 0 = some (0x109, 0, []) := by
  decide +kernel

/-- V66, the first byte of its decryption. -/
theorem test_ctrd :
    outcome { withK0.memWrite 0x100 [0x11] with slen := 1 } 0x15 0x200 1 = some (0x100, 1, [0x41]) := by
  decide +kernel

/-- The nonce of V80, and one byte of data (V83). -/
def gcmState : State :=
  { withK0.memWrite 0x100 [0x00] with ivlen := 12, slen := 1, tagp := 0x300 }

/-- V83: one plaintext byte, ciphertext and tag. -/
theorem test_gcme :
    outcome gcmState 0x16 0x200 1 = some (0x100, 1, [0x46]) ∧
      (outcome gcmState 0x16 0x300 16).map (fun r => r.2.2) =
        some (bytesBe 0xab77256d2619edc3508c28c71ae16465 16) := by
  decide +kernel

/-- V94: the nonce length, and output ranges that overlap or only touch. -/
theorem test_gcme_corners :
    outcome { gcmState with ivlen := 16 } 0x16 0 0 = some (0x10a, 0, []) ∧
      outcome { gcmState with slen := 24, tagp := 0x210 } 0x16 0 0 = some (0x109, 0, []) ∧
      outcome { gcmState with slen := 24, tagp := 0x1f1 } 0x16 0 0 = some (0x109, 0, []) ∧
      ¬ { gcmState with slen := 24, tagp := 0x218 }.outputsOverlap := by
  decide +kernel

/-- The right tag of the empty message at 0x300 (V83). -/
def gcmdState : State :=
  { withK0.memWrite 0x300 (bytesBe 0x060aa25add46dd6d6bafe91b689f6afc 16) with
    ivlen := 12, slen := 0, tagp := 0x300 }

/-- V94: the empty message with its tag. -/
theorem test_gcmd : outcome gcmdState 0x17 0 0 = some (0x100, 0, []) := by decide +kernel

/-- V93: a tag with its last bit flipped, and V94: addresses before authentication. -/
theorem test_gcmd_refuses :
    outcome (gcmdState.memWrite 0x30f [0xfd]) 0x17 0 0 = some (0x105, 0, []) ∧
      outcome { gcmdState with tagp := 0xff1 } 0x17 0 0 = some (0x109, 0, []) := by
  decide +kernel

/-- V101: an illegal word still lands in `CMD`. -/
theorem test_illegal_word :
    (match step (fresh.withFetchWord 32 0xdeadbeef) with
      | .next t => some (t.cmd, t.status, t.rlen)
      | .fault _ => none
      | .refused _ => none) = some (0xdeadbeef, 0x108, 0) := by
  decide +kernel

/-- V103: the read-only registers do not take a write, a descriptor register does. -/
theorem test_host_registers :
    perform (.regWrite 1 0xffffffff) fresh = .next { fresh with response := .done } ∧
      perform (.regWrite 4 0xffffffff) fresh = .next { fresh with src := 0xffffffff, response := .done } ∧
      perform (.regRead 3) fresh = .next { fresh with response := .word 0x10 } ∧
      perform (.regRead 14) fresh = .refused .noSuchRegister :=
  ⟨rfl, rfl, rfl, rfl⟩

/-- Rule R32: host memory accesses at the end of memory. -/
theorem test_host_memory :
    perform (.memWrite 0xfff [0xab]) fresh = .next { fresh with mem := [(0xfff, 0xab)], response := .done } ∧
      perform (.memWrite 0xfff [0xab, 0xcd]) fresh = .refused .hostRangeNotValid ∧
      perform (.memRead 0x1000 0) fresh = .next { fresh with response := .bytes [] } :=
  ⟨rfl, rfl, rfl⟩

/-! ## Witnesses: concrete states and operands that meet the hypotheses of the statements, one for each
clause, at the boundaries of the ranges. `witness_X` belongs to `Obligations.X`. -/

/-- The outcome is a next state that satisfies `p`. -/
def endsWith (o : Host.Outcome State Fault Refusal) (p : State → Bool) : Bool :=
  match o with
  | .next t => p t
  | .fault _ => false
  | .refused _ => false

theorem ends {o : Host.Outcome State Fault Refusal} {p : State → Prop} [DecidablePred p]
    (h : endsWith o (fun t => decide (p t)) = true) : ∃ t, o = .next t ∧ p t := by
  cases o with
  | next t => exact ⟨t, rfl, of_decide_eq_true h⟩
  | fault f => cases h
  | refused r => cases h

theorem runs {o : Host.Outcome State Fault Refusal} (h : endsWith o (fun _ => true) = true) :
    ∃ t, o = .next t := by
  cases o with
  | next t => exact ⟨t, rfl⟩
  | fault f => cases h
  | refused r => cases h

theorem witness_DecodeOfEncode :
    (Instr.padb (.unrecognized 255)).wellFormed = true ∧ Instr.gcmd.wellFormed = true := by decide

theorem witness_EncodeOfDecode : decode 0x0000ff04 = .ok (.padb (.unrecognized 255)) := by decide

theorem witness_SchemeNumbers : 4 ≤ 4 ∧ 4 < 256 ∧ 4 ≤ 255 ∧ 255 < 256 := by decide

theorem witness_IllegalWordsFault :
    (∃ e, decode 0x00000018 = .error e) ∧ ∃ e, decode 0xffff0000 = .error e :=
  ⟨⟨_, rfl⟩, ⟨_, rfl⟩⟩

theorem witness_StepRunsTheDecodedCommand :
    (fresh.withFetchWord 32 0x304).pending = .regWrite 0 0x304 :: [] ∧
      decode 0x304 = .ok (.padb (.scheme .zero)) ∧
      (fresh.withFetchWord 32 0xffffffff).pending = .regWrite 0 0xffffffff :: [] ∧
      decode 0xffffffff = .error .zeroFieldNotZero :=
  ⟨rfl, rfl, rfl, rfl⟩

theorem witness_ListingCommandIsOneWrite :
    (Instr.padb (.unrecognized 255)).wellFormed = true ∧ encode (.padb (.unrecognized 255)) = 0x0000ff04 := by
  decide

theorem witness_HostRegisterAccess :
    (4 ≤ 4 ∧ 4 ≤ 13) ∧ (4 ≤ 13 ∧ 13 ≤ 13) ∧ (1 ≤ 1 ∧ 1 ≤ 3) ∧ (1 ≤ 3 ∧ 3 ≤ 3) ∧ 0 ≤ 13 ∧ 13 < 14 := by
  decide

/-- A step that runs a command, and the step of an idle engine. -/
theorem witness_DescriptorRegistersKept :
    4 ≤ Reg.src.number ∧ 4 ≤ Reg.tagp.number ∧ (∃ t, step (padState.withFetchWord 32 0x04) = .next t) ∧
      (Claims.isWriteOf .src (.regWrite 0 0x04) = false ∧ Transaction.regWrite 0 0x04 ≠ .reset) ∧
      (∃ t, step fresh = .next t) ∧ fresh.pending = [] :=
  ⟨by decide, by decide, runs (by decide +kernel), by decide, runs (by decide +kernel), rfl⟩

theorem witness_StatusWrittenByCommandsOnly :
    (∃ t, issue 0x04 padState = .next t) ∧
      (∃ t, step { fresh with pending := [.regWrite 13 7] } = .next t) ∧
      Claims.isWriteOf .cmd (.regWrite 13 7) = false ∧ Transaction.regWrite 13 7 ≠ .reset :=
  ⟨runs (by decide +kernel), runs (by decide +kernel), by decide, by decide⟩

/-- A success and a fault; and the three lengths of `KEXP`. -/
theorem witness_ResultLengthReported :
    (∃ t, exec (.padb (.scheme .zero)) padState = .next t ∧ t.err = 0) ∧
      (∃ t, exec .gcmd fresh = .next t ∧ t.err ≠ 0) ∧
      (∃ t, exec .kexp { fresh with klen := 16 } = .next t ∧ t.err = 0 ∧ t.rlen.toNat = 176) ∧
      (∃ t, exec .kexp { fresh with klen := 24 } = .next t ∧ t.err = 0 ∧ t.rlen.toNat = 208) ∧
      ∃ t, exec .kexp { fresh with klen := 32 } = .next t ∧ t.err = 0 ∧ t.rlen.toNat = 240 :=
  ⟨ends (by decide +kernel), ends (by decide +kernel),
    ends (by decide +kernel), ends (by decide +kernel),
    ends (by decide +kernel)⟩

theorem witness_ReadAfterWrite : fresh.mem.wf ∧ padState.mem.wf := by decide +kernel

theorem witness_HostMemoryAccess :
    padState.mem.wf ∧ padState.rangeValid 0xfff 1 ∧ ¬ padState.rangeValid 0xfff 2 ∧
      padState.rangeValid 0xffffffff 0 := by
  decide +kernel

/-- The least memory, the largest, and a range that ends past `2^32`. -/
theorem witness_RangesDoNotWrap :
    (State.launch 1).memBytesOk ∧ (State.launch (2 ^ 32)).memBytesOk ∧ 2 ^ 32 < 0xffffffff + 2 ∧
      (State.launch (2 ^ 32)).rangeValid 0xffffffff 1 ∧ ¬ (State.launch 1).rangeValid 1 1 := by
  decide +kernel

/-- A host write and a command that change a listed byte. -/
theorem witness_MemoryWrittenByNothingElse :
    padState.mem.wf ∧
      (∃ t, step { padState with pending := [.memWrite 0x100 [0x00]] } = .next t ∧
        t.byteAt 0x100 ≠ padState.byteAt 0x100) ∧
      ∃ t, step ({ padState with dst := 0xff }.withFetchWord 32 0x304) = .next t ∧
        t.byteAt 0x100 ≠ padState.byteAt 0x100 :=
  ⟨by decide +kernel, ends (by decide +kernel), ends (by decide +kernel)⟩

/-- A reset changes a byte that was not the one the reset brings. -/
theorem witness_MemoryWrittenByNothingElse_reset :
    ∃ t, step { fresh.memWrite 0 [Config.powerOnByte 1 0 + 1] with pending := [.reset] } = .next t ∧
      t.byteAt 0 ≠ (fresh.memWrite 0 [Config.powerOnByte 1 0 + 1]).byteAt 0 := by
  refine ⟨_, rfl, ?_⟩
  change Config.powerOnByte 1 0 ≠ Config.powerOnByte 1 0 + 1
  generalize Config.powerOnByte 1 0 = b
  revert b
  decide +kernel

theorem witness_StepKeepsInvariant : padState.Inv ∧ ∃ t, step (padState.withFetchWord 32 0x04) = .next t :=
  ⟨by decide +kernel, runs (by decide +kernel)⟩

theorem witness_FaultsHaveNoOtherEffect :
    (∃ t, issue 0xffffffff fresh = .next t ∧ t.err ≠ 0) ∧ ∃ t, issue 0x10 fresh = .next t ∧ t.err ≠ 0 :=
  ⟨ends (by decide +kernel), ends (by decide +kernel)⟩

/-- A fault with two causes there, and a success. -/
theorem witness_FirstFaultIsReported :
    (∃ t, issue 0x10 { fresh with slen := 5 } = .next t ∧ t.err = 1) ∧
      ∃ t, issue 0x304 padState = .next t ∧ t.err = 0 :=
  ⟨ends (by decide +kernel), ends (by decide +kernel)⟩

/-! ### The commands: operands that end at the last byte of a 4096-byte memory, clause by clause -/

/-- Key, data, output, IV or nonce and tag; five bytes of associated data at the end of memory. -/
def ops (keyp klen src slen dst ivp ivlen tagp : Word) : State :=
  { fresh with
    keyp := keyp, klen := klen, src := src, slen := slen, dst := dst, ivp := ivp, ivlen := ivlen,
    aadp := 0xffb, aadlen := 5, tagp := tagp }

/-- Nothing is listed in their memory, so it is in its canonical form. -/
theorem witness_ops_mem_wf (keyp klen src slen dst ivp ivlen tagp : Word) :
    (ops keyp klen src slen dst ivp ivlen tagp).mem.wf :=
  List.Pairwise.nil

theorem witness_KexpWritesTheSchedule :
    (ops 0xff0 16 0 0 0xf50 0 0 0).keyLengthOk ∧ (ops 0xff0 16 0 0 0xf50 0 0 0).keyRangeOk ∧
      (ops 0xff0 16 0 0 0xf50 0 0 0).outRangeOk 176 ∧ (ops 0xfe0 32 0 0 0xf10 0 0 0).keyLengthOk ∧
      (ops 0xfe0 32 0 0 0xf10 0 0 0).keyRangeOk ∧ (ops 0xfe0 32 0 0 0xf10 0 0 0).outRangeOk 240 := by
  decide +kernel

theorem witness_KexpWritesTheSchedule_faults :
    ¬ (ops 0 17 0 0 0 0 0 0).keyLengthOk ∧ (ops 0xff1 16 0 0 0 0 0 0).keyLengthOk ∧
      ¬ (ops 0xff1 16 0 0 0 0 0 0).keyRangeOk ∧ (ops 0 16 0 0 0xf51 0 0 0).keyLengthOk ∧
      ¬ (ops 0 16 0 0 0xf51 0 0 0).outRangeOk 176 := by
  decide +kernel

theorem witness_BlockCommandsTransformOneBlock :
    (ops 0xf50 176 0xff0 16 0xff0 0 0 0).scheduleLengthOk ∧
      (ops 0xf50 176 0xff0 16 0xff0 0 0 0).slen.toNat = 16 ∧
      (ops 0xf50 176 0xff0 16 0xff0 0 0 0).keyRangeOk ∧
      (ops 0xf50 176 0xff0 16 0xff0 0 0 0).rangeValid 0xff0 16 ∧
      (ops 0xf50 176 0xff0 16 0xff0 0 0 0).outRangeOk 16 := by
  decide +kernel

theorem witness_BlockCommandsTransformOneBlock_faults :
    ¬ (ops 0 16 0 16 0 0 0 0).scheduleLengthOk ∧ (ops 0 208 0 15 0 0 0 0).scheduleLengthOk ∧
      (ops 0 208 0 15 0 0 0 0).slen.toNat ≠ 16 ∧ (ops 0xf51 176 0 16 0 0 0 0).scheduleLengthOk ∧
      (ops 0xf51 176 0 16 0 0 0 0).slen.toNat = 16 ∧ ¬ (ops 0xf51 176 0 16 0 0 0 0).keyRangeOk ∧
      (ops 0 176 0xff1 16 0 0 0 0).scheduleLengthOk ∧ (ops 0 176 0xff1 16 0 0 0 0).slen.toNat = 16 ∧
      ¬ (ops 0 176 0xff1 16 0 0 0 0).rangeValid 0xff1 16 ∧ (ops 0 240 0 16 0xff1 0 0 0).scheduleLengthOk ∧
      (ops 0 240 0 16 0xff1 0 0 0).slen.toNat = 16 ∧ ¬ (ops 0 240 0 16 0xff1 0 0 0).outRangeOk 16 := by
  decide +kernel

theorem witness_PadbPadsTheBlock :
    (ops 0 0 0xff0 16 0xff0 0 0 0).slen.toNat ≤ 16 ∧ (ops 0 0 0xff0 16 0xff0 0 0 0).dataRangeOk ∧
      (ops 0 0 0xff0 16 0xff0 0 0 0).outRangeOk 16 ∧ (ops 0 0 0xffffffff 0 0xff0 0 0 0).slen.toNat ≤ 16 ∧
      (ops 0 0 0xffffffff 0 0xff0 0 0 0).dataRangeOk ∧
      (ops 0 0 0xffffffff 0 0xff0 0 0 0).outRangeOk 16 := by
  decide +kernel

theorem witness_PadbPadsTheBlock_faults :
    3 < 4 ∧ 16 < (ops 0 0 0 17 0 0 0 0).slen.toNat ∧ (ops 0 0 0x1000 1 0 0 0 0).slen.toNat ≤ 16 ∧
      ¬ (ops 0 0 0x1000 1 0 0 0 0).dataRangeOk ∧ (ops 0 0 0 16 0xff1 0 0 0).slen.toNat ≤ 16 ∧
      ¬ (ops 0 0 0 16 0xff1 0 0 0).outRangeOk 16 := by
  decide +kernel

/-- All of memory as data, and no data at all. -/
theorem witness_EcbCommandsTransformTheData :
    (ops 0xfe8 24 0 4096 0 0 0 0).keyLengthOk ∧ (ops 0xfe8 24 0 4096 0 0 0 0).slen.toNat % 16 = 0 ∧
      (ops 0xfe8 24 0 4096 0 0 0 0).keyRangeOk ∧ (ops 0xfe8 24 0 4096 0 0 0 0).dataRangeOk ∧
      (ops 0xfe8 24 0 4096 0 0 0 0).outRangeOk 4096 ∧
      (ops 0xfe8 24 0xffffffff 0 0xffffffff 0 0 0).keyLengthOk ∧
      (ops 0xfe8 24 0xffffffff 0 0xffffffff 0 0 0).slen.toNat % 16 = 0 ∧
      (ops 0xfe8 24 0xffffffff 0 0xffffffff 0 0 0).keyRangeOk ∧
      (ops 0xfe8 24 0xffffffff 0 0xffffffff 0 0 0).dataRangeOk ∧
      (ops 0xfe8 24 0xffffffff 0 0xffffffff 0 0 0).outRangeOk 0 := by
  decide +kernel

theorem witness_EcbCommandsTransformTheData_faults :
    ¬ (ops 0 31 0 0 0 0 0 0).keyLengthOk ∧ (ops 0 32 0 17 0 0 0 0).keyLengthOk ∧
      (ops 0 32 0 17 0 0 0 0).slen.toNat % 16 ≠ 0 ∧ (ops 0xfe1 32 0 16 0 0 0 0).keyLengthOk ∧
      (ops 0xfe1 32 0 16 0 0 0 0).slen.toNat % 16 = 0 ∧ ¬ (ops 0xfe1 32 0 16 0 0 0 0).keyRangeOk ∧
      (ops 0 32 0xff1 16 0 0 0 0).keyLengthOk ∧ (ops 0 32 0xff1 16 0 0 0 0).slen.toNat % 16 = 0 ∧
      ¬ (ops 0 32 0xff1 16 0 0 0 0).dataRangeOk ∧ (ops 0 32 0 16 0xff1 0 0 0).keyLengthOk ∧
      (ops 0 32 0 16 0xff1 0 0 0).slen.toNat % 16 = 0 ∧ ¬ (ops 0 32 0 16 0xff1 0 0 0).outRangeOk 16 := by
  decide +kernel

theorem witness_CbcCommandsTransformTheData :
    (ops 0xff0 16 0xfe0 32 0xfe0 0xff0 16 0).keyLengthOk ∧
      (ops 0xff0 16 0xfe0 32 0xfe0 0xff0 16 0).ivlen.toNat = 16 ∧
      (ops 0xff0 16 0xfe0 32 0xfe0 0xff0 16 0).slen.toNat % 16 = 0 ∧
      (ops 0xff0 16 0xfe0 32 0xfe0 0xff0 16 0).keyRangeOk ∧
      (ops 0xff0 16 0xfe0 32 0xfe0 0xff0 16 0).ivRangeOk 16 ∧
      (ops 0xff0 16 0xfe0 32 0xfe0 0xff0 16 0).dataRangeOk ∧
      (ops 0xff0 16 0xfe0 32 0xfe0 0xff0 16 0).outRangeOk 32 := by
  decide +kernel

theorem witness_CbcCommandsTransformTheData_faults :
    ¬ (ops 0 0 0 16 0 0 16 0).keyLengthOk ∧ (ops 0 24 0 16 0 0 15 0).keyLengthOk ∧
      (ops 0 24 0 16 0 0 15 0).ivlen.toNat ≠ 16 ∧ (ops 0 24 0 15 0 0 16 0).keyLengthOk ∧
      (ops 0 24 0 15 0 0 16 0).ivlen.toNat = 16 ∧ (ops 0 24 0 15 0 0 16 0).slen.toNat % 16 ≠ 0 ∧
      (ops 0 24 0 0 0 0xff1 16 0).keyLengthOk ∧ (ops 0 24 0 0 0 0xff1 16 0).ivlen.toNat = 16 ∧
      (ops 0 24 0 0 0 0xff1 16 0).slen.toNat % 16 = 0 ∧ ¬ (ops 0 24 0 0 0 0xff1 16 0).ivRangeOk 16 ∧
      (ops 0 24 0xff1 16 0 0 16 0).keyLengthOk ∧ (ops 0 24 0xff1 16 0 0 16 0).ivlen.toNat = 16 ∧
      (ops 0 24 0xff1 16 0 0 16 0).slen.toNat % 16 = 0 ∧ ¬ (ops 0 24 0xff1 16 0 0 16 0).dataRangeOk := by
  decide +kernel

theorem witness_CtrCommandsTransformTheData :
    (ops 0xfe0 32 0xfef 17 0xfef 0xff0 16 0).keyLengthOk ∧
      (ops 0xfe0 32 0xfef 17 0xfef 0xff0 16 0).ivlen.toNat = 16 ∧
      (ops 0xfe0 32 0xfef 17 0xfef 0xff0 16 0).keyRangeOk ∧
      (ops 0xfe0 32 0xfef 17 0xfef 0xff0 16 0).ivRangeOk 16 ∧
      (ops 0xfe0 32 0xfef 17 0xfef 0xff0 16 0).dataRangeOk ∧
      (ops 0xfe0 32 0xfef 17 0xfef 0xff0 16 0).outRangeOk 17 := by
  decide +kernel

theorem witness_CtrCommandsTransformTheData_faults :
    ¬ (ops 0 33 0 0 0 0 16 0).keyLengthOk ∧ (ops 0 16 0 0 0 0 12 0).keyLengthOk ∧
      (ops 0 16 0 0 0 0 12 0).ivlen.toNat ≠ 16 ∧ (ops 0 16 0 1 0x1000 0 16 0).keyLengthOk ∧
      (ops 0 16 0 1 0x1000 0 16 0).ivlen.toNat = 16 ∧ ¬ (ops 0 16 0 1 0x1000 0 16 0).outRangeOk 1 ∧
      (ops 0 16 0 0 0 0xff1 16 0).keyLengthOk ∧ (ops 0 16 0 0 0 0xff1 16 0).ivlen.toNat = 16 ∧
      ¬ (ops 0 16 0 0 0 0xff1 16 0).ivRangeOk 16 := by
  decide +kernel

/-- The output ends where the tag begins; an empty output inside the tag. -/
theorem witness_GcmeWritesCiphertextAndTag :
    (ops 0xff0 16 0xfff 1 0xfef 0xff4 12 0xff0).keyLengthOk ∧
      (ops 0xff0 16 0xfff 1 0xfef 0xff4 12 0xff0).ivlen.toNat = 12 ∧
      (ops 0xff0 16 0xfff 1 0xfef 0xff4 12 0xff0).gcmRangesOk ∧
      ¬ (ops 0xff0 16 0xfff 1 0xfef 0xff4 12 0xff0).outputsOverlap ∧
      (ops 0xff0 16 0 0 0xff8 0xff4 12 0xff0).keyLengthOk ∧
      (ops 0xff0 16 0 0 0xff8 0xff4 12 0xff0).ivlen.toNat = 12 ∧
      (ops 0xff0 16 0 0 0xff8 0xff4 12 0xff0).gcmRangesOk ∧
      ¬ (ops 0xff0 16 0 0 0xff8 0xff4 12 0xff0).outputsOverlap := by
  decide +kernel

theorem witness_GcmeWritesCiphertextAndTag_faults :
    ¬ (ops 0 15 0 0 0 0 12 0).keyLengthOk ∧ (ops 0 16 0 0 0 0 16 0).keyLengthOk ∧
      (ops 0 16 0 0 0 0 16 0).ivlen.toNat ≠ 12 ∧ (ops 0 16 0 0 0 0xff5 12 0).keyLengthOk ∧
      (ops 0 16 0 0 0 0xff5 12 0).ivlen.toNat = 12 ∧ ¬ (ops 0 16 0 0 0 0xff5 12 0).gcmRangesOk ∧
      (ops 0 16 0 1 0xff0 0 12 0xff0).keyLengthOk ∧ (ops 0 16 0 1 0xff0 0 12 0xff0).ivlen.toNat = 12 ∧
      (ops 0 16 0 1 0xff0 0 12 0xff0).outputsOverlap ∧ (ops 0 16 0 2 0xfef 0 12 0xff0).keyLengthOk ∧
      (ops 0 16 0 2 0xfef 0 12 0xff0).ivlen.toNat = 12 ∧
      (ops 0 16 0 2 0xfef 0 12 0xff0).outputsOverlap := by
  decide +kernel

/-- The right tag of the empty message (V83), and the same with one bit flipped. -/
theorem witness_GcmdVerifiesThenDecrypts :
    gcmdState.mem.wf ∧ (gcmdState.memWrite 0x30f [0xfd]).mem.wf ∧ gcmdState.keyLengthOk ∧ gcmdState.ivlen.toNat = 12 ∧ gcmdState.gcmRangesOk ∧
      gcmTag gcmdState.keyOperand gcmdState.nonceOperand gcmdState.aadOperand gcmdState.dataOperand =
        gcmdState.tagOperand ∧
      gcmTag gcmdState.keyOperand gcmdState.nonceOperand gcmdState.aadOperand gcmdState.dataOperand ≠
        (gcmdState.memWrite 0x30f [0xfd]).tagOperand := by
  decide +kernel

theorem witness_GcmdVerifiesThenDecrypts_faults :
    ¬ (ops 0 15 0 0 0 0 12 0).keyLengthOk ∧ (ops 0 16 0 0 0 0 16 0).keyLengthOk ∧
      (ops 0 16 0 0 0 0 16 0).ivlen.toNat ≠ 12 ∧ (ops 0 16 0 0 0 0 12 0xff1).keyLengthOk ∧
      (ops 0 16 0 0 0 0 12 0xff1).ivlen.toNat = 12 ∧ ¬ (ops 0 16 0 0 0 0 12 0xff1).gcmRangesOk := by
  decide +kernel

/-! ### The algorithms -/

/-- The three key lengths, and the three schedule lengths. -/
theorem witness_keyLengths :
    (∀ n ∈ [16, 24, 32], Claims.KeyLength (zeros n)) ∧ ∀ n ∈ [176, 208, 240], Claims.ScheduleLength (zeros n) := by
  unfold Claims.KeyLength Claims.ScheduleLength
  decide +kernel

theorem witness_ByteFieldLaws : (0x01 : Byte) ≠ 0 ∧ gmul8 0x53 0xca = 0x01 := by decide +kernel

theorem witness_SboxTablesAreTheirDefinitions : (0xca : Byte) = inv8 0x53 := by decide +kernel

theorem witness_BlockBitNumbering : (zeros 16).length = 16 ∧ 0 < 128 ∧ 127 < 128 := by decide

theorem witness_BlockFieldLaws : (rep 0xff 16).length = 16 ∧ (zeros 16).length = 16 := by decide

/-- A word at a boundary, one in the middle of an eight-word key, one that is neither, the last one. -/
theorem witness_KeyScheduleRecurrence :
    Claims.KeyLength (zeros 32) ∧
      ∀ i ∈ [8, 12, 13, 59], (zeros 32).length / 4 ≤ i ∧ i < 4 * ((zeros 32).length / 4 + 7) := by
  unfold Claims.KeyLength
  decide +kernel

theorem witness_RoundStages :
    (zeros 16).length = 16 ∧ (rep 0xff 16).length = 16 ∧ 15 < 16 ∧ 3 < 4 := by decide

theorem witness_BlockTransformsAreInverse :
    (zeros 16).length = 16 ∧ Claims.ScheduleLength (zeros 176) ∧ Claims.ScheduleLength (rep 0x20 240) := by
  unfold Claims.ScheduleLength
  decide +kernel

/-- The schedule in front of the output, and the second output at the end of memory. -/
theorem witness_DecbUndoesEncb :
    blockState.mem.wf ∧ (∃ t, exec .encb blockState = .next t ∧ t.err = 0) ∧
      (∀ k, k < blockState.klen.toNat → Claims.Outside (blockState.keyp.toNat + k) blockState.dst.toNat 16) ∧
      blockState.rangeValid (0xff0 : Word).toNat 16 := by
  unfold Claims.Outside
  exact ⟨by decide +kernel, ends (by decide +kernel), by decide +kernel, by decide +kernel⟩

theorem witness_PaddingFillsTheTail :
    (zeros 0).length ≤ 16 ∧ (zeros 15).length ≤ 16 ∧ (zeros 16).length = 16 ∧
      ((zeros 15).length ≤ 15 ∧ 15 < 16) := by
  decide

theorem witness_EcbBlocksAreIndependent :
    Claims.KeyLength (zeros 24) ∧ (zeros 48).length % 16 = 0 ∧ 0 < (zeros 48).length / 16 ∧
      2 < (zeros 48).length / 16 ∧ Claims.blockAt (zeros 48) 0 = Claims.blockAt (zeros 48) 2 := by
  unfold Claims.KeyLength
  decide +kernel

theorem witness_EcbRoundTrip :
    Claims.KeyLength (zeros 32) ∧ (zeros 32).length % 16 = 0 ∧ 1 < (zeros 32).length / 16 := by
  unfold Claims.KeyLength
  decide +kernel

theorem witness_CbcChaining :
    Claims.KeyLength (zeros 16) ∧ (zeros 16).length = 16 ∧ (zeros 32).length % 16 = 0 ∧
      0 < (zeros 32).length / 16 ∧ 1 < (zeros 32).length / 16 := by
  unfold Claims.KeyLength
  decide +kernel

/-- Four blocks, of which the second is changed. -/
theorem witness_CbcRoundTripAndLocality :
    Claims.KeyLength (zeros 16) ∧ (zeros 16).length = 16 ∧ (rep 0xff 16).length = 16 ∧
      (zeros 64).length % 16 = 0 ∧ ((zeros 64).set 16 0x01).length = (zeros 64).length ∧
      (∀ i < 64, Claims.Outside i (16 * 1) 16 → ((zeros 64).set 16 0x01)[i]? = (zeros 64)[i]?) ∧
      Claims.Outside 15 (16 * 1) 32 ∧ Claims.Outside 48 (16 * 1) 32 := by
  unfold Claims.KeyLength Claims.Outside
  decide +kernel

theorem witness_CounterIncrement : (rep 0xff 16).length = 16 ∧ (zeros 16).length = 16 := by decide

theorem witness_CtrKeystream :
    Claims.KeyLength (zeros 16) ∧ (rep 0xff 16).length = 16 ∧ 0 < (zeros 17).length ∧ 16 < (zeros 17).length := by
  unfold Claims.KeyLength
  decide +kernel

theorem witness_CtrIsItsOwnInverse :
    Claims.KeyLength (zeros 24) ∧ (rep 0xff 16).length = 16 ∧ 16 < (zeros 17).length ∧ 16 < (rep 0xff 16 ++ [0x00]).length ∧
      (rep 0xff 16 ++ [0x00]).getD 16 0 = (zeros 17).getD 16 0 := by
  unfold Claims.KeyLength
  decide +kernel

theorem witness_LengthBlock : (zeros 0).length < 2 ^ 32 ∧ (zeros 20).length < 2 ^ 32 := by decide +kernel

theorem witness_GcmCountersStayInLowWord :
    (rep 0xff 12).length = 12 ∧ 0 ≤ 2 ^ 28 ∧ 2 ^ 28 ≤ 2 ^ 28 ∧ Claims.KeyLength (zeros 16) ∧
      0 < (zeros 17).length ∧ 16 < (zeros 17).length := by
  unfold Claims.KeyLength
  decide +kernel

theorem witness_EmptyMessageTag : Claims.KeyLength (zeros 32) ∧ (zeros 12).length = 12 := by
  unfold Claims.KeyLength
  decide +kernel

theorem witness_GcmRoundTripAndTagCheck :
    Claims.KeyLength (zeros 16) ∧ (zeros 12).length = 12 ∧ [] ≠ gcmTag (zeros 16) (zeros 12) [] [] := by
  unfold Claims.KeyLength
  decide +kernel

/-- The first bit of the first byte, the last bit of the last; a hash subkey that is not zero. -/
theorem witness_CiphertextBitFlipIsDetected :
    Claims.KeyLength (zeros 16) ∧ (zeros 12).length = 12 ∧ hashSubkey (expandKey (zeros 16)) ≠ zeros 16 ∧
      0 < (zeros 17).length ∧ 16 < (zeros 17).length ∧ 0 < 8 ∧ 7 < 8 := by
  unfold Claims.KeyLength
  decide +kernel

/-! ### Isolation -/

/-- Another history: another epoch, another key register, another byte in front of the data. -/
def otherHistory : State :=
  { padState.memWrite 0xff [0xee] with memEpoch := 5, keyp := 0x77, status := 0x105, cmd := 0x17 }

theorem witness_CommandDependsOnItsOperandsOnly :
    padState.mem.wf ∧ otherHistory.mem.wf ∧ otherHistory.memBytes = padState.memBytes ∧
      (∀ r ∈ Claims.readRegs (.padb (.scheme .zero)), otherHistory.reg r = padState.reg r) ∧
      (∀ r ∈ Claims.inputRanges (.padb (.scheme .zero)) padState, ∀ k, k < r.2 →
        otherHistory.byteAt (r.1 + k) = padState.byteAt (r.1 + k)) ∧
      (∃ t, exec (.padb (.scheme .zero)) padState = .next t ∧ t.err = 0) ∧
      ∃ t, exec (.padb (.scheme .zero)) otherHistory = .next t :=
  ⟨by decide +kernel, by decide +kernel, by decide +kernel, by decide +kernel, by decide +kernel,
    ends (by decide +kernel), runs (by decide +kernel)⟩

/-- Another history for `GCMD`: its key, nonce and tag stand in memory, the rest differs. -/
def otherGcmHistory : State :=
  { gcmdState.memWrite 0x200 [0xee] with memEpoch := 5, status := 0x109, rlen := 0, cmd := 0x02 }

theorem witness_CommandDependsOnItsOperandsOnly_gcmd :
    gcmdState.mem.wf ∧ otherGcmHistory.mem.wf ∧ otherGcmHistory.memBytes = gcmdState.memBytes ∧
      (∀ r ∈ Claims.readRegs .gcmd, otherGcmHistory.reg r = gcmdState.reg r) ∧
      (∀ r ∈ Claims.inputRanges .gcmd gcmdState, ∀ k, k < r.2 →
        otherGcmHistory.byteAt (r.1 + k) = gcmdState.byteAt (r.1 + k)) ∧
      (∃ t, exec .gcmd gcmdState = .next t ∧ t.err = 0) ∧ ∃ t, exec .gcmd otherGcmHistory = .next t :=
  ⟨by decide +kernel, by decide +kernel, by decide +kernel, by decide +kernel, by decide +kernel,
    ends (by decide +kernel), runs (by decide +kernel)⟩

/-- Another history for `CBCE`: its key, IV and data stand in memory, the rest differs. -/
def otherCbcHistory : State :=
  { withMessage.memWrite 0x300 [0xee] with memEpoch := 7, aadp := 0x55, tagp := 0x77, status := 0x101 }

theorem witness_CommandDependsOnItsOperandsOnly_cbce :
    withMessage.mem.wf ∧ otherCbcHistory.mem.wf ∧ otherCbcHistory.memBytes = withMessage.memBytes ∧
      (∀ r ∈ Claims.readRegs .cbce, otherCbcHistory.reg r = withMessage.reg r) ∧
      (∀ r ∈ Claims.inputRanges .cbce withMessage, ∀ k, k < r.2 →
        otherCbcHistory.byteAt (r.1 + k) = withMessage.byteAt (r.1 + k)) ∧
      (∃ t, exec .cbce withMessage = .next t ∧ t.err = 0) ∧ ∃ t, exec .cbce otherCbcHistory = .next t :=
  ⟨by decide +kernel, by decide +kernel, by decide +kernel, by decide +kernel, by decide +kernel,
    ends (by decide +kernel), runs (by decide +kernel)⟩

/-- The output over its own input, and at the end of memory. -/
theorem witness_OutputDoesNotDependOnItsPlace :
    padState.mem.wf ∧
      (∃ t, exec (.padb (.scheme .zero)) { padState with dst := 0x100 } = .next t ∧ t.err = 0) ∧
      ∃ t, exec (.padb (.scheme .zero)) { padState with dst := 0xff0 } = .next t ∧ t.err = 0 :=
  ⟨by decide +kernel, ends (by decide +kernel), ends (by decide +kernel)⟩

/-- A platform of two engines: each with a command to come. -/
def platform : List State := [fresh.withFetchWord 32 0x17, padState.withFetchWord 32 0x04]

/-- Engine 0 steps, then engine 1 from the platform the first step left. -/
theorem witness_EnginesAreIndependent :
    platform[0]? = some (fresh.withFetchWord 32 0x17) ∧
      (∃ t, step (fresh.withFetchWord 32 0x17) = .next t) ∧
      ∃ es1 es2, stepInstance 0 platform = .next es1 ∧ stepInstance 1 es1 = .next es2 :=
  ⟨rfl, runs (by decide +kernel), _, _, rfl, rfl⟩

/-- A step that is refused. -/
theorem witness_EnginesAreIndependent_refused :
    step { fresh with pending := [.regRead 14] } = .refused .noSuchRegister ∧
      [{ fresh with pending := [.regRead 14] }][0]? = some { fresh with pending := [.regRead 14] } :=
  ⟨rfl, rfl⟩

theorem witness_FaultRecordIsSticky :
    (∃ m, Monitor.step { engine := fresh, faulted := true } = .next m ∧ m.faulted = true) ∧
      ∃ m, Monitor.step { engine := fresh, faulted := false } = .next m ∧ m.faulted = false :=
  ⟨⟨_, rfl, by decide⟩, ⟨_, rfl, by decide⟩⟩

theorem witness_GhashAndTag :
    (rep 0xff 16).length = 16 ∧ (zeros 0).length % 16 = 0 ∧ (zeros 32).length % 16 = 0 ∧
      Claims.KeyLength (zeros 24) ∧ (zeros 12).length = 12 := by
  unfold Claims.KeyLength
  decide +kernel

theorem witness_BlockFunctionsAreTheirRounds :
    (zeros 16).length = 16 ∧ Claims.ScheduleLength (zeros 176) ∧ Claims.ScheduleLength (zeros 240) := by
  unfold Claims.ScheduleLength
  decide +kernel

end Sys2Proof.Tests
end

section
/-! PROOFS. What the host's accesses and the commands do to the registers, to `STATUS` and `RLEN`, and to the
bytes of memory (spec/10_state.md rules R14, R16 to R19 and R22, spec/20_memory.md rule R25). -/

namespace Sys2Proof.Machine

open Sys2Proof.Claims

/-! ## What an update does to the named registers -/

@[simp] theorem State.memWrite_reg (s : State) (a : Nat) (v : Bytes) (r : Reg) :
    (s.memWrite a v).reg r = s.reg r := by
  cases r <;> rfl

theorem State.raise_reg_other (s : State) (f : ErrorCode) {r : Reg} (h1 : r ≠ .status)
    (h2 : r ≠ .rlen) : (s.raise f).reg r = s.reg r := by
  cases r <;> trivial

theorem State.succeed_reg_other (s : State) (n : Word) {r : Reg} (h1 : r ≠ .status)
    (h2 : r ≠ .rlen) : (s.succeed n).reg r = s.reg r := by
  cases r <;> trivial

theorem State.accept_reg_other (s : State) (w : Word) {r : Reg} (h : r ≠ .cmd) :
    (s.accept w).reg r = s.reg r := by
  cases r <;> trivial

theorem State.response_reg (s : State) (x : Response) (r : Reg) :
    State.reg { s with response := x } r = s.reg r := by
  cases r <;> rfl

theorem State.pending_reg (s : State) (ts : List Transaction) (r : Reg) :
    State.reg { s with pending := ts } r = s.reg r := by
  cases r <;> rfl

/-- A descriptor register holds what was written to it. -/
theorem State.setReg_reg_same (s : State) {r : Reg} (v : Word) (h : 4 ≤ r.number) :
    (s.setReg r v).reg r = v := by
  cases r <;> trivial

/-- A write of `STATUS`, `RLEN` or `BLKSZ` stores nothing. -/
theorem State.setReg_of_number_lt (s : State) {r : Reg} (v : Word) (hr : r ≠ .cmd)
    (h : r.number < 4) : s.setReg r v = s := by
  cases r <;> trivial

@[simp] theorem State.resetEngine_valid (s : State) : s.resetEngine.valid = false := by
  simp [State.valid]

@[simp] theorem State.resetEngine_err (s : State) : s.resetEngine.err = 0 := by
  simp [State.err]

/-! ## Register numbers -/

theorem Reg.number_le (r : Reg) : r.number ≤ 13 := by cases r <;> decide

theorem Reg.exists_ofNumber {n : Nat} (h : n ≤ 13) : ∃ r, Reg.ofNumber n = some r ∧ r.number = n := by
  interval_cases n <;> exact ⟨_, rfl, rfl⟩

theorem Reg.ofNumber_eq_none {n : Nat} (h : 13 < n) : Reg.ofNumber n = none := by
  cases hr : Reg.ofNumber n with
  | none => rfl
  | some r =>
    have := Reg.number_of_ofNumber hr
    have := Reg.number_le r
    omega

theorem isWriteOf_regWrite_number (r : Reg) (v : Word) :
    isWriteOf r (.regWrite r.number v) = true :=
  beq_self_eq_true r.number

/-! ## The host's register accesses -/

theorem perform_regWrite {n : Nat} {r : Reg} (v : Word) (s : State) (hn : Reg.ofNumber n = some r)
    (hr : r ≠ .cmd) :
    perform (.regWrite n v) s = .next { s.setReg r v with response := .done } := by
  simp only [perform, hostRegWrite, hn]

theorem perform_regRead {n : Nat} {r : Reg} (s : State) (hn : Reg.ofNumber n = some r) :
    perform (.regRead n) s = .next { s with response := .word (s.reg r) } := by
  simp only [perform, hostRegRead, hn]

theorem perform_cmdWrite (w : Word) (s : State) : perform (.regWrite 0 w) s = issue w s := rfl

/-! ## How a command ends, for the registers -/

/-- A command leaves every register but `STATUS` and `RLEN`, and the host's side. -/
theorem Ends.untouched {s t : State} (h : Ends s t) : Untouched s t := by
  cases h with
  | raised f _ ht =>
    subst ht
    exact ⟨fun _ h1 h2 => s.raise_reg_other f h1 h2, rfl, rfl, rfl, rfl⟩
  | stored v n _ ht =>
    subst ht
    exact ⟨fun r h1 h2 => by rw [State.succeed_reg_other _ n h1 h2, State.memWrite_reg],
      rfl, rfl, rfl, rfl⟩
  | storedTwo c g n _ _ _ ht =>
    subst ht
    exact ⟨fun r h1 h2 => by
      rw [State.succeed_reg_other _ n h1 h2, State.memWrite_reg, State.memWrite_reg],
      rfl, rfl, rfl, rfl⟩

/-- For the status registers there are two ends: a fault the engine raises, and a success. -/
theorem Ends.raise_or_succeed {s t : State} (h : Ends s t) :
    (∃ f, f ≠ .malformedInputError ∧ t = s.raise f) ∨ ∃ (u : State) (n : Word), t = u.succeed n := by
  cases h with
  | raised f hf ht => exact .inl ⟨f, hf, ht⟩
  | stored _ n _ ht => exact .inr ⟨_, n, ht⟩
  | storedTwo _ _ n _ _ _ ht => exact .inr ⟨_, n, ht⟩

theorem ErrorCode.code_mem {f : ErrorCode} (h : f ≠ .malformedInputError) :
    f.code ∈ [1, 2, 3, 4, 5, 7, 8, 9, 10] := by
  cases f <;> trivial

theorem Ends.reportsOutcome {s t : State} (h : Ends s t) : ReportsOutcome t := by
  obtain ⟨f, hf, rfl⟩ | ⟨u, n, rfl⟩ := h.raise_or_succeed
  · exact .inr ⟨f.code, f.code_mem hf, rfl⟩
  · exact .inl rfl

theorem Ends.status_fields {s t : State} (h : Ends s t) :
    t.valid = true ∧ t.statusReserved = 0 ∧ t.err ≤ 10 ∧ t.err ≠ 6 := by
  obtain ⟨f, hf, rfl⟩ | ⟨u, n, rfl⟩ := h.raise_or_succeed
  · rw [State.raise_err]
    exact ⟨s.raise_valid f, s.raise_statusReserved f, f.code_range.2, f.code_ne_six hf⟩
  · rw [State.succeed_err]
    exact ⟨u.succeed_valid n, u.succeed_statusReserved n, by decide, by decide⟩

/-- The word of a `CMD` write stays in `CMD` (rule R16). -/
theorem Ends.cmd_of_accept {s t : State} {w : Word} (h : Ends (s.accept w) t) : t.reg .cmd = w :=
  h.untouched.1 .cmd (by decide) (by decide)

/-! ## Which transactions can change a register -/

/-- The transactions that can change register `r`: a reset; for the first four registers a command; for a
descriptor register a host write of it (rules R14, R17, R18 and R22). -/
def MayChange (r : Reg) (x : Transaction) : Prop :=
  x = .reset ∨ (r.number < 4 ∧ isWriteOf .cmd x = true) ∨ (4 ≤ r.number ∧ isWriteOf r x = true)

theorem Performed.reg_eq {x : Transaction} {s u : State} {r : Reg} (h : Performed x s u)
    (hx : ¬ MayChange r x) : u.reg r = s.reg r := by
  cases h with
  | command w ht he =>
    have hr : 4 ≤ r.number := not_lt.mp fun hr => hx (.inr (.inl ⟨hr, by rw [ht]; rfl⟩))
    have hother : ∀ q : Reg, q.number < 4 → r ≠ q := by rintro q hq rfl; omega
    rw [he.untouched.1 r (hother _ (by decide)) (hother _ (by decide)),
      s.accept_reg_other w (hother _ (by decide))]
  | wrote q v ht hq hu =>
    rw [hu, State.response_reg]
    by_cases hqr : q = r
    · subst hqr
      have hlt : q.number < 4 := not_le.mp fun hge =>
        hx (.inr (.inr ⟨hge, by rw [ht]; exact isWriteOf_regWrite_number q v⟩))
      rw [s.setReg_of_number_lt v hq hlt]
    · exact s.setReg_reg_other v (Ne.symm hqr)
  | read q _ hu => rw [hu, State.response_reg]
  | stored a v _ _ hu => rw [hu, State.response_reg, State.memWrite_reg]
  | loaded a n _ _ hu => rw [hu, State.response_reg]
  | wasReset ht _ => exact absurd (.inl ht) hx

/-- A step keeps every register its transaction cannot change; an idle step keeps all of them. -/
theorem step_reg_eq {s t : State} {r : Reg} (h : step s = .next t)
    (hx : ∀ x rest, s.pending = x :: rest → ¬ MayChange r x) : t.reg r = s.reg r := by
  obtain ⟨-, rfl⟩ | ⟨x, rest, hp, hperf⟩ := step_cases h
  · rfl
  · rw [hperf.reg_eq (hx x rest hp), State.pending_reg]

/-- A transaction that is neither a `CMD` write nor a reset changes none of the first four registers. -/
theorem not_mayChange_of_number_lt {r : Reg} {x : Transaction} (hr : r.number < 4)
    (hx : isWriteOf .cmd x = false ∧ x ≠ .reset) : ¬ MayChange r x := by
  rintro (h | ⟨-, h⟩ | ⟨h, -⟩)
  · exact hx.2 h
  · simp [hx.1] at h
  · omega

/-! ## How a command ends, for the memory and `RLEN` -/

/-- Several byte sequences stored one after the other, each at its address. -/
def State.memWrites (s : State) : List (Nat × Bytes) → State
  | [] => s
  | o :: outs => (s.memWrite o.1 o.2).memWrites outs

theorem State.byteAt_memWrites_outside {s : State} {a : Nat} {outs : List (Nat × Bytes)}
    (hwf : s.mem.wf) (h : ∀ o ∈ outs, Outside a o.1 o.2.length) :
    (s.memWrites outs).byteAt a = s.byteAt a := by
  induction outs generalizing s with
  | nil => rfl
  | cons o outs ih =>
    obtain ⟨ho, hrest⟩ := List.forall_mem_cons.mp h
    rw [State.memWrites, ih (s.memWrite_mem_wf o.1 o.2 hwf) hrest,
      s.byteAt_memWrite_outside o.1 a o.2 hwf ho]

/-- `o` answers a next state in which a fault was raised, or in which exactly the ranges `ranges` (pointer
and length) were stored and the command succeeded with `RLEN = n`. `Ends` says the same without the
lengths and without `n`. -/
def AnswersWith (s : State) (ranges : List (Nat × Nat)) (n : Word)
    (o : Host.Outcome State Fault Refusal) : Prop :=
  (∃ f, o = .next (s.raise f)) ∨
    ∃ outs : List (Nat × Bytes), outs.map (fun p => (p.1, p.2.length)) = ranges ∧
      o = .next ((s.memWrites outs).succeed n)

section Checks

variable {s : State} {ranges : List (Nat × Nat)} {n : Word} {o : Host.Outcome State Fault Refusal}

theorem AnswersWith.raise (f : ErrorCode) : AnswersWith s ranges n (.next (s.raise f)) :=
  .inl ⟨f, rfl⟩

/-- A check of a command: it raises `f`, or the command goes on. -/
theorem AnswersWith.check {c : Prop} [Decidable c] {f : ErrorCode} (h : ¬ c → AnswersWith s ranges n o) :
    AnswersWith s ranges n (if c then .next (s.raise f) else o) := by
  split
  · exact .raise f
  · exact h ‹_›

/-- The end of a command with one output. -/
theorem AnswersWith.store {a k : Nat} {v : Bytes} (hv : v.length = k) :
    AnswersWith s [(a, k)] n (.next ((s.memWrite a v).succeed n)) :=
  .inr ⟨[(a, v)], by simp [hv], rfl⟩

/-- The end of a command with two outputs. -/
theorem AnswersWith.storeTwo {a b k l : Nat} {v w : Bytes} (hv : v.length = k) (hw : w.length = l) :
    AnswersWith s [(a, k), (b, l)] n (.next (((s.memWrite a v).memWrite b w).succeed n)) :=
  .inr ⟨[(a, v), (b, w)], by simp [hv, hw], rfl⟩

end Checks

theorem State.keyOperand_long {s : State} (h : ¬ ¬ s.keyLengthOk) : 16 ≤ s.keyOperand.length := by
  rw [State.keyOperand_length]
  exact s.keyLengthOk_ge (not_not.mp h)

theorem execKexp_answers (s : State) :
    AnswersWith s [(s.dst.toNat, scheduleLength s.klen.toNat)]
      (BitVec.ofNat 32 (scheduleLength s.klen.toNat)) (execKexp s) :=
  .check fun hk => .check fun _ => .store <| by
    have := State.keyOperand_long hk
    rw [expandKey_length (by omega), State.keyOperand_length, scheduleLength]

theorem blockCommand_answers {f : Bytes → Bytes → Bytes} (s : State)
    (hf : ∀ b {sch : Bytes}, 16 ≤ sch.length → (f b sch).length = 16) :
    AnswersWith s [(s.dst.toNat, 16)] 16 (blockCommand f s) :=
  .check fun hk => .check fun _ => .check fun _ => .store <| hf _ <| by
    rw [State.keyOperand_length]
    exact s.scheduleLengthOk_ge (not_not.mp hk)

theorem execPadb_answers (sch : SchemeField) (s : State) :
    AnswersWith s [(s.dst.toNat, 16)] 16 (execPadb sch s) := by
  cases sch with
  | unrecognized _ => exact .raise _
  | scheme sc =>
    exact .check fun hl => .check fun _ => .store <| padBlock_length sc <| by
      rw [State.dataOperand_length]
      exact not_lt.mp hl

theorem ecbCommand_answers {f : Bytes → Bytes → Bytes} (s : State)
    (hf : ∀ {d k : Bytes}, 16 ≤ k.length → d.length % 16 = 0 → (f d k).length = d.length) :
    AnswersWith s [(s.dst.toNat, s.slen.toNat)] s.slen (ecbCommand f s) :=
  .check fun hk => .check fun hl => .check fun _ => .store <| by
    rw [hf (State.keyOperand_long hk) (by simpa using hl), State.dataOperand_length]

theorem cbcCommand_answers {f : Bytes → Bytes → Bytes → Bytes} (s : State)
    (hf : ∀ {d k iv : Bytes}, 16 ≤ k.length → iv.length = 16 → d.length % 16 = 0 →
      (f d k iv).length = d.length) :
    AnswersWith s [(s.dst.toNat, s.slen.toNat)] s.slen (cbcCommand f s) :=
  .check fun hk => .check fun _ => .check fun hl => .check fun _ => .store <| by
    rw [hf (State.keyOperand_long hk) s.ivOperand_length (by simpa using hl),
      State.dataOperand_length]

theorem ctrCommand_answers (s : State) :
    AnswersWith s [(s.dst.toNat, s.slen.toNat)] s.slen (ctrCommand s) :=
  .check fun hk => .check fun _ => .check fun _ => .store <| by
    rw [ctrXcrypt_length _ _ (State.keyOperand_long hk), State.dataOperand_length]

theorem execGcme_answers (s : State) :
    AnswersWith s [(s.dst.toNat, s.slen.toNat), (s.tagp.toNat, 16)] s.slen (execGcme s) :=
  .check fun hk => .check fun _ => .check fun _ => .storeTwo
    (by
      rw [gcmEncryptAndTag, gcmCtr_length _ _ (State.keyOperand_long hk), State.dataOperand_length])
    (gcmTag_length _ _ _ (State.keyOperand_long hk))

/-- The plaintext of `GCMD` is as long as its ciphertext. -/
theorem gcmDecryptAndVerify_length {c k t n a p : Bytes} (hk : 16 ≤ k.length)
    (h : gcmDecryptAndVerify c k t n a = some p) : p.length = c.length := by
  rw [gcmDecryptAndVerify] at h
  split at h
  · cases h
  · cases h
    exact gcmCtr_length c n hk

theorem execGcmd_answers (s : State) :
    AnswersWith s [(s.dst.toNat, s.slen.toNat)] s.slen (execGcmd s) :=
  .check fun hk => .check fun _ => .check fun _ => by
    split
    · exact .raise _
    · rename_i p hp
      exact .store (by
        rw [gcmDecryptAndVerify_length (State.keyOperand_long hk) hp, State.dataOperand_length])

/-- `RLEN` after a success (rule R18). -/
def resultLength (s : State) : Instr → Word
  | .kexp => BitVec.ofNat 32 (scheduleLength s.klen.toNat)
  | .encb | .decb | .padb _ => 16
  | .ecbe | .ecbd | .cbce | .cbcd | .ctre | .ctrd | .gcme | .gcmd => s.slen

/-- A command faults, or it stores its output ranges and reports its result length. -/
theorem exec_answers (i : Instr) (s : State) :
    AnswersWith s (outputRanges i s) (resultLength s i) (exec i s) := by
  cases i with
  | kexp => exact execKexp_answers s
  | encb => exact blockCommand_answers s encryptBlock_length
  | decb => exact blockCommand_answers s decryptBlock_length
  | padb sch => exact execPadb_answers sch s
  | ecbe => exact ecbCommand_answers s ecbEncrypt_length
  | ecbd => exact ecbCommand_answers s ecbDecrypt_length
  | cbce => exact cbcCommand_answers s fun hk _ hd => cbcEncrypt_length _ hk hd
  | cbcd => exact cbcCommand_answers s cbcDecrypt_length
  | ctre => exact ctrCommand_answers s
  | ctrd => exact ctrCommand_answers s
  | gcme => exact execGcme_answers s
  | gcmd => exact execGcmd_answers s

/-- A next state of an answer is a fault's, or holds the stores. -/
theorem AnswersWith.next_cases {s t : State} {ranges : List (Nat × Nat)} {n : Word}
    (h : AnswersWith s ranges n (.next t)) :
    (∃ f, t = s.raise f) ∨ ∃ outs : List (Nat × Bytes),
      outs.map (fun p => (p.1, p.2.length)) = ranges ∧ t = (s.memWrites outs).succeed n := by
  simpa only [AnswersWith, Host.Outcome.next.injEq] using h

theorem exec_next_cases {i : Instr} {s t : State} (h : exec i s = .next t) :
    (∃ f, t = s.raise f) ∨ ∃ outs : List (Nat × Bytes),
      outs.map (fun p => (p.1, p.2.length)) = outputRanges i s ∧
        t = (s.memWrites outs).succeed (resultLength s i) :=
  (h ▸ exec_answers i s).next_cases

theorem ErrorCode.code_ne_zero (f : ErrorCode) : f.code ≠ 0 := by
  have := f.code_range
  omega

/-! ## `RLEN` after a command -/

theorem exec_rlen_of_fault {i : Instr} {s t : State} (h : exec i s = .next t) (he : t.err ≠ 0) :
    t.rlen = 0 := by
  obtain ⟨f, rfl⟩ | ⟨outs, -, rfl⟩ := exec_next_cases h
  · rfl
  · exact absurd (State.succeed_err _ _) he

theorem exec_rlen_of_success {i : Instr} {s t : State} (h : exec i s = .next t) (he : t.err = 0) :
    t.rlen = resultLength s i := by
  obtain ⟨f, rfl⟩ | ⟨outs, -, rfl⟩ := exec_next_cases h
  · exact absurd (s.raise_err f ▸ he) f.code_ne_zero
  · rfl

/-- `KEXP` succeeds with a key of a legal length only. -/
theorem execKexp_keyLengthOk {s t : State} (h : execKexp s = .next t) (he : t.err = 0) :
    s.keyLengthOk := by
  by_contra hk
  simp only [execKexp, if_pos hk, Host.Outcome.next.injEq] at h
  subst h
  exact ErrorCode.code_ne_zero _ (s.raise_err _ ▸ he)

theorem resultLength_kexp_mem {s : State} (h : s.keyLengthOk) :
    (resultLength s .kexp).toNat ∈ [176, 208, 240] := by
  rcases h with h | h | h <;> simp [resultLength, scheduleLength, h]

/-! ## The bytes a command can change -/

/-- The output ranges are read off the descriptor registers. -/
theorem outputRanges_congr {s t : State} (i : Instr) (h : ∀ r : Reg, 4 ≤ r.number → t.reg r = s.reg r) :
    outputRanges i t = outputRanges i s := by
  have hdst : t.dst = s.dst := h .dst (by decide)
  have hslen : t.slen = s.slen := h .slen (by decide)
  have hklen : t.klen = s.klen := h .klen (by decide)
  have htagp : t.tagp = s.tagp := h .tagp (by decide)
  cases i <;> simp only [outputRanges, hdst, hslen, hklen, htagp]

/-- A command changes a byte only when it succeeds and one of its output ranges holds it. -/
theorem exec_changes_outputs_only {i : Instr} {s t : State} {a : Nat} (hwf : s.mem.wf)
    (h : exec i s = .next t) (ha : t.byteAt a ≠ s.byteAt a) :
    t.err = 0 ∧ ∃ r ∈ outputRanges i s, ¬ Outside a r.1 r.2 := by
  obtain ⟨f, rfl⟩ | ⟨outs, hr, rfl⟩ := exec_next_cases h
  · exact absurd (s.byteAt_raise f a) ha
  · refine ⟨State.succeed_err _ _, ?_⟩
    by_contra! hout
    refine ha ?_
    rw [State.byteAt_succeed, State.byteAt_memWrites_outside hwf]
    intro o ho
    exact hout (o.1, o.2.length) (hr ▸ List.mem_map_of_mem ho)

theorem issue_changes_outputs_only {w : Word} {s t : State} {a : Nat} (hwf : s.mem.wf)
    (h : issue w s = .next t) (ha : t.byteAt a ≠ s.byteAt a) :
    ∃ i, decode w = .ok i ∧ t.err = 0 ∧ ∃ r ∈ outputRanges i s, ¬ Outside a r.1 r.2 := by
  rw [issue] at h
  split at h
  · cases h
    exact absurd rfl ha
  · rename_i i hi
    have hregs : ∀ r : Reg, 4 ≤ r.number → (s.accept w).reg r = s.reg r := fun r hr =>
      s.accept_reg_other w (by rintro rfl; exact absurd hr (by decide))
    exact ⟨i, hi, outputRanges_congr i hregs ▸ exec_changes_outputs_only hwf h ha⟩

/-- What one transaction changes in memory (rule R25), but for a `CMD` write, whose command `issue` runs. -/
theorem Performed.changes_byte {x : Transaction} {s u : State} {a : Nat} (h : Performed x s u)
    (hwf : s.mem.wf) (ha : u.byteAt a ≠ s.byteAt a) :
    x = .reset ∨ (∃ p v, x = .memWrite p v ∧ ¬ Outside a p.toNat v.length) ∨ ∃ w, x = .regWrite 0 w := by
  cases h with
  | command w ht _ => exact .inr (.inr ⟨w, ht⟩)
  | wrote r v _ _ hu =>
    subst hu
    exact absurd (s.byteAt_setReg r v a) ha
  | read _ _ hu =>
    subst hu
    exact absurd rfl ha
  | stored p v ht _ hu =>
    subst hu
    exact .inr (.inl ⟨p, v, ht, fun hout => ha (s.byteAt_memWrite_outside p.toNat a v hwf hout)⟩)
  | loaded _ _ _ _ hu =>
    subst hu
    exact absurd rfl ha
  | wasReset ht _ => exact .inl ht

theorem step_of_pending {s : State} {x : Transaction} {rest : List Transaction}
    (hp : s.pending = x :: rest) : step s = perform x { s with pending := rest } := by
  simp only [step, stepOnce, hp]

/-! ## The obligations -/

/-- Settles O19: a step changes a byte by its transaction alone, and a command stores into its output
ranges alone. -/
theorem memoryWrittenByNothingElse : Obligations.MemoryWrittenByNothingElse := by
  unfold Obligations.MemoryWrittenByNothingElse
  intro s t a hwf h ha
  obtain ⟨-, rfl⟩ | ⟨x, rest, hp, hperf⟩ := step_cases h
  · exact absurd rfl ha
  · refine ⟨x, rest, hp, ?_⟩
    obtain hreset | hmem | ⟨w, rfl⟩ := hperf.changes_byte hwf ha
    · exact .inl hreset
    · exact .inr (.inl hmem)
    · rw [step_of_pending hp, perform_cmdWrite] at h
      obtain ⟨i, hi, he, hout⟩ :=
        issue_changes_outputs_only (s := { s with pending := rest }) hwf h ha
      rw [outputRanges_congr i fun r _ => s.pending_reg rest r] at hout
      exact .inr (.inr ⟨w, i, rfl, hi, he, hout⟩)

/-- Settles O13: for a descriptor register the transactions that may change it are a host write of it and
a reset. -/
theorem descriptorRegistersKept : Obligations.DescriptorRegistersKept := by
  unfold Obligations.DescriptorRegistersKept
  intro s t r hr h hx
  refine step_reg_eq h fun x rest hp => ?_
  obtain ⟨hwrite, hreset⟩ := hx x rest hp
  rintro (hres | ⟨hlt, -⟩ | ⟨-, hw⟩)
  · exact hreset hres
  · omega
  · simp [hwrite] at hw

/-- Settles O14: a `CMD` write ends in one of the ways of `Ends`, and a step without one keeps the first
four registers. -/
theorem statusWrittenByCommandsOnly : Obligations.StatusWrittenByCommandsOnly := by
  unfold Obligations.StatusWrittenByCommandsOnly
  refine ⟨fun w s t h => ?_, fun s => ⟨_, rfl, s.resetEngine_status,
    s.resetEngine_valid, s.resetEngine_err⟩, fun s t h hx => ⟨?_, ?_⟩⟩
  · obtain ⟨u, hu, he⟩ := issue_ends w s
    obtain rfl : u = t := by simpa [hu] using h
    exact ⟨he.reportsOutcome, he.status_fields⟩
  · exact step_reg_eq (r := .status) h fun x rest hp =>
      not_mayChange_of_number_lt (by decide) (hx x rest hp)
  · exact step_reg_eq (r := .cmd) h fun x rest hp =>
      not_mayChange_of_number_lt (by decide) (hx x rest hp)

/-- Settles O15: `RLEN` is 0 after a fault and `resultLength` after a success, which the legal key lengths
bound for `KEXP`; a step without a `CMD` write keeps it. -/
theorem resultLengthReported : Obligations.ResultLengthReported := by
  unfold Obligations.ResultLengthReported
  refine ⟨fun i s t h => ⟨exec_rlen_of_fault h, fun he => ?_⟩, fun s t h hx => ?_⟩
  · have hlen := exec_rlen_of_success h he
    cases i with
    | kexp => exact hlen ▸ resultLength_kexp_mem (execKexp_keyLengthOk h he)
    | encb | decb | padb => exact congrArg BitVec.toNat hlen
    | ecbe | ecbd | cbce | cbcd | ctre | ctrd | gcme | gcmd => exact hlen
  · exact step_reg_eq (r := .rlen) h fun x rest hp =>
      not_mayChange_of_number_lt (by decide) (hx x rest hp)

/-- Settles O10: each range of register numbers has its access. -/
theorem hostRegisterAccess : Obligations.HostRegisterAccess := by
  unfold Obligations.HostRegisterAccess
  refine ⟨fun n v s h4 h13 => ?_, perform_cmdWrite, fun n v s h1 h3 => ?_, fun n s h13 => ?_,
    fun n v s hn => ?_⟩
  · obtain ⟨r, hr, rfl⟩ := Reg.exists_ofNumber h13
    have hcmd : r ≠ .cmd := by rintro rfl; exact absurd h4 (by decide)
    refine ⟨r, _, hr, perform_regWrite v s hr hcmd, ?_, fun q hq => ?_, s.setReg_mem r v,
      ⟨s.setReg_memBytes r v, s.setReg_memEpoch r v, s.setReg_pending r v, rfl⟩,
      s.byteAt_setReg r v⟩
    · rw [State.response_reg, s.setReg_reg_same v h4]
    · rw [State.response_reg, s.setReg_reg_other v hq]
  · obtain ⟨r, hr, rfl⟩ := Reg.exists_ofNumber (n := n) (by omega)
    have hcmd : r ≠ .cmd := by rintro rfl; exact absurd h1 (by decide)
    rw [perform_regWrite v s hr hcmd, s.setReg_of_number_lt v hcmd (by omega)]
  · obtain ⟨r, hr, -⟩ := Reg.exists_ofNumber h13
    exact ⟨r, hr, perform_regRead s hr⟩
  · simp only [perform, hostRegWrite, hostRegRead, Reg.ofNumber_eq_none hn, and_self]

/-- Settles O11: `BLKSZ` has no storage, so it reads 16 in every state. -/
theorem blockSizeIsSixteen : Obligations.BlockSizeIsSixteen := by
  unfold Obligations.BlockSizeIsSixteen
  have hn : Reg.ofNumber 3 = some .blksz := rfl
  exact fun s => ⟨perform_regRead s hn, fun v =>
    ⟨perform_regWrite v s hn (by decide), perform_regRead { s with response := .done } hn⟩⟩

/-- Settles O12: every end of a command leaves the word that `accept` stored. -/
theorem commandRegisterHoldsTheWord : Obligations.CommandRegisterHoldsTheWord := by
  unfold Obligations.CommandRegisterHoldsTheWord
  have hn : Reg.ofNumber 0 = some .cmd := rfl
  refine ⟨fun w s => ?_, fun s => ⟨_, rfl, perform_regRead s.resetEngine hn⟩⟩
  obtain ⟨t, ht, he⟩ := issue_ends w s
  refine ⟨t, ht, ht, he.cmd_of_accept, ?_⟩
  rw [perform_regRead t hn, he.cmd_of_accept]

end Sys2Proof.Machine
end

section
/-! PROOFS. Memory read after write, and the host's memory transactions (spec/20_memory.md rules R31 and
R32). -/

namespace Sys2Proof.Machine

open Sys2Proof.Claims

/-! ## A write, then a read of its range -/

theorem State.holds_memWrite (s : State) (a : Nat) (v : Bytes) (h : s.mem.wf) :
    Holds (s.memWrite a v) a v :=
  fun k hk => s.byteAt_memWrite_inside a k v h hk

/-- The bytes that stand at an address are what a read there returns. -/
theorem memRead_of_holds {t : State} {a : Nat} {v : Bytes} (h : Holds t a v) :
    t.memRead a v.length = v := by
  apply List.ext_getElem (t.memRead_length a v.length)
  intro i hread hi
  rw [t.memRead_getElem a v.length i hread, h i hi]

@[simp] theorem State.memRead_memWrite_same (s : State) (a : Nat) (v : Bytes) (h : s.mem.wf) :
    (s.memWrite a v).memRead a v.length = v :=
  memRead_of_holds (s.holds_memWrite a v h)

/-! ## The host's memory accesses -/

section Accesses

variable {s : State} {a : Word} {v : Bytes} {n : Nat}

theorem perform_memWrite (h : s.hostRangeOk a.toNat v.length) :
    perform (.memWrite a v) s = .next { s.memWrite a.toNat v with response := .done } :=
  if_pos h

theorem perform_memWrite_refused (h : ¬ s.hostRangeOk a.toNat v.length) :
    perform (.memWrite a v) s = .refused .hostRangeNotValid :=
  if_neg h

theorem perform_memRead (h : s.hostRangeOk a.toNat n) :
    perform (.memRead a n) s = .next { s with response := .bytes (s.memRead a.toNat n) } :=
  if_pos h

theorem perform_memRead_refused (h : ¬ s.hostRangeOk a.toNat n) :
    perform (.memRead a n) s = .refused .hostRangeNotValid :=
  if_neg h

end Accesses

/-! ## The obligations -/

/-- Settles O16: `byteAt` inside and outside the written range gives the three clauses, for in a memory in
canonical form each address is listed once. -/
theorem readAfterWrite : Obligations.ReadAfterWrite := by
  unfold Obligations.ReadAfterWrite
  exact fun s a v hwf => ⟨s.holds_memWrite a v hwf, s.memRead_memWrite_same a v hwf,
    fun x hx => s.byteAt_memWrite_outside a x v hwf hx, rfl⟩

/-- Settles O17: a valid range passes the host's check, and then the write is `memWrite` and the read is
`memRead`; a range that is not valid fails it. -/
theorem hostMemoryAccess : Obligations.HostMemoryAccess := by
  unfold Obligations.HostMemoryAccess
  refine ⟨fun s a v hwf hlen hvalid => ?_, fun s a n hlen hvalid => perform_memRead ⟨hlen, hvalid⟩,
    fun s a v hbad => perform_memWrite_refused fun hok => hbad hok.2,
    fun s a n hbad => perform_memRead_refused fun hok => hbad hok.2⟩
  refine ⟨_, perform_memWrite ⟨hlen, hvalid⟩, s.holds_memWrite a.toNat v hwf,
    fun x hx => s.byteAt_memWrite_outside a.toNat x v hwf hx, fun r => ?_, rfl, rfl, rfl, rfl⟩
  rw [State.response_reg, State.memWrite_reg]

end Sys2Proof.Machine
end

section
/-! PROOFS. The fields of a command word, and what the decoder and the encoder answer (spec/30_encoding.md
rules R47 and R49 to R51). -/

namespace Sys2Proof

/-! ## The fields of a word (rule R47) -/

theorem zeroField_toNat (w : Word) : (zeroField w).toNat = w.toNat / 65536 := by
  simp only [zeroField, BitVec.extractLsb'_toNat, Nat.shiftRight_eq_div_pow]
  omega

theorem schField_toNat (w : Word) : (schField w).toNat = w.toNat / 256 % 256 := by
  simp only [schField, BitVec.extractLsb'_toNat, Nat.shiftRight_eq_div_pow]

theorem opcField_toNat (w : Word) : (opcField w).toNat = w.toNat % 256 := by
  simp only [opcField, BitVec.extractLsb'_toNat, Nat.shiftRight_zero]

theorem zeroField_eq_zero_iff (w : Word) : zeroField w = 0 ↔ w.toNat / 65536 = 0 := by
  rw [← BitVec.toNat_inj, zeroField_toNat]
  rfl

theorem schField_eq_zero_iff (w : Word) : schField w = 0 ↔ w.toNat / 256 % 256 = 0 := by
  rw [← BitVec.toNat_inj, schField_toNat]
  rfl

theorem opcField_eq_padb_iff (w : Word) : opcField w = 0x04 ↔ w.toNat % 256 = 0x04 := by
  rw [← BitVec.toNat_inj, opcField_toNat]
  rfl

/-- The three fields make up the word. -/
theorem word_eq_iff_fields {v w : Word} :
    v = w ↔ zeroField v = zeroField w ∧ schField v = schField w ∧ opcField v = opcField w := by
  simp only [← BitVec.toNat_inj, zeroField_toNat, schField_toNat, opcField_toNat]
  omega

/-! ## The two tables of the decoder -/

theorem SchemeField.wellFormed_unrecognized {n : Nat} :
    (SchemeField.unrecognized n).wellFormed = true ↔ 4 ≤ n ∧ n < 256 := by
  simp only [SchemeField.wellFormed, Bool.and_eq_true, decide_eq_true_eq]

/-- The scheme of a value of `SCH` fits the field and has that number (rule R50). -/
theorem schemeOfSch_wellFormed_number (b : Byte) :
    (schemeOfSch b).wellFormed = true ∧ (schemeOfSch b).number = b.toNat := by
  unfold schemeOfSch
  split
  case h_5 =>
    have h4 : 4 ≤ b.toNat := by
      simp only [imp_false] at *
      omega
    exact ⟨SchemeField.wellFormed_unrecognized.2 ⟨h4, b.isLt⟩, rfl⟩
  all_goals exact ⟨rfl, Eq.symm ‹_›⟩

theorem schemeOfSch_of_four_le {b : Byte} (h : 4 ≤ b.toNat) :
    schemeOfSch b = .unrecognized b.toNat := by
  unfold schemeOfSch
  split
  case h_5 => rfl
  all_goals omega

/-- A well-formed scheme field is the one its number names. -/
theorem schemeOfSch_eq_of_number {b : Byte} {sch : SchemeField} (h : sch.wellFormed = true)
    (hb : b.toNat = sch.number) : schemeOfSch b = sch := by
  cases sch with
  | scheme sc =>
    unfold schemeOfSch
    rw [hb]
    cases sc <;> rfl
  | unrecognized n =>
    have hn : b.toNat = n := hb
    obtain ⟨h4, -⟩ := SchemeField.wellFormed_unrecognized.1 h
    rw [schemeOfSch_of_four_le (hn ▸ h4), hn]

/-- The opcode table holds commands without an operand, each under its own opcode (rule R51). -/
theorem plainCommand_some {opc : Byte} {i : Instr} (h : plainCommand opc = some i) :
    i.wellFormed = true ∧ i.schNumber = 0 ∧ i.opcode = opc.toNat := by
  unfold plainCommand at h
  split at h <;> cases h <;> exact ⟨rfl, rfl, Eq.symm ‹_›⟩

theorem plainCommand_eq_none_iff {opc : Byte} :
    plainCommand opc = none ↔
      opc.toNat = 0x00 ∨ (0x04 ≤ opc.toNat ∧ opc.toNat ≤ 0x0F) ∨ 0x18 ≤ opc.toNat := by
  unfold plainCommand
  split
  case h_12 =>
    refine iff_of_true rfl ?_
    simp only [imp_false] at *
    omega
  all_goals exact iff_of_false nofun (by omega)

/-! ## What the decoder answers (rule R49) -/

theorem decode_eq_ok_iff {w : Word} {i : Instr} :
    decode w = .ok i ↔ zeroField w = 0 ∧
      ((opcField w = 0x04 ∧ i = .padb (schemeOfSch (schField w))) ∨
        (schField w = 0 ∧ plainCommand (opcField w) = some i)) := by
  unfold decode
  split
  · simp_all
  · split
    · rename_i h4
      have hnone : plainCommand (opcField w) = none := by rw [h4]; rfl
      simp_all [eq_comm (a := i)]
    · split
      · simp_all
      · split <;> simp_all

theorem decode_eq_error_iff {w : Word} :
    (∃ e, decode w = .error e) ↔ ¬ zeroField w = 0 ∨
      (¬ opcField w = 0x04 ∧ (plainCommand (opcField w) = none ∨ ¬ schField w = 0)) := by
  unfold decode
  split
  · simp_all
  · split
    · simp_all
    · split
      · simp_all
      · split <;> simp_all

/-! ## The encoder (rule R47) -/

theorem Instr.encodingFields (i : Instr) : Laws.EncodingFields.Statement i := by
  cases i with
  | kexp => exact Laws.EncodingFields.kexp
  | encb => exact Laws.EncodingFields.encb
  | decb => exact Laws.EncodingFields.decb
  | padb sch => exact Laws.EncodingFields.padb sch
  | ecbe => exact Laws.EncodingFields.ecbe
  | ecbd => exact Laws.EncodingFields.ecbd
  | cbce => exact Laws.EncodingFields.cbce
  | cbcd => exact Laws.EncodingFields.cbcd
  | ctre => exact Laws.EncodingFields.ctre
  | ctrd => exact Laws.EncodingFields.ctrd
  | gcme => exact Laws.EncodingFields.gcme
  | gcmd => exact Laws.EncodingFields.gcmd

theorem Instr.opcode_lt (i : Instr) : i.opcode < 256 := by
  cases i <;> simp [Instr.opcode]

/-- A word is the word of a well-formed command when its fields are the command's. -/
theorem encode_eq_iff_fields {i : Instr} {w : Word} (h : i.wellFormed = true) :
    encode i = w ↔
      zeroField w = 0 ∧ (schField w).toNat = i.schNumber ∧ (opcField w).toNat = i.opcode := by
  obtain ⟨hword, hlt, -⟩ := i.encodingFields h
  have hopc := i.opcode_lt
  rw [zeroField_eq_zero_iff, schField_toNat, opcField_toNat, ← BitVec.toNat_inj]
  omega

/-! ## The two round trips -/

theorem encode_of_decode {w : Word} {i : Instr} (h : decode w = .ok i) :
    i.wellFormed = true ∧ encode i = w := by
  obtain ⟨hz, ⟨h4, rfl⟩ | ⟨hsch, hi⟩⟩ := decode_eq_ok_iff.1 h
  · obtain ⟨hwf, hn⟩ := schemeOfSch_wellFormed_number (schField w)
    exact ⟨hwf, (encode_eq_iff_fields (i := .padb _) hwf).2
      ⟨hz, hn.symm, congrArg BitVec.toNat h4⟩⟩
  · obtain ⟨hwf, hn, hopc⟩ := plainCommand_some hi
    exact ⟨hwf, (encode_eq_iff_fields hwf).2
      ⟨hz, (congrArg BitVec.toNat hsch).trans hn.symm, hopc.symm⟩⟩

theorem decode_encode {i : Instr} (h : i.wellFormed = true) : decode (encode i) = .ok i := by
  cases i with
  | padb sch =>
    obtain ⟨hz, hsch, hopc⟩ := (encode_eq_iff_fields h).1 rfl
    exact decode_eq_ok_iff.2
      ⟨hz, .inl ⟨BitVec.eq_of_toNat_eq hopc, congrArg _ (schemeOfSch_eq_of_number h hsch).symm⟩⟩
  | kexp | encb | decb | ecbe | ecbd | cbce | cbcd | ctre | ctrd | gcme | gcmd => rfl

theorem decode_eq_ok_iff_encode {w : Word} {i : Instr} (h : i.wellFormed = true) :
    decode w = .ok i ↔ encode i = w :=
  ⟨fun hd => (encode_of_decode hd).2, fun he => he ▸ decode_encode h⟩

/-- No two well-formed commands share a word. -/
theorem encode_injective {i j : Instr} (hi : i.wellFormed = true) (hj : j.wellFormed = true)
    (h : encode i = encode j) : i = j := by
  simpa only [← h, decode_encode hi, Except.ok.injEq] using decode_encode hj

/-! ## Masks and matches (rule R51) -/

/-- A command without an operand has the full mask and its word as match. -/
theorem decode_eq_ok_iff_fullMask {w : Word} {i : Instr} (h : i.wellFormed = true) :
    decode w = .ok i ↔ w &&& 0xFFFFFFFF = encode i := by
  have hmask : w &&& 0xFFFFFFFF = w := BitVec.and_allOnes
  rw [decode_eq_ok_iff_encode h, hmask, eq_comm]

theorem decode_padb_iff {w : Word} :
    (∃ sch, decode w = .ok (.padb sch)) ↔ zeroField w = 0 ∧ opcField w = 0x04 := by
  constructor
  · rintro ⟨sch, h⟩
    obtain ⟨hwf, he⟩ := encode_of_decode h
    obtain ⟨hz, -, hopc⟩ := (encode_eq_iff_fields hwf).1 he
    exact ⟨hz, BitVec.eq_of_toNat_eq hopc⟩
  · rintro ⟨hz, h4⟩
    exact ⟨_, decode_eq_ok_iff.2 ⟨hz, .inl ⟨h4, rfl⟩⟩⟩

/-- The mask of `PADB` keeps `ZERO` and `OPC` and clears `SCH`. -/
theorem padbMask_eq_iff {w : Word} :
    w &&& 0xFFFF00FF = 0x00000004 ↔ zeroField w = 0 ∧ opcField w = 0x04 := by
  have hz : zeroField (w &&& 0xFFFF00FF) = zeroField w :=
    BitVec.extractLsb'_and.trans BitVec.and_allOnes
  have hs : schField (w &&& 0xFFFF00FF) = 0 := BitVec.extractLsb'_and.trans BitVec.and_zero
  have ho : opcField (w &&& 0xFFFF00FF) = opcField w :=
    BitVec.extractLsb'_and.trans BitVec.and_allOnes
  rw [word_eq_iff_fields, hz, hs, ho]
  exact ⟨fun ⟨h1, _, h3⟩ => ⟨h1, h3⟩, fun ⟨h1, h3⟩ => ⟨h1, rfl, h3⟩⟩

end Sys2Proof
end

section
/-! PROOFS. The encoding: masks and matches, scheme numbers, illegal words, and the listing's commands
(spec/30_encoding.md rules R50 to R52 and R56). -/

namespace Sys2Proof.Machine

/-! ## A `CMD` write, by what its word decodes to -/

theorem issue_of_decode_ok {w : Word} {i : Instr} (s : State) (h : decode w = .ok i) :
    issue w s = exec i (s.accept w) := by
  simp only [issue, h]

theorem issue_of_decode_error {w : Word} {e : IllegalWord} (s : State) (h : decode w = .error e) :
    issue w s = .next ((s.accept w).raise .illegalCommand) := by
  simp only [issue, h]

/-! ## The obligations -/

/-- Settles O4: a command without an operand is the word of its encoding, and `PADB` is fixed by its fields
`ZERO` and `OPC`. -/
theorem matchAndMaskDecode : Obligations.MatchAndMaskDecode := by
  unfold Obligations.MatchAndMaskDecode
  exact fun w => ⟨decode_eq_ok_iff_fullMask (i := .kexp) rfl,
    decode_eq_ok_iff_fullMask (i := .encb) rfl, decode_eq_ok_iff_fullMask (i := .decb) rfl,
    decode_padb_iff.trans padbMask_eq_iff.symm,
    decode_eq_ok_iff_fullMask (i := .ecbe) rfl, decode_eq_ok_iff_fullMask (i := .ecbd) rfl,
    decode_eq_ok_iff_fullMask (i := .cbce) rfl, decode_eq_ok_iff_fullMask (i := .cbcd) rfl,
    decode_eq_ok_iff_fullMask (i := .ctre) rfl, decode_eq_ok_iff_fullMask (i := .ctrd) rfl,
    decode_eq_ok_iff_fullMask (i := .gcme) rfl, decode_eq_ok_iff_fullMask (i := .gcmd) rfl⟩

/-- Settles O6: the decoder's three reasons to refuse a word, read as numbers, are the rule's list, and a
write of such a word ends in `raise`. -/
theorem illegalWordsFault : Obligations.IllegalWordsFault := by
  unfold Obligations.IllegalWordsFault
  refine ⟨fun w => ?_, ⟨.unknownOpcode, rfl⟩, fun w s ⟨e, he⟩ => ?_⟩
  · rw [decode_eq_error_iff, plainCommand_eq_none_iff, zeroField_eq_zero_iff,
      opcField_eq_padb_iff, schField_eq_zero_iff, opcField_toNat]
    omega
  · have hend : Ends (s.accept w) ((s.accept w).raise .illegalCommand) :=
      .raised _ (by decide) rfl
    exact ⟨_, issue_of_decode_error s he, rfl, rfl, rfl, hend.untouched,
      (s.accept w).byteAt_raise .illegalCommand⟩

/-- Settles O8: the write of the line's word is `issue`, the word decodes to the command, and so no other
command has it. -/
theorem listingCommandIsOneWrite : Obligations.ListingCommandIsOneWrite := by
  unfold Obligations.ListingCommandIsOneWrite
  exact fun i s hi => ⟨rfl,
    (perform_cmdWrite (encode i) s).trans (issue_of_decode_ok s (decode_encode hi)),
    fun j hj h => encode_injective hj hi h⟩

/-- Settles O5: the word of `PADB` with each scheme field decodes to it, and `PADB` judges the scheme
before anything else. -/
theorem schemeNumbers : Obligations.SchemeNumbers := by
  unfold Obligations.SchemeNumbers
  refine ⟨decode_encode (i := .padb (.scheme .pkcs7)) rfl,
    decode_encode (i := .padb (.scheme .iso7816)) rfl,
    decode_encode (i := .padb (.scheme .whitespace)) rfl,
    decode_encode (i := .padb (.scheme .zero)) rfl, fun n h4 h256 => ?_⟩
  have hd : decode (BitVec.ofNat 32 (n * 256 + 4)) = .ok (.padb (.unrecognized n)) :=
    decode_encode (i := .padb (.unrecognized n)) (SchemeField.wellFormed_unrecognized.2 ⟨h4, h256⟩)
  exact ⟨hd, fun s => ⟨_, issue_of_decode_ok s hd, rfl⟩⟩

end Sys2Proof.Machine
end

section
/-! PROOFS. Multiplication by shift and add, for the two fields at once (spec/40_gf_and_tables.md rules R62 and
R71): both multipliers add up the multiples `x^i · v` that the bits of the other operand select. From "the
shift is additive" and "the multiples of one are the bits" follow the laws of rules R63 and R72. -/

namespace Sys2Proof.Machine

variable {w : Nat}

/-! ## Maps that keep `xor` -/

/-- `f` is linear over the two-element field. -/
def XorLinear (f : BitVec w → BitVec w) : Prop := ∀ u v, f (u ^^^ v) = f u ^^^ f v

theorem XorLinear.map_zero {f : BitVec w → BitVec w} (hf : XorLinear f) : f 0 = 0 := by
  have h := hf 0 0
  rwa [BitVec.xor_self, BitVec.xor_self] at h

theorem XorLinear.iterate {f : BitVec w → BitVec w} (hf : XorLinear f) (n : Nat) :
    XorLinear f^[n] :=
  Function.Semiconj₂.iterate (op := (· ^^^ ·)) hf n

theorem XorLinear.map_ite {f : BitVec w → BitVec w} (hf : XorLinear f) (b : Bool) (v : BitVec w) :
    f (if b then v else 0) = if b then f v else 0 := by
  cases b
  · exact hf.map_zero
  · rfl

theorem ite_xor (b : Bool) (u v : BitVec w) :
    (if b then u ^^^ v else 0) = (if b then u else 0) ^^^ (if b then v else 0) := by
  cases b <;> simp

theorem xor_ite (b : Bool) (u v : BitVec w) :
    (if b then u ^^^ v else u) = u ^^^ (if b then v else 0) := by
  cases b <;> simp

/-- A shift that adds the reduction constant `r` when a bit falls out is linear when shifting and reading that
bit are. -/
theorem xorLinear_reducingShift {s : BitVec w → BitVec w} {out : BitVec w → Bool} (r : BitVec w)
    (hs : XorLinear s) (hout : ∀ u v, out (u ^^^ v) = (out u ^^ out v)) :
    XorLinear fun v => if out v then s v ^^^ r else s v := by
  intro u v
  have hr : (if out u ^^ out v then r else 0) = (if out u then r else 0) ^^^ (if out v then r else 0) := by
    cases out u <;> cases out v <;> simp
  simp only [xor_ite, hs u v, hout u v, hr]
  ac_rfl

/-! ## The sum of selected multiples -/

/-- The sum of `x^i · v` over the `i < n` that `c` selects, where `sh` multiplies by `x`. -/
def shiftSum (sh : BitVec w → BitVec w) (c : Nat → Bool) (v : BitVec w) : Nat → BitVec w
  | 0 => 0
  | n + 1 => shiftSum sh c v n ^^^ (if c n then sh^[n] v else 0)

/-- A linear map that commutes with the shift goes through the sum. -/
theorem map_shiftSum {f sh : BitVec w → BitVec w} (hf : XorLinear f) (hc : Function.Commute f sh)
    (c : Nat → Bool) (v : BitVec w) (n : Nat) :
    f (shiftSum sh c v n) = shiftSum sh c (f v) n := by
  induction n with
  | zero => exact hf.map_zero
  | succ n ih => rw [shiftSum, shiftSum, hf, ih, hf.map_ite, (hc.iterate_right n).eq]

theorem xorLinear_shiftSum {sh : BitVec w → BitVec w} (hsh : XorLinear sh) (c : Nat → Bool) (n : Nat) :
    XorLinear fun v => shiftSum sh c v n := by
  intro u v
  induction n with
  | zero => simp [shiftSum]
  | succ n ih =>
    simp only [shiftSum] at ih ⊢
    rw [ih, hsh.iterate n, ite_xor]
    ac_rfl

theorem commute_shiftSum {sh : BitVec w → BitVec w} (hsh : XorLinear sh) (c : Nat → Bool) (n : Nat) :
    Function.Commute (fun v => shiftSum sh c v n) sh :=
  fun v => (map_shiftSum hsh (Function.Commute.refl sh) c v n).symm

/-! ## The multiplication -/

/-- The multiplier by shift and add: `coef u i` is the coefficient of `x^i` in `u`. -/
def shiftMul (sh : BitVec w → BitVec w) (coef : BitVec w → Nat → Bool) (u v : BitVec w) : BitVec w :=
  shiftSum sh (coef u) v w

/-- What makes the multiplier that of a commutative ring: a linear shift, and every element the sum of the
multiples of `one` that its coefficients select. -/
structure ShiftRing (sh : BitVec w → BitVec w) (coef : BitVec w → Nat → Bool) (one : BitVec w) : Prop where
  shift_linear : XorLinear sh
  expand : ∀ u, shiftSum sh (coef u) one w = u

namespace ShiftRing

variable {sh : BitVec w → BitVec w} {coef : BitVec w → Nat → Bool} {one : BitVec w}
  (h : ShiftRing sh coef one)

include h

theorem linear_right (u : BitVec w) : XorLinear (shiftMul sh coef u) :=
  xorLinear_shiftSum h.shift_linear (coef u) w

theorem commute_shift (u : BitVec w) : Function.Commute (shiftMul sh coef u) sh :=
  commute_shiftSum h.shift_linear (coef u) w

theorem mul_one (u : BitVec w) : shiftMul sh coef u one = u := h.expand u

/-- Multiplication by `u` is linear and commutes with the shift, so its value at `v`, the sum of multiples of
one, is the sum of the same multiples of `u`. -/
theorem mul_comm (u v : BitVec w) : shiftMul sh coef u v = shiftMul sh coef v u := by
  have hv := map_shiftSum (h.linear_right u) (h.commute_shift u) (coef v) one w
  rwa [h.expand, h.mul_one] at hv

theorem mul_left_comm (u v t : BitVec w) :
    shiftMul sh coef u (shiftMul sh coef v t) = shiftMul sh coef v (shiftMul sh coef u t) :=
  map_shiftSum (h.linear_right u) (h.commute_shift u) (coef v) t w

theorem mul_assoc (u v t : BitVec w) :
    shiftMul sh coef (shiftMul sh coef u v) t = shiftMul sh coef u (shiftMul sh coef v t) := by
  rw [h.mul_comm, h.mul_left_comm, h.mul_comm t v]

theorem one_mul (u : BitVec w) : shiftMul sh coef one u = u :=
  (h.mul_comm one u).trans (h.mul_one u)

theorem linear_left (v : BitVec w) : XorLinear fun u => shiftMul sh coef u v := by
  intro u t
  simp only [h.mul_comm _ v]
  exact h.linear_right v u t

theorem mul_shift (u v : BitVec w) : shiftMul sh coef u (sh v) = sh (shiftMul sh coef u v) :=
  h.commute_shift u v

theorem mul_zero (u : BitVec w) : shiftMul sh coef u 0 = 0 := (h.linear_right u).map_zero

end ShiftRing

end Sys2Proof.Machine
end

section
/-! PROOFS. The byte field, the substitution tables and the round constants (spec/40_gf_and_tables.md rules R61
to R66). -/

namespace Sys2Proof.Machine

/-! ## The multiplier of bytes -/

theorem xtime_eq_ite (a : Byte) : xtime a = if a.getLsbD 7 then (a <<< 1) ^^^ 0x1B else a <<< 1 := by
  rw [xtime]
  cases a.getLsbD 7 <;> rfl

theorem xtime_xor : XorLinear xtime := by
  have hs : XorLinear fun a : Byte => a <<< 1 := fun _ _ => BitVec.shiftLeft_xor_distrib ..
  intro a b
  simp only [xtime_eq_ite]
  exact xorLinear_reducingShift (out := (·.getLsbD 7)) 0x1B hs (fun _ _ => BitVec.getLsbD_xor) a b

/-- The loop of rule R62, entered at bit `i` with what the bits below have added up. -/
theorem gmul8Loop_eq_shiftSum (a b : Byte) (n i : Nat) :
    gmul8Loop b n i (xtime^[i] a) (shiftSum xtime b.getLsbD a i) =
      shiftSum xtime b.getLsbD a (i + n) := by
  induction n generalizing i with
  | zero => rfl
  | succ n ih =>
    rw [gmul8Loop, xor_ite, ← Function.iterate_succ_apply' xtime,
      ← Nat.succ_add_eq_add_succ i n]
    exact ih (i + 1)

theorem gmul8_eq_shiftMul (a b : Byte) : gmul8 a b = shiftMul xtime BitVec.getLsbD b a :=
  gmul8Loop_eq_shiftSum a b 8 0

/-- The eight doublings of 1 are the eight bits. -/
theorem byteRing : ShiftRing (w := 8) xtime BitVec.getLsbD 0x01 where
  shift_linear := xtime_xor
  expand := by decide +kernel

theorem gmul8_comm (a b : Byte) : gmul8 a b = gmul8 b a := by
  rw [gmul8_eq_shiftMul, gmul8_eq_shiftMul, byteRing.mul_comm]

theorem gmul8_assoc (a b c : Byte) : gmul8 (gmul8 a b) c = gmul8 a (gmul8 b c) := by
  simp only [gmul8_eq_shiftMul, byteRing.mul_assoc]

theorem gmul8_one (a : Byte) : gmul8 a 0x01 = a := by
  rw [gmul8_eq_shiftMul, byteRing.one_mul]

theorem one_gmul8 (a : Byte) : gmul8 0x01 a = a := by rw [gmul8_comm, gmul8_one]

theorem xorLinear_gmul8 (a : Byte) : XorLinear (gmul8 a) := by
  intro b c
  simp only [gmul8_eq_shiftMul]
  exact byteRing.linear_left a b c

theorem gmul8_zero (a : Byte) : gmul8 a 0x00 = 0x00 := (xorLinear_gmul8 a).map_zero

theorem zero_gmul8 (a : Byte) : gmul8 0x00 a = 0x00 := by rw [gmul8_comm, gmul8_zero]

/-- The byte `02` is the double of 1. -/
theorem gmul8_two (a : Byte) : gmul8 a 0x02 = xtime a := by
  have h2 : (0x02 : Byte) = xtime 0x01 := by decide
  rw [gmul8_comm, gmul8_eq_shiftMul, h2, byteRing.mul_shift, byteRing.mul_one]

theorem gmul8_three (a : Byte) : gmul8 a 0x03 = xtime a ^^^ a := by
  have h3 : (0x03 : Byte) = 0x02 ^^^ 0x01 := by decide
  rw [h3, xorLinear_gmul8 a, gmul8_two, gmul8_one]

/-! ## The inverse, read off the S-box -/

theorem eq_of_gmul8_eq_one {a x y : Byte} (hx : gmul8 a x = 0x01) (hy : gmul8 a y = 0x01) : y = x := by
  calc y = gmul8 (gmul8 a x) y := by rw [hx, one_gmul8]
    _ = gmul8 x (gmul8 a y) := by rw [gmul8_comm a x, gmul8_assoc]
    _ = x := by rw [hy, gmul8_one]

theorem inv8_eq_of_gmul8_eq_one {a x : Byte} (hx : gmul8 a x = 0x01) : inv8 a = x := by
  have hmem : x ∈ (List.range 256).map (BitVec.ofNat 8) :=
    List.mem_map.2 ⟨x.toNat, List.mem_range.2 x.isLt, by simp⟩
  have hsome : (((List.range 256).map (BitVec.ofNat 8)).find? fun b => gmul8 a b == 1).isSome :=
    List.find?_isSome.2 ⟨x, hmem, beq_iff_eq.2 hx⟩
  obtain ⟨y, hy⟩ := Option.isSome_iff_exists.1 hsome
  have hone := List.find?_some hy
  rw [inv8, hy, Option.getD_some]
  exact eq_of_gmul8_eq_one hx (beq_iff_eq.1 hone)

theorem inv8_zero : inv8 0x00 = 0x00 := by
  have hnone : (((List.range 256).map (BitVec.ofNat 8)).find? fun b => gmul8 0x00 b == 1) = none :=
    List.find?_eq_none.2 fun b _ => by simp only [zero_gmul8]; decide
  rw [inv8, hnone, Option.getD_none]

/-- The inverse of the affine map of rule R64. -/
def sboxAffineInv (a : Byte) : Byte :=
  a.rotateLeft 1 ^^^ a.rotateLeft 3 ^^^ a.rotateLeft 6 ^^^ 0x05

theorem sboxAffine_sboxAffineInv : ∀ a : Byte, sboxAffine (sboxAffineInv a) = a := by
  decide +kernel

/-- The 255 products that make the S-box a table of inverses. -/
theorem gmul8_sboxAffineInv_sbox : ∀ a : Byte, a ≠ 0 → gmul8 a (sboxAffineInv (sbox a)) = 0x01 := by
  decide +kernel

theorem inv8_eq_sboxAffineInv_sbox (a : Byte) : inv8 a = sboxAffineInv (sbox a) := by
  by_cases ha : a = 0
  · rw [ha, inv8_zero]
    decide
  · exact inv8_eq_of_gmul8_eq_one (gmul8_sboxAffineInv_sbox a ha)

theorem gmul8_inv8 {a : Byte} (ha : a ≠ 0) : gmul8 a (inv8 a) = 0x01 := by
  rw [inv8_eq_sboxAffineInv_sbox, gmul8_sboxAffineInv_sbox a ha]

/-! ## The tables -/

theorem sboxAffine_inv8 (a : Byte) : sboxAffine (inv8 a) = sbox a := by
  rw [inv8_eq_sboxAffineInv_sbox, sboxAffine_sboxAffineInv]

theorem sbox_ne_self : ∀ a : Byte, sbox a ≠ a := by decide +kernel

@[simp] theorem invSbox_sbox : ∀ a : Byte, invSbox (sbox a) = a := by decide +kernel

@[simp] theorem sbox_invSbox : ∀ a : Byte, sbox (invSbox a) = a := by decide +kernel

/-! ## The round constants -/

theorem rcon_succ {j : Nat} (h : 1 ≤ j) : rcon (j + 1) = xtime (rcon j) := by
  cases j with
  | zero => omega
  | succ j => rfl

/-! ## The obligations -/

/-- Settles O33: the laws of the shift-and-add multiplier, at the byte's eight bits; the inverse is the one the
S-box holds, and no byte has two. -/
theorem byteFieldLaws : Obligations.ByteFieldLaws := by
  unfold Obligations.ByteFieldLaws
  exact fun a b c => ⟨gmul8_comm a b, gmul8_one a, gmul8_zero a, gmul8_two a, gmul8_three a,
    xorLinear_gmul8 a b c, (gmul8_assoc a b c).symm,
    fun ha => ⟨inv8 a, gmul8_inv8 ha, rfl, fun _ hy => eq_of_gmul8_eq_one (gmul8_inv8 ha) hy⟩,
    inv8_zero⟩

/-- Settles O34: the affine map undone on the S-box is the inverse; the permutation is read off both tables. -/
theorem sboxTablesAreTheirDefinitions : Obligations.SboxTablesAreTheirDefinitions := by
  unfold Obligations.SboxTablesAreTheirDefinitions
  rintro a b rfl
  exact ⟨(sboxAffine_inv8 a).symm, sbox_ne_self a, invSbox_sbox a, sbox_invSbox a⟩

/-- Settles O35: the recursion of `rcon`, and its first ten values. -/
theorem roundConstants : Obligations.RoundConstants := by
  unfold Obligations.RoundConstants
  exact ⟨rfl, fun _ hj => rcon_succ hj, by decide⟩

end Sys2Proof.Machine
end

section
/-! PROOFS. Blocks as 128-bit strings, and the block field (spec/40_gf_and_tables.md rules R69 to R72). -/

namespace Sys2Proof.Machine

/-! ## The bits of a byte sequence -/

/-- Bit `k` of the big-endian integer, counted from its low end. -/
theorem testBit_be (b : Bytes) {k : Nat} (hk : k < 8 * b.length) :
    (be b).testBit k = (b.getD (b.length - 1 - k / 8) 0).getLsbD (k % 8) := by
  induction b using List.reverseRecOn generalizing k with
  | nil => simp at hk
  | append_singleton b x ih =>
    rw [List.length_append, List.length_singleton] at hk ⊢
    rw [be_concat, Nat.mul_comm, Nat.testBit_two_pow_mul_add (i := 8) _ x.isLt]
    split
    case isTrue hlow =>
      have hidx : b.length + 1 - 1 - k / 8 = b.length := by omega
      rw [hidx, List.getD_append_right _ _ _ _ le_rfl, Nat.sub_self, Nat.mod_eq_of_lt hlow]
      rfl
    case isFalse hhigh =>
      have hidx : b.length + 1 - 1 - k / 8 = b.length - 1 - (k - 8) / 8 := by omega
      have hmod : k % 8 = (k - 8) % 8 := by omega
      rw [ih (by omega), hidx, hmod, List.getD_append _ _ _ _ (by omega)]

/-! ## Blocks and 128-bit strings (rule R69) -/

@[simp] theorem bitsBlock_blockBits {x : Bytes} (hx : x.length = 16) : bitsBlock (blockBits x) = x := by
  have hlt : be x < 2 ^ 128 := (be_lt x).trans_eq (by rw [hx]; rfl)
  rw [bitsBlock, blockBits, BitVec.toNat_ofNat, Nat.mod_eq_of_lt hlt, ← hx, bytesBe_be]

@[simp] theorem blockBits_bitsBlock (v : BitVec 128) : blockBits (bitsBlock v) = v := by
  apply BitVec.eq_of_toNat_eq
  rw [blockBits, bitsBlock, be_bytesBe, BitVec.toNat_ofNat]
  omega

theorem blockBits_getMsbD {x : Bytes} (hx : x.length = 16) {i : Nat} (hi : i < 128) :
    (blockBits x).getMsbD i = (x.getD (i / 8) 0).getLsbD (7 - i % 8) := by
  have hlt : 127 - i < 128 := by omega
  have hbyte : 16 - 1 - (127 - i) / 8 = i / 8 := by omega
  have hbit : (127 - i) % 8 = 7 - i % 8 := by omega
  rw [blockBits, BitVec.getMsbD, BitVec.getLsbD_ofNat, testBit_be x (by omega), hx]
  simp [hi, hlt, hbyte, hbit]

/-- `xor` of blocks is `xor` of their strings. -/
theorem blockBits_xorBytes {x y : Bytes} (hx : x.length = 16) (hy : y.length = 16) :
    blockBits (xorBytes x y) = blockBits x ^^^ blockBits y := by
  apply BitVec.eq_of_getMsbD_eq
  intro i hi
  have hxy : (xorBytes x y).length = 16 := by simp [hx, hy]
  have hxi : i / 8 < x.length := by omega
  have hyi : i / 8 < y.length := by omega
  have hxyi : i / 8 < (xorBytes x y).length := by omega
  rw [BitVec.getMsbD_xor, blockBits_getMsbD hx hi, blockBits_getMsbD hy hi,
    blockBits_getMsbD hxy hi, List.getD_eq_getElem _ _ hxi, List.getD_eq_getElem _ _ hyi,
    List.getD_eq_getElem _ _ hxyi, ← BitVec.getLsbD_xor]
  simp [xorBytes]

theorem bitsBlock_xor (u v : BitVec 128) :
    bitsBlock (u ^^^ v) = xorBytes (bitsBlock u) (bitsBlock v) := by
  have h := blockBits_xorBytes (bitsBlock_length u) (bitsBlock_length v)
  rw [blockBits_bitsBlock, blockBits_bitsBlock] at h
  rw [← h, bitsBlock_blockBits (by simp)]

/-! ## The multiplier of blocks (rule R71) -/

/-- The coefficient 1 of `x^0` alone: the string of the block `80 00 … 00`. -/
def gf128One : BitVec 128 := BitVec.twoPow 128 127

theorem gf128One_getLsbD (k : Nat) : gf128One.getLsbD k = decide (127 = k) :=
  (BitVec.getLsbD_twoPow ..).trans (Bool.true_and _)

theorem gf128Shift_xor : XorLinear gf128Shift :=
  xorLinear_reducingShift (out := (·.getLsbD 0)) gf128R (fun _ _ => BitVec.ushiftRight_xor_distrib ..)
    (fun _ _ => BitVec.getLsbD_xor)

/-- The loop of rule R71, entered at bit `i` with what the bits before have added up. -/
theorem gf128Loop_eq_shiftSum (x y : BitVec 128) (n i : Nat) :
    gf128Loop x n i (shiftSum gf128Shift x.getMsbD y i) (gf128Shift^[i] y) =
      shiftSum gf128Shift x.getMsbD y (i + n) := by
  induction n generalizing i with
  | zero => rfl
  | succ n ih =>
    rw [gf128Loop, xor_ite, ← Function.iterate_succ_apply' gf128Shift,
      ← Nat.succ_add_eq_add_succ i n]
    exact ih (i + 1)

theorem gf128Mul_eq_shiftMul (x y : Bytes) :
    gf128Mul x y = bitsBlock (shiftMul gf128Shift BitVec.getMsbD (blockBits x) (blockBits y)) :=
  congrArg bitsBlock (gf128Loop_eq_shiftSum _ _ 128 0)

/-- Before the last coefficient nothing is reduced: `x^i` is the coefficient `i` alone. -/
theorem gf128Shift_iterate_one {i : Nat} (hi : i < 128) : gf128Shift^[i] gf128One = gf128One >>> i := by
  induction i with
  | zero => rfl
  | succ i ih =>
    have hbit : (gf128One >>> i).getLsbD 0 = false := by
      rw [BitVec.getLsbD_ushiftRight, gf128One_getLsbD]
      exact decide_eq_false (by omega)
    rw [Function.iterate_succ_apply', ih (by omega), gf128Shift, hbit, BitVec.shiftRight_add]
    rfl

theorem gf128One_shift_getMsbD {i j : Nat} (hi : i < 128) :
    (gf128One >>> i).getMsbD j = decide (j = i) := by
  rw [BitVec.getMsbD, BitVec.getLsbD_ushiftRight, gf128One_getLsbD, ← Bool.decide_and]
  exact decide_eq_decide.2 (by omega)

theorem shiftSum_gf128One_getMsbD (c : Nat → Bool) {n j : Nat} (hn : n ≤ 128) :
    (shiftSum gf128Shift c gf128One n).getMsbD j = (decide (j < n) && c j) := by
  induction n with
  | zero => simp [shiftSum]
  | succ n ih =>
    have hterm : (if c n then gf128One >>> n else 0).getMsbD j = (c n && decide (j = n)) := by
      cases c n
      · simp
      · exact gf128One_shift_getMsbD hn
    rw [shiftSum, BitVec.getMsbD_xor, ih (by omega), gf128Shift_iterate_one hn, hterm]
    obtain rfl | hjn := eq_or_ne j n
    · simp
    · simp [hjn, Nat.le_iff_lt_or_eq]

theorem blockRing : ShiftRing gf128Shift BitVec.getMsbD gf128One where
  shift_linear := gf128Shift_xor
  expand u := BitVec.eq_of_getMsbD_eq fun i hi => by
    rw [shiftSum_gf128One_getMsbD _ le_rfl, decide_eq_true hi, Bool.true_and]

theorem gf128Mul_comm (x y : Bytes) : gf128Mul x y = gf128Mul y x := by
  simp only [gf128Mul_eq_shiftMul, blockRing.mul_comm]

theorem gf128Mul_assoc (x y z : Bytes) : gf128Mul (gf128Mul x y) z = gf128Mul x (gf128Mul y z) := by
  simp only [gf128Mul_eq_shiftMul, blockBits_bitsBlock, blockRing.mul_assoc]

theorem gf128Mul_one {x : Bytes} (hx : x.length = 16) : gf128Mul x (0x80 :: zeros 15) = x := by
  have hone : blockBits (0x80 :: zeros 15) = gf128One := by decide +kernel
  rw [gf128Mul_eq_shiftMul, hone, blockRing.mul_one, bitsBlock_blockBits hx]

theorem gf128Mul_zeros (x : Bytes) : gf128Mul x (zeros 16) = zeros 16 := by
  have hzero : blockBits (zeros 16) = 0 := by decide +kernel
  rw [gf128Mul_eq_shiftMul, hzero, blockRing.mul_zero]
  rfl

theorem xorBytes_gf128Mul {x y : Bytes} (z : Bytes) (hx : x.length = 16) (hy : y.length = 16) :
    gf128Mul (xorBytes x y) z = xorBytes (gf128Mul x z) (gf128Mul y z) := by
  simp only [gf128Mul_eq_shiftMul, blockBits_xorBytes hx hy, ← bitsBlock_xor]
  exact congrArg bitsBlock (blockRing.linear_left _ _ _)

/-! ## The obligations -/

/-- Settles O36: the bits of the integer a block spells are the bits of its bytes, and `bytes_be` gives the
bytes back. -/
theorem blockBitNumbering : Obligations.BlockBitNumbering := by
  unfold Obligations.BlockBitNumbering
  exact fun x hx => ⟨fun i hi => blockBits_getMsbD hx hi, bitsBlock_blockBits hx⟩

/-- Settles O37: the laws of the shift-and-add multiplier, carried from 128-bit strings to blocks. -/
theorem blockFieldLaws : Obligations.BlockFieldLaws := by
  unfold Obligations.BlockFieldLaws
  exact fun x y w hx _ hw => ⟨gf128Mul_comm x y, gf128Mul_one hx, gf128Mul_zeros x,
    xorBytes_gf128Mul y hx hw, gf128Mul_assoc x y w⟩

end Sys2Proof.Machine
end

section
/-! PROOFS. From the state a command answers to the clauses `FaultsWith` and `Completes` (rules R57 and R176):
what every command's own statement ends with. -/

namespace Sys2Proof.Machine

open Sys2Proof.Claims

variable {i : Instr} {s t : State}

theorem exec_untouched (h : exec i s = .next t) : Untouched s t := by
  obtain ⟨u, hu, he⟩ := exec_ends i s
  obtain rfl : u = t := by simpa [hu] using h
  exact he.untouched

/-- A command that raises `f` faults with the code of `f`. -/
theorem faultsWith_of_raise {f : ErrorCode} (h : exec i s = .next (s.raise f)) :
    FaultsWith i s f.code :=
  ⟨_, h, rfl, rfl, exec_untouched h, s.byteAt_raise f⟩

/-- A command that stores `v` at `DST` and succeeds completes with `v`, when `RLEN` gets its length. -/
theorem completes_of_store {v : Bytes} {n : Word} (hwf : s.mem.wf) (hlen : v.length = n.toNat)
    (h : exec i s = .next ((s.memWrite s.dst.toNat v).succeed n)) :
    Completes i s n.toNat v :=
  ⟨hlen, _, h, rfl, rfl, exec_untouched h, s.holds_memWrite s.dst.toNat v hwf,
    fun a ha => s.byteAt_memWrite_outside s.dst.toNat a v hwf (hlen ▸ ha)⟩

end Sys2Proof.Machine
end

section
/-! PROOFS. The key schedule and `KEXP` (spec/41_key_expansion.md rules R75 to R79). -/

namespace Sys2Proof.Machine

open Sys2Proof.Claims

/-! ## The loop of rule R76 -/

/-- A schedule word depends on the words before it alone: words that follow them do not change it. -/
theorem nextWord_append {nk i : Nat} {w : List Bytes} (l : List Bytes) (hnk : 0 < nk) (hi : nk ≤ i)
    (hw : w.length = i) : nextWord nk i (w ++ l) = nextWord nk i w := by
  have hprev : (w ++ l).getD (i - 1) [] = w.getD (i - 1) [] := List.getD_append _ _ _ _ (by omega)
  have hback : (w ++ l).getD (i - nk) [] = w.getD (i - nk) [] := List.getD_append _ _ _ _ (by omega)
  simp only [nextWord, hprev, hback]

/-- The loop keeps the words it starts from. -/
theorem prefix_expandLoop (nk n i : Nat) (w : List Bytes) : w <+: expandLoop nk n i w := by
  induction n generalizing i w with
  | zero => exact List.prefix_rfl
  | succ n ih => exact (List.prefix_append w _).trans (ih (i + 1) _)

/-- Every word the loop adds is the next word of the finished schedule. -/
theorem expandLoop_getD {nk n i j : Nat} {w : List Bytes} (hnk : 0 < nk) (hi : nk ≤ i)
    (hw : w.length = i) (hij : i ≤ j) (hj : j < i + n) :
    (expandLoop nk n i w).getD j [] = nextWord nk j (expandLoop nk n i w) := by
  induction n generalizing i w with
  | zero => omega
  | succ n ih =>
    rw [expandLoop]
    obtain rfl | hlt := Nat.eq_or_lt_of_le hij
    · obtain ⟨l, hl⟩ := prefix_expandLoop nk n (i + 1) (w ++ [nextWord nk i w])
      rw [← hl, List.append_assoc, nextWord_append _ hnk hi hw,
        List.getD_append_right _ _ _ _ hw.le, hw, Nat.sub_self]
      rfl
    · exact ih (by omega) (by simp [hw]) hlt (by omega)

/-! ## The words of the schedule -/

section Schedule

variable {k : Bytes}

theorem four_le_of_keyLength (h : KeyLength k) : 4 ≤ k.length := by
  rcases h with h | h | h <;> omega

theorem eq_four_mul_of_keyLength (h : KeyLength k) : k.length = 4 * (k.length / 4) := by
  rcases h with h | h | h <;> omega

/-- The first words are those of the key. -/
theorem expandKey_take (h : KeyLength k) : (expandKey k).take k.length = k := by
  obtain ⟨l, hl⟩ : pieces 4 (k.length / 4) k <+: scheduleWords k := prefix_expandLoop _ _ _ _
  rw [expandKey, ← hl, List.flatten_append, pieces_flatten _ _ _ (eq_four_mul_of_keyLength h).le]
  exact List.take_left

theorem scheduleWords_getD {i : Nat} (hk : 4 ≤ k.length) (hi : k.length / 4 ≤ i)
    (hlt : i < 4 * (k.length / 4 + 7)) :
    (scheduleWords k).getD i [] = nextWord (k.length / 4) i (scheduleWords k) :=
  expandLoop_getD (by omega) le_rfl (pieces_length ..) hi (by omega)

/-- Piece `i` of joined sequences of one length is sequence `i`. -/
theorem take_drop_flatten {n : Nat} {l : List Bytes} (h : ∀ p ∈ l, p.length = n) (i : Nat) :
    (l.flatten.drop (n * i)).take n = l.getD i [] := by
  induction l generalizing i with
  | nil => simp
  | cons p l ih =>
    obtain ⟨hp, hl⟩ := List.forall_mem_cons.mp h
    rw [List.flatten_cons]
    cases i with
    | zero => exact List.take_left' hp
    | succ i =>
      rw [Nat.mul_succ, Nat.add_comm, ← List.drop_drop, List.drop_left' hp, ih hl,
        List.getD_cons_succ]

theorem wordAt_expandKey (hk : 4 ≤ k.length) (i : Nat) :
    wordAt (expandKey k) i = (scheduleWords k).getD i [] :=
  take_drop_flatten (scheduleWords_words hk).2 i

end Schedule

/-! ## The checks of `KEXP` -/

section Kexp

variable {s : State}

theorem exec_kexp_of_not_keyLengthOk (hk : ¬ s.keyLengthOk) :
    exec .kexp s = .next (s.raise .invalidKeyLength) :=
  if_pos hk

theorem exec_kexp_of_not_rangesOk (hk : s.keyLengthOk)
    (hr : ¬ (s.keyRangeOk ∧ s.outRangeOk (scheduleLength s.klen.toNat))) :
    exec .kexp s = .next (s.raise .accessFault) :=
  (if_neg (not_not_intro hk)).trans (if_pos hr)

theorem exec_kexp_of_ok (hk : s.keyLengthOk) (hkey : s.keyRangeOk)
    (hout : s.outRangeOk (scheduleLength s.klen.toNat)) :
    exec .kexp s = .next ((s.memWrite s.dst.toNat (expandKey s.keyOperand)).succeed
      (BitVec.ofNat 32 (scheduleLength s.klen.toNat))) :=
  (if_neg (not_not_intro hk)).trans (if_neg (not_not_intro ⟨hkey, hout⟩))

/-- The length of the schedule of a legal key fits `RLEN`. -/
theorem scheduleLength_toNat (hk : s.keyLengthOk) :
    (BitVec.ofNat 32 (scheduleLength s.klen.toNat)).toNat = scheduleLength s.klen.toNat := by
  rcases hk with h | h | h <;> rw [h] <;> rfl

end Kexp

/-! ## The obligations -/

/-- Settles O25: each check of `KEXP` that fails raises its code, and when none fails the schedule is stored
at `DST`. -/
theorem kexpWritesTheSchedule : Obligations.KexpWritesTheSchedule := by
  unfold Obligations.KexpWritesTheSchedule
  refine ⟨rfl, fun s hwf => ⟨fun hk hkey hout => ?_,
    fun hk => faultsWith_of_raise (exec_kexp_of_not_keyLengthOk hk),
    fun hk hr => faultsWith_of_raise (exec_kexp_of_not_rangesOk hk hr)⟩⟩
  have hge := s.keyLengthOk_ge hk
  have hlen : (expandKey s.keyOperand).length = scheduleLength s.klen.toNat := by
    rw [expandKey_length (by rw [s.keyOperand_length]; omega), s.keyOperand_length]
  have hdone := completes_of_store hwf (hlen.trans (scheduleLength_toNat hk).symm)
    (exec_kexp_of_ok hk hkey hout)
  rwa [scheduleLength_toNat hk] at hdone

/-- Settles O38: word `i` of the schedule's bytes is word `i` of its word list, where the loop of rule R76
put it. -/
theorem keyScheduleRecurrence : Obligations.KeyScheduleRecurrence := by
  unfold Obligations.KeyScheduleRecurrence
  intro k hk
  have h4 := four_le_of_keyLength hk
  refine ⟨(expandKey_length h4).trans (Nat.mul_comm _ _), expandKey_take hk, fun i hi hlt => ?_⟩
  have hmiddle : (k.length / 4 = 8 ∧ i % 8 = 4) ↔ (k.length / 4 = 8 ∧ i % (k.length / 4) = 4) :=
    and_congr_right fun h8 => by rw [h8]
  simp only [wordAt_expandKey h4, hmiddle]
  exact scheduleWords_getD h4 hi hlt

end Sys2Proof.Machine
end

section
/-! PROOFS. The stages of a round, each undone by its inverse (spec/42_block_transform.md rules R86 to R93). -/

namespace Sys2Proof.Machine

variable {s k : Bytes} {i : Nat}

/-! ## SubBytes and AddRoundKey, byte by byte -/

theorem subBytes_getElem? (hi : i < s.length) : (subBytes s)[i]? = some (sbox (s.getD i 0)) := by
  simp [subBytes, hi]

theorem invSubBytes_getElem? (hi : i < s.length) :
    (invSubBytes s)[i]? = some (invSbox (s.getD i 0)) := by
  simp [invSubBytes, hi]

@[simp] theorem invSubBytes_subBytes (s : Bytes) : invSubBytes (subBytes s) = s := by
  simp [invSubBytes, subBytes, Function.comp_def]

@[simp] theorem subBytes_invSubBytes (s : Bytes) : subBytes (invSubBytes s) = s := by
  simp [invSubBytes, subBytes, Function.comp_def]

theorem addRoundKey_getElem? (hs : i < s.length) (hk : i < k.length) :
    (addRoundKey s k)[i]? = some (s.getD i 0 ^^^ k.getD i 0) := by
  simp [addRoundKey, xorBytes, hs, hk]

theorem addRoundKey_addRoundKey (hs : s.length = 16) (hk : k.length = 16) :
    addRoundKey (addRoundKey s k) k = s :=
  xorBytes_cancel s k (hs.trans hk.symm).le

/-! ## ShiftRows, a permutation of the sixteen places -/

theorem shiftRows_getElem? (s : Bytes) (hi : i < 16) :
    (shiftRows s)[i]? = some (s.getD ((i + 4 * (i % 4)) % 16) 0) := by
  simp [shiftRows, hi]

theorem invShiftRows_getElem? (s : Bytes) (hi : i < 16) :
    (invShiftRows s)[i]? = some (s.getD ((i + 16 - 4 * (i % 4)) % 16) 0) := by
  simp [invShiftRows, hi]

/-- `InvShiftRows` puts byte `i` where `ShiftRows` takes it from. -/
theorem invShiftRows_getElem?_shifted (s : Bytes) (hi : i < 16) :
    (invShiftRows s)[(i + 4 * (i % 4)) % 16]? = some (s.getD i 0) := by
  have hback : ((i + 4 * (i % 4)) % 16 + 16 - 4 * ((i + 4 * (i % 4)) % 16 % 4)) % 16 = i := by omega
  rw [invShiftRows_getElem? s (Nat.mod_lt _ (by decide)), hback]

theorem invShiftRows_shiftRows (hs : s.length = 16) : invShiftRows (shiftRows s) = s := by
  obtain ⟨_, _, _, _, _, _, _, _, _, _, _, _, _, _, _, _, rfl⟩ := exists_sixteen hs
  rfl

theorem shiftRows_invShiftRows (hs : s.length = 16) : shiftRows (invShiftRows s) = s := by
  obtain ⟨_, _, _, _, _, _, _, _, _, _, _, _, _, _, _, _, rfl⟩ := exists_sixteen hs
  rfl

/-! ## MixColumns, a circulant matrix

Row `r` of both column matrices is row 0 moved `r` places to the right (rules R88 and R93), so a matrix is
given by its row 0, and the product of two matrices by the product of the rows. -/

/-- Entry `r` of the product of the circulant matrix with row 0 `m` and the column `a`. -/
def circulantEntry (m a : Fin 4 → Byte) (r : Fin 4) : Byte :=
  gmul8 (m 0) (a r) ^^^ gmul8 (m 1) (a (r + 1)) ^^^ gmul8 (m 2) (a (r + 2)) ^^^ gmul8 (m 3) (a (r + 3))

/-- Row 0 of the product of the circulant matrices with rows 0 `p` and `q`; places count modulo 4. -/
def circulantMul (p q : Fin 4 → Byte) (j : Fin 4) : Byte :=
  gmul8 (p 0) (q j) ^^^ gmul8 (p 1) (q (j + 3)) ^^^ gmul8 (p 2) (q (j + 2)) ^^^ gmul8 (p 3) (q (j + 1))

theorem xor_gmul8 (a b c : Byte) : gmul8 (a ^^^ b) c = gmul8 a c ^^^ gmul8 b c := by
  simp only [gmul8_comm _ c, xorLinear_gmul8 c a b]

theorem circulantEntry_circulantEntry (p q a : Fin 4 → Byte) :
    circulantEntry p (circulantEntry q a) = circulantEntry (circulantMul p q) a := by
  funext r
  simp only [circulantEntry, circulantMul, xorLinear_gmul8 _ _ _, xor_gmul8, gmul8_assoc, add_assoc,
    Fin.reduceAdd, add_zero]
  ac_rfl

/-- The matrix with row 0 `1 0 0 0` is the identity. -/
theorem circulantEntry_one (a : Fin 4 → Byte) : circulantEntry ![0x01, 0x00, 0x00, 0x00] a = a := by
  funext r
  simp only [circulantEntry, Matrix.cons_val, one_gmul8, zero_gmul8]
  simp only [BitVec.ofNat_eq_ofNat, BitVec.xor_zero]

/-- Every column of four bytes multiplied by the circulant matrix with row 0 `m`. -/
def circulantColumns (m : Fin 4 → Byte) : Bytes → Bytes
  | a0 :: a1 :: a2 :: a3 :: rest =>
    List.ofFn (circulantEntry m ![a0, a1, a2, a3]) ++ circulantColumns m rest
  | _ => []

theorem circulantColumns_append (m a : Fin 4 → Byte) (rest : Bytes) :
    circulantColumns m (List.ofFn a ++ rest) =
      List.ofFn (circulantEntry m a) ++ circulantColumns m rest := by
  have ha : ![a 0, a 1, a 2, a 3] = a := List.ofFn_inj.mp (by simp)
  simp [circulantColumns, ha]

theorem circulantColumns_cons (m0 m1 m2 m3 a0 a1 a2 a3 : Byte) (rest : Bytes) :
    circulantColumns ![m0, m1, m2, m3] (a0 :: a1 :: a2 :: a3 :: rest) =
      (gmul8 m0 a0 ^^^ gmul8 m1 a1 ^^^ gmul8 m2 a2 ^^^ gmul8 m3 a3)
        :: (gmul8 m0 a1 ^^^ gmul8 m1 a2 ^^^ gmul8 m2 a3 ^^^ gmul8 m3 a0)
        :: (gmul8 m0 a2 ^^^ gmul8 m1 a3 ^^^ gmul8 m2 a0 ^^^ gmul8 m3 a1)
        :: (gmul8 m0 a3 ^^^ gmul8 m1 a0 ^^^ gmul8 m2 a1 ^^^ gmul8 m3 a2)
        :: circulantColumns ![m0, m1, m2, m3] rest :=
  rfl

theorem mixColumns_eq_circulantColumns (s : Bytes) :
    mixColumns s = circulantColumns ![0x02, 0x03, 0x01, 0x01] s := by
  induction s using mixColumns.induct with
  | case1 a0 a1 a2 a3 rest ih =>
    rw [mixColumns, circulantColumns_cons, ih]
    simp only [one_gmul8]
    ac_rfl
  | case2 s h => rw [mixColumns, circulantColumns] <;> exact h

theorem invMixColumns_eq_circulantColumns (s : Bytes) :
    invMixColumns s = circulantColumns ![0x0e, 0x0b, 0x0d, 0x09] s := by
  induction s using invMixColumns.induct with
  | case1 a0 a1 a2 a3 rest ih =>
    rw [invMixColumns, circulantColumns_cons, ih]
    ac_rfl
  | case2 s h => rw [invMixColumns, circulantColumns] <;> exact h

/-- Two matrices whose product is the identity undo each other on whole columns. -/
theorem circulantColumns_cancel {p q : Fin 4 → Byte} (h : circulantMul p q = ![0x01, 0x00, 0x00, 0x00])
    {n : Nat} {s : Bytes} (hs : s.length = 4 * n) :
    circulantColumns p (circulantColumns q s) = s := by
  induction n generalizing s with
  | zero => rw [List.eq_nil_of_length_eq_zero hs]; rfl
  | succ n ih =>
    obtain ⟨a0, a1, a2, a3, rest, rfl, hrest⟩ := exists_four (hs.trans (Nat.mul_succ 4 n))
    rw [circulantColumns, circulantColumns_append, circulantEntry_circulantEntry, h, circulantEntry_one,
      ih hrest]
    rfl

theorem invMixColumns_mixColumns (hs : s.length = 16) : invMixColumns (mixColumns s) = s := by
  rw [mixColumns_eq_circulantColumns, invMixColumns_eq_circulantColumns]
  exact circulantColumns_cancel (by decide +kernel) (n := 4) hs

theorem mixColumns_invMixColumns (hs : s.length = 16) : mixColumns (invMixColumns s) = s := by
  rw [mixColumns_eq_circulantColumns, invMixColumns_eq_circulantColumns]
  exact circulantColumns_cancel (by decide +kernel) (n := 4) hs

theorem circulantColumns_getElem? (m : Fin 4 → Byte) {n c : Nat} (r : Fin 4) (hs : s.length = 4 * n)
    (hc : c < n) :
    (circulantColumns m s)[4 * c + r]? =
      some (circulantEntry m (fun i => s.getD (4 * c + i) 0) r) := by
  induction c generalizing s n with
  | zero =>
    obtain ⟨a0, a1, a2, a3, rest, rfl, -⟩ := exists_four (s := s) (n := 4 * (n - 1)) (by omega)
    have hcol : (fun i : Fin 4 => (a0 :: a1 :: a2 :: a3 :: rest).getD (4 * 0 + i) 0) = ![a0, a1, a2, a3] := by
      funext i
      fin_cases i <;> rfl
    rw [hcol, circulantColumns, List.getElem?_append_left (by simp)]
    simp only [Nat.mul_zero, Nat.zero_add, List.getElem?_ofFn, r.isLt, dif_pos]
  | succ c ih =>
    obtain ⟨a0, a1, a2, a3, rest, rfl, hrest⟩ := exists_four (s := s) (n := 4 * (n - 1)) (by omega)
    have hskip : ∀ i, 4 * (c + 1) + i = 4 * c + i + 4 := by omega
    simp only [hskip, List.getD_cons_succ]
    rw [← ih hrest (by omega), circulantColumns, List.getElem?_append_right (by simp)]
    simp

/-- Row `r` of column `c` of `MixColumns` (rule R88). -/
theorem mixColumns_getElem? (hs : s.length = 16) {c r : Nat} (hc : c < 4) (hr : r < 4) :
    (mixColumns s)[4 * c + r]? =
      some (gmul8 0x02 (s.getD (4 * c + r) 0) ^^^ gmul8 0x03 (s.getD (4 * c + (r + 1) % 4) 0) ^^^
        s.getD (4 * c + (r + 2) % 4) 0 ^^^ s.getD (4 * c + (r + 3) % 4) 0) := by
  have hentry := circulantColumns_getElem? ![0x02, 0x03, 0x01, 0x01] ⟨r, hr⟩ (n := 4) hs hc
  rw [mixColumns_eq_circulantColumns, hentry]
  simp only [circulantEntry, Matrix.cons_val, one_gmul8, Fin.val_add]
  rfl

/-! ## The obligation -/

/-- Settles O39: each stage is a formula of its own; the two matrices of the columns multiply to the identity. -/
theorem roundStages : Obligations.RoundStages := by
  unfold Obligations.RoundStages
  intro s k hs hk
  refine ⟨fun i hi => ?_, fun c r hc hr => mixColumns_getElem? hs hc hr, invSubBytes_subBytes s,
    invShiftRows_shiftRows hs, invMixColumns_mixColumns hs, addRoundKey_addRoundKey hs hk⟩
  have his : i < s.length := hs ▸ hi
  exact ⟨subBytes_getElem? his, invSubBytes_getElem? his, shiftRows_getElem? s hi,
    invShiftRows_getElem?_shifted s hi, addRoundKey_getElem? his (hk ▸ hi)⟩

end Sys2Proof.Machine
end

section
/-! PROOFS. The block functions: their rounds, and that they undo each other for every schedule
(spec/42_block_transform.md rules R90, R94 and R95). -/

namespace Sys2Proof.Machine

open Sys2Proof.Claims

variable {s k b sch : Bytes}

/-! ## One round and its inverse -/

/-- A round `1 .. Nr - 1` of decryption undoes that of encryption. -/
theorem invRound_round (hs : s.length = 16) (hk : k.length = 16) :
    invSubBytes (invShiftRows (invMixColumns
      (addRoundKey (addRoundKey (mixColumns (shiftRows (subBytes s))) k) k))) = s := by
  rw [addRoundKey_addRoundKey (mixColumns_length (shiftRows_length _)) hk,
    invMixColumns_mixColumns (shiftRows_length _),
    invShiftRows_shiftRows ((subBytes_length s).trans hs), invSubBytes_subBytes]

theorem round_invRound (hs : s.length = 16) (hk : k.length = 16) :
    addRoundKey (mixColumns (shiftRows (subBytes
      (invSubBytes (invShiftRows (invMixColumns (addRoundKey s k))))))) k = s := by
  have hadd := addRoundKey_length hs hk
  rw [subBytes_invSubBytes, shiftRows_invShiftRows (invMixColumns_length hadd),
    mixColumns_invMixColumns hadd, addRoundKey_addRoundKey hs hk]

/-! ## The rounds `1 .. n` -/

theorem decryptRounds_encryptRounds (hs : s.length = 16) (n : Nat) (h : 16 * (n + 1) ≤ sch.length) :
    decryptRounds sch n (encryptRounds sch n s) = s := by
  induction n with
  | zero => rfl
  | succ n ih =>
    have hn : 16 * (n + 1) ≤ sch.length := by omega
    rw [encryptRounds, decryptRounds, invRound_round (encryptRounds_length hs n hn) (roundKey_length h),
      ih hn]

theorem encryptRounds_decryptRounds (hs : s.length = 16) (n : Nat) (h : 16 * (n + 1) ≤ sch.length) :
    encryptRounds sch n (decryptRounds sch n s) = s := by
  induction n generalizing s with
  | zero => rfl
  | succ n ih =>
    rw [encryptRounds, decryptRounds, ih (by simp) (by omega), round_invRound hs (roundKey_length h)]

theorem encryptRounds_eq_foldl (n : Nat) :
    encryptRounds sch n s =
      (List.range' 1 n).foldl
        (fun s r => addRoundKey (mixColumns (shiftRows (subBytes s))) (roundKey sch r)) s := by
  induction n with
  | zero => rfl
  | succ n ih => rw [encryptRounds, ih, List.range'_1_concat, List.foldl_concat, Nat.add_comm 1 n]

theorem decryptRounds_eq_foldr (n : Nat) :
    decryptRounds sch n s =
      (List.range' 1 n).foldr
        (fun r s => invSubBytes (invShiftRows (invMixColumns (addRoundKey s (roundKey sch r))))) s := by
  induction n generalizing s with
  | zero => rfl
  | succ n ih => rw [decryptRounds, ih, List.range'_1_concat, List.foldr_concat, Nat.add_comm 1 n]

/-! ## The block functions -/

theorem decryptBlock_encryptBlock (hb : b.length = 16) (h : 16 ≤ sch.length) :
    decryptBlock (encryptBlock b sch) sch = b := by
  have hfits := roundCount_fits h
  have hfirst := addRoundKey_length hb (roundKey_length (r := 0) h)
  have hrounds := encryptRounds_length (sch := sch) hfirst (roundCount sch - 1) (by omega)
  simp only [decryptBlock, encryptBlock]
  rw [addRoundKey_addRoundKey (shiftRows_length _) (roundKey_length hfits),
    invShiftRows_shiftRows ((subBytes_length _).trans hrounds), invSubBytes_subBytes,
    decryptRounds_encryptRounds hfirst _ (by omega), addRoundKey_addRoundKey hb (roundKey_length h)]

theorem encryptBlock_decryptBlock (hb : b.length = 16) (h : 16 ≤ sch.length) :
    encryptBlock (decryptBlock b sch) sch = b := by
  have hfits := roundCount_fits h
  have hlast : (invSubBytes (invShiftRows (addRoundKey b (roundKey sch (roundCount sch))))).length = 16 := by
    simp
  have hrounds := decryptRounds_length (sch := sch) hlast (roundCount sch - 1) (by omega)
  simp only [decryptBlock, encryptBlock]
  rw [addRoundKey_addRoundKey hrounds (roundKey_length h),
    encryptRounds_decryptRounds hlast _ (by omega), subBytes_invSubBytes,
    shiftRows_invShiftRows (addRoundKey_length hb (roundKey_length hfits)),
    addRoundKey_addRoundKey hb (roundKey_length hfits)]

theorem sixteen_le_of_scheduleLength (h : ScheduleLength sch) : 16 ≤ sch.length := by
  rcases h with h | h | h <;> omega

/-! ## The obligations -/

/-- Settles O40: round by round, from the middle outwards; only the round keys' lengths matter. -/
theorem blockTransformsAreInverse : Obligations.BlockTransformsAreInverse := by
  unfold Obligations.BlockTransformsAreInverse
  intro b sch hb hsch
  have h16 := sixteen_le_of_scheduleLength hsch
  exact ⟨decryptBlock_encryptBlock hb h16, encryptBlock_decryptBlock hb h16⟩

/-- Settles O60: the rounds of both block functions are folds over the round numbers, and round key `r` is
block `r` of the schedule. -/
theorem blockFunctionsAreTheirRounds : Obligations.BlockFunctionsAreTheirRounds := by
  unfold Obligations.BlockFunctionsAreTheirRounds
  intro b sch _ _
  have hkey : blockAt sch = roundKey sch := rfl
  have hrounds : sch.length / 16 - 2 = roundCount sch - 1 := rfl
  have hlast : sch.length / 16 - 1 = roundCount sch := rfl
  rw [hkey, hrounds, hlast, ← encryptRounds_eq_foldl, ← decryptRounds_eq_foldr]
  exact ⟨rfl, rfl⟩

end Sys2Proof.Machine
end

section
/-! PROOFS. The commands `ENCB` and `DECB` (spec/42_block_transform.md rules R97 and R98). -/

namespace Sys2Proof.Machine

open Sys2Proof.Claims

/-! ## The checks of a block command -/

section BlockCommand

variable {i : Instr} {f : Bytes → Bytes → Bytes} {s : State} (hi : exec i s = blockCommand f s)

include hi

theorem blockCommand_faultsWith_of_not_scheduleLengthOk (hk : ¬ s.scheduleLengthOk) : FaultsWith i s 1 :=
  faultsWith_of_raise (f := .invalidKeyLength) (hi.trans (if_pos hk))

theorem blockCommand_faultsWith_of_slen_ne (hk : s.scheduleLengthOk) (hl : s.slen.toNat ≠ 16) :
    FaultsWith i s 2 :=
  faultsWith_of_raise (f := .invalidBlockLength)
    (hi.trans ((if_neg (not_not_intro hk)).trans (if_pos hl)))

theorem blockCommand_faultsWith_of_not_rangesOk (hk : s.scheduleLengthOk) (hl : s.slen.toNat = 16)
    (hr : ¬ (s.keyRangeOk ∧ s.rangeValid s.src.toNat 16 ∧ s.outRangeOk 16)) : FaultsWith i s 9 :=
  faultsWith_of_raise (f := .accessFault)
    (hi.trans ((if_neg (not_not_intro hk)).trans ((if_neg (not_not_intro hl)).trans (if_pos hr))))

theorem blockCommand_completes (hwf : s.mem.wf) (hlen : (f s.blockOperand s.keyOperand).length = 16)
    (hk : s.scheduleLengthOk) (hl : s.slen.toNat = 16)
    (hr : s.keyRangeOk ∧ s.rangeValid s.src.toNat 16 ∧ s.outRangeOk 16) :
    Completes i s 16 (f s.blockOperand s.keyOperand) :=
  completes_of_store (n := 16) hwf hlen
    (hi.trans ((if_neg (not_not_intro hk)).trans
      ((if_neg (not_not_intro hl)).trans (if_neg (not_not_intro hr)))))

end BlockCommand

/-! ## The obligation -/

/-- Settles O26: both commands are `blockCommand` of their block function, whose checks fail in the order of
the codes. -/
theorem blockCommandsTransformOneBlock : Obligations.BlockCommandsTransformOneBlock := by
  unfold Obligations.BlockCommandsTransformOneBlock
  refine ⟨rfl, rfl, fun s hwf => ?_⟩
  have hencb : exec .encb s = blockCommand encryptBlock s := rfl
  have hdecb : exec .decb s = blockCommand decryptBlock s := rfl
  refine ⟨fun hk hl hkey hsrc hdst => ?_, fun hk => ?_, fun hk hl => ?_, fun hk hl hr => ?_⟩
  · have hsch : 16 ≤ s.keyOperand.length := by
      rw [s.keyOperand_length]
      exact s.scheduleLengthOk_ge hk
    exact ⟨blockCommand_completes hencb hwf (encryptBlock_length _ hsch) hk hl ⟨hkey, hsrc, hdst⟩,
      blockCommand_completes hdecb hwf (decryptBlock_length _ hsch) hk hl ⟨hkey, hsrc, hdst⟩⟩
  · exact ⟨blockCommand_faultsWith_of_not_scheduleLengthOk hencb hk,
      blockCommand_faultsWith_of_not_scheduleLengthOk hdecb hk⟩
  · exact ⟨blockCommand_faultsWith_of_slen_ne hencb hk hl,
      blockCommand_faultsWith_of_slen_ne hdecb hk hl⟩
  · exact ⟨blockCommand_faultsWith_of_not_rangesOk hencb hk hl hr,
      blockCommand_faultsWith_of_not_rangesOk hdecb hk hl hr⟩

end Sys2Proof.Machine
end

section
/-! PROOFS. The command `PADB` (spec/43_padding.md rule R108). -/

namespace Sys2Proof.Machine

open Sys2Proof.Claims

/-! ## The checks of `PADB` -/

section Padb

variable {s : State} {sc : Scheme}

theorem exec_padb_of_unrecognized (n : Nat) (s : State) :
    exec (.padb (.unrecognized n)) s = .next (s.raise .invalidSchemeError) :=
  rfl

theorem exec_padb_of_slen_gt (hl : 16 < s.slen.toNat) :
    exec (.padb (.scheme sc)) s = .next (s.raise .invalidInputError) :=
  if_pos hl

theorem exec_padb_of_not_rangesOk (hl : s.slen.toNat ≤ 16) (hr : ¬ (s.dataRangeOk ∧ s.outRangeOk 16)) :
    exec (.padb (.scheme sc)) s = .next (s.raise .accessFault) :=
  (if_neg hl.not_gt).trans (if_pos hr)

theorem exec_padb_of_ok (hl : s.slen.toNat ≤ 16) (hr : s.dataRangeOk ∧ s.outRangeOk 16) :
    exec (.padb (.scheme sc)) s =
      .next ((s.memWrite s.dst.toNat (padBlock s.dataOperand sc)).succeed 16) :=
  (if_neg hl.not_gt).trans (if_neg (not_not_intro hr))

/-- Data that `PADB` accepts is padded to exactly one block. -/
theorem padBlock_dataOperand_length (hl : s.slen.toNat ≤ 16) : (padBlock s.dataOperand sc).length = 16 :=
  padBlock_length sc (s.dataOperand_length.trans_le hl)

end Padb

/-! ## The obligation -/

/-- Settles O27: the checks fail in the order scheme, length, ranges; data that passes them is padded to the
16 bytes that are stored. -/
theorem padbPadsTheBlock : Obligations.PadbPadsTheBlock := by
  unfold Obligations.PadbPadsTheBlock
  refine ⟨fun _ => rfl, fun s hwf => ⟨fun sc hl hdata hout => ?_, fun n _ => ?_, fun sc hl => ?_,
    fun sc hl hr => ?_⟩⟩
  · exact completes_of_store (n := 16) hwf (padBlock_dataOperand_length hl)
      (exec_padb_of_ok hl ⟨hdata, hout⟩)
  · exact faultsWith_of_raise (f := .invalidSchemeError) (exec_padb_of_unrecognized n s)
  · exact faultsWith_of_raise (f := .invalidInputError) (exec_padb_of_slen_gt hl)
  · exact faultsWith_of_raise (f := .accessFault) (exec_padb_of_not_rangesOk hl hr)

end Sys2Proof.Machine
end

section
/-! PROOFS. What the modes share: data and its blocks of 16 bytes (spec/44_modes_ecb_cbc_ctr.md). -/

namespace Sys2Proof.Machine

open Sys2Proof.Claims

variable {b d : Bytes} {l : List Bytes}

/-! ## Blocks -/

@[simp] theorem blocks_nil : blocks [] = [] := rfl

theorem blocks_append (hb : b.length = 16) (r : Bytes) : blocks (b ++ r) = b :: blocks r := by
  have hcount : (b ++ r).length / 16 = r.length / 16 + 1 := by
    rw [List.length_append]
    omega
  rw [blocks, hcount, pieces, List.take_left' hb, List.drop_left' hb, blocks]

/-- Data of whole blocks is its blocks, joined. -/
theorem blocks_flatten (hd : d.length % 16 = 0) : (blocks d).flatten = d :=
  pieces_flatten 16 _ d (by omega)

/-- The blocks of joined blocks are these blocks. -/
theorem blocks_of_flatten (h : ∀ b ∈ l, b.length = 16) : blocks l.flatten = l := by
  induction l with
  | nil => rfl
  | cons b l ih =>
    obtain ⟨hb, hl⟩ := List.forall_mem_cons.mp h
    rw [List.flatten_cons, blocks_append hb, ih hl]

theorem blockAt_eq_blocks_getD (hd : d.length % 16 = 0) (j : Nat) :
    blockAt d j = (blocks d).getD j [] := by
  rw [← take_drop_flatten (blocks_all_length d), blocks_flatten hd, blockAt]

theorem blockAt_append (hb : b.length = 16) (r : Bytes) (j : Nat) :
    blockAt (b ++ r) j = if j = 0 then b else blockAt r (j - 1) := by
  cases j with
  | zero => exact List.take_left' hb
  | succ j =>
    rw [blockAt, Nat.mul_succ, Nat.add_comm, ← List.drop_drop, List.drop_left' hb]
    rfl

/-- Byte `i` of a sequence is byte `i mod 16` of block `i div 16`. -/
theorem blockAt_getElem? (d : Bytes) (i : Nat) : (blockAt d (i / 16))[i % 16]? = d[i]? := by
  rw [blockAt, List.getElem?_take_of_lt (Nat.mod_lt i (by decide)), List.getElem?_drop,
    Nat.div_add_mod]

/-- Sequences that differ inside block `j` at most have the other blocks in common. -/
theorem blockAt_congr {d' : Bytes} {j q : Nat} (h : ∀ i, Outside i (16 * j) 16 → d'[i]? = d[i]?)
    (hq : q ≠ j) : blockAt d' q = blockAt d q := by
  apply List.ext_getElem?
  intro i
  simp only [blockAt, List.getElem?_take, List.getElem?_drop]
  split
  · exact h _ (by unfold Outside; omega)
  · rfl

/-! ## `xor` with a block -/

/-- XOR with a block and more bytes: the block meets the first 16 bytes. -/
theorem xorBytes_append (hb : b.length = 16) (d r : Bytes) :
    xorBytes d (b ++ r) = xorBytes (d.take 16) b ++ xorBytes (d.drop 16) r := by
  rw [← List.take_append_drop 16 (xorBytes d (b ++ r)), xorBytes, List.take_zipWith,
    List.drop_zipWith, List.take_left' hb, List.drop_left' hb, xorBytes, xorBytes]

theorem xorBytes_getD {i : Nat} (hd : i < d.length) (hb : i < b.length) :
    (xorBytes d b).getD i 0 = d.getD i 0 ^^^ b.getD i 0 := by
  simp [xorBytes, hd, hb]

/-! ## Keys -/

theorem sixteen_le_of_keyLength {k : Bytes} (h : KeyLength k) : 16 ≤ k.length := by
  rcases h with h | h | h <;> omega

end Sys2Proof.Machine
end

section
/-! PROOFS. The ECB mode and its commands (spec/44_modes_ecb_cbc_ctr.md rules R116 to R119). -/

namespace Sys2Proof.Machine

open Sys2Proof.Claims

/-! ## Blocks transformed one by one -/

section Blockwise

variable {f : Bytes → Bytes} {d : Bytes} (hf : ∀ b, (f b).length = 16)

include hf

/-- The blocks of the joined images are the images of the blocks. -/
theorem blocks_map_flatten (d : Bytes) : blocks ((blocks d).map f).flatten = (blocks d).map f :=
  blocks_of_flatten (List.forall_mem_map.mpr fun b _ => hf b)

theorem blockAt_map_flatten (hd : d.length % 16 = 0) {j : Nat} (hj : j < d.length / 16) :
    blockAt ((blocks d).map f).flatten j = f (blockAt d j) := by
  have hlen : ∀ p ∈ (blocks d).map f, p.length = 16 := List.forall_mem_map.mpr fun b _ => hf b
  have hj' : j < (blocks d).length := by rwa [blocks_length]
  rw [blockAt_eq_blocks_getD hd, blockAt, take_drop_flatten hlen,
    List.getD_eq_getElem _ _ (by rwa [List.length_map]), List.getElem_map,
    List.getD_eq_getElem _ _ hj']

/-- A transform of blocks that another one undoes is undone on whole-block data. -/
theorem map_flatten_cancel {g : Bytes → Bytes} (hgf : ∀ b, b.length = 16 → g (f b) = b)
    (hd : d.length % 16 = 0) :
    ((blocks ((blocks d).map f).flatten).map g).flatten = d := by
  have hid : (blocks d).map (g ∘ f) = blocks d :=
    (List.map_congr_left fun b hb => hgf b (blocks_all_length d b hb)).trans (List.map_id _)
  rw [blocks_map_flatten hf, List.map_map, hid, blocks_flatten hd]

end Blockwise

/-! ## The checks of an ECB command -/

section EcbCommand

variable {f : Bytes → Bytes → Bytes} {s : State}

theorem ecbCommand_of_not_keyLengthOk (hk : ¬ s.keyLengthOk) :
    ecbCommand f s = .next (s.raise .invalidKeyLength) :=
  if_pos hk

theorem ecbCommand_of_slen_partial (hk : s.keyLengthOk) (hl : s.slen.toNat % 16 ≠ 0) :
    ecbCommand f s = .next (s.raise .invalidDataLength) :=
  (if_neg (not_not_intro hk)).trans (if_pos hl)

theorem ecbCommand_of_not_rangesOk (hk : s.keyLengthOk) (hl : s.slen.toNat % 16 = 0)
    (hr : ¬ (s.keyRangeOk ∧ s.dataRangeOk ∧ s.outRangeOk s.slen.toNat)) :
    ecbCommand f s = .next (s.raise .accessFault) :=
  (if_neg (not_not_intro hk)).trans ((if_neg (not_not_intro hl)).trans (if_pos hr))

theorem ecbCommand_of_ok (hk : s.keyLengthOk) (hl : s.slen.toNat % 16 = 0)
    (hr : s.keyRangeOk ∧ s.dataRangeOk ∧ s.outRangeOk s.slen.toNat) :
    ecbCommand f s = .next ((s.memWrite s.dst.toNat (f s.dataOperand s.keyOperand)).succeed s.slen) :=
  (if_neg (not_not_intro hk)).trans ((if_neg (not_not_intro hl)).trans (if_neg (not_not_intro hr)))

end EcbCommand

/-! ## The obligations -/

/-- Settles O28: both commands are `ecbCommand` of their mode function, which keeps the length of the data. -/
theorem ecbCommandsTransformTheData : Obligations.EcbCommandsTransformTheData := by
  unfold Obligations.EcbCommandsTransformTheData
  refine ⟨rfl, rfl, fun s hwf => ⟨fun hk hl hkey hdata hout => ?_, fun hk => ?_, fun hk hl => ?_,
    fun hk hl hr => ?_⟩⟩
  · have hklen := State.keyOperand_long (not_not_intro hk)
    have hdlen : s.dataOperand.length % 16 = 0 := by rwa [s.dataOperand_length]
    have hr := And.intro hkey (And.intro hdata hout)
    exact ⟨completes_of_store hwf ((ecbEncrypt_length hklen hdlen).trans s.dataOperand_length)
        (ecbCommand_of_ok hk hl hr),
      completes_of_store hwf ((ecbDecrypt_length hklen hdlen).trans s.dataOperand_length)
        (ecbCommand_of_ok hk hl hr)⟩
  · constructor <;> exact faultsWith_of_raise (f := .invalidKeyLength) (ecbCommand_of_not_keyLengthOk hk)
  · constructor <;> exact faultsWith_of_raise (f := .invalidDataLength) (ecbCommand_of_slen_partial hk hl)
  · constructor <;> exact faultsWith_of_raise (f := .accessFault) (ecbCommand_of_not_rangesOk hk hl hr)

/-- Settles O43: encryption is the block function on each block, so its block `j` is read off block `j`. -/
theorem ecbBlocksAreIndependent : Obligations.EcbBlocksAreIndependent := by
  unfold Obligations.EcbBlocksAreIndependent
  intro d k hk hd
  have h16 := sixteen_le_of_keyLength hk
  have hblock : ∀ j, j < d.length / 16 →
      blockAt (ecbEncrypt d k) j = encryptBlock (blockAt d j) (expandKey k) := fun j hj =>
    blockAt_map_flatten (fun b => encryptBlock_length b (expandKey_long h16)) hd hj
  exact ⟨ecbEncrypt_length h16 hd, hblock, fun j j' hj hj' h => by rw [hblock j hj, hblock j' hj', h]⟩

/-- Settles O44: the block functions undo each other, so the modes do block by block. -/
theorem ecbRoundTrip : Obligations.EcbRoundTrip := by
  unfold Obligations.EcbRoundTrip
  intro d k hk hd
  have hsch := expandKey_long (sixteen_le_of_keyLength hk)
  have henc := fun b => encryptBlock_length b hsch
  have hdec := fun b => decryptBlock_length b hsch
  exact ⟨fun j hj => blockAt_map_flatten hdec hd hj,
    map_flatten_cancel henc (fun b hb => decryptBlock_encryptBlock hb hsch) hd,
    map_flatten_cancel hdec (fun b hb => encryptBlock_decryptBlock hb hsch) hd⟩

end Sys2Proof.Machine
end

section
/-! PROOFS. The CBC mode and its commands (spec/44_modes_ecb_cbc_ctr.md rules R121 to R123, R130 and R131). -/

namespace Sys2Proof.Machine

open Sys2Proof.Claims

/-! ## The two loops, block by block -/

section Loops

variable {sch prev : Bytes} {ps cs : List Bytes} {j : Nat}

/-- Ciphertext block `j` is made of plaintext block `j` and the ciphertext block before it. -/
theorem blockAt_cbcEncryptLoop (hs : 16 ≤ sch.length) (hj : j < ps.length) :
    blockAt (cbcEncryptLoop sch prev ps) j =
      encryptBlock (xorBytes (ps.getD j [])
        (if j = 0 then prev else blockAt (cbcEncryptLoop sch prev ps) (j - 1))) sch := by
  induction ps generalizing prev j with
  | nil => simp at hj
  | cons p ps ih =>
    have hc := encryptBlock_length (xorBytes p prev) hs
    rw [cbcEncryptLoop, blockAt_append hc]
    cases j with
    | zero => rfl
    | succ j =>
      have hlt : j < ps.length := by simpa using hj
      exact (ih hlt).trans (by simp [blockAt_append hc])

/-- Plaintext block `j` is made of ciphertext block `j` and the one before it. -/
theorem blockAt_cbcDecryptLoop (hs : 16 ≤ sch.length) (hp : prev.length = 16)
    (hcs : ∀ c ∈ cs, c.length = 16) (hj : j < cs.length) :
    blockAt (cbcDecryptLoop sch prev cs) j =
      xorBytes (decryptBlock (cs.getD j []) sch) (if j = 0 then prev else cs.getD (j - 1) []) := by
  induction cs generalizing prev j with
  | nil => simp at hj
  | cons c cs ih =>
    obtain ⟨hc, hcs⟩ := List.forall_mem_cons.mp hcs
    have hx : (xorBytes (decryptBlock c sch) prev).length = 16 := by
      simp [decryptBlock_length c hs, hp]
    rw [cbcDecryptLoop, blockAt_append hx]
    cases j with
    | zero => rfl
    | succ j =>
      have hlt : j < cs.length := by simpa using hj
      refine (ih hc hcs hlt).trans ?_
      cases j <;> rfl

/-- Decryption of the ciphertext blocks gives the plaintext back. -/
theorem cbcDecryptLoop_cbcEncryptLoop (hs : 16 ≤ sch.length) (hp : prev.length = 16)
    (hps : ∀ p ∈ ps, p.length = 16) :
    cbcDecryptLoop sch prev (blocks (cbcEncryptLoop sch prev ps)) = ps.flatten := by
  induction ps generalizing prev with
  | nil => rw [cbcEncryptLoop, blocks_nil, cbcDecryptLoop, List.flatten_nil]
  | cons p ps ih =>
    obtain ⟨hp16, hps⟩ := List.forall_mem_cons.mp hps
    have hc := encryptBlock_length (xorBytes p prev) hs
    have hx : (xorBytes p prev).length = 16 := by simp [hp16, hp]
    rw [cbcEncryptLoop, blocks_append hc, cbcDecryptLoop, decryptBlock_encryptBlock hx hs,
      xorBytes_cancel p prev (hp16.trans hp.symm).le, ih hc hps, List.flatten_cons]

/-- The IV goes into the first plaintext block only. -/
theorem cbcDecryptLoop_drop {prev' : Bytes} (hs : 16 ≤ sch.length) (hp : prev.length = 16)
    (hp' : prev'.length = 16) :
    (cbcDecryptLoop sch prev' cs).drop 16 = (cbcDecryptLoop sch prev cs).drop 16 := by
  cases cs with
  | nil => rfl
  | cons c cs =>
    have hfirst : ∀ {v : Bytes}, v.length = 16 → (xorBytes (decryptBlock c sch) v).length = 16 :=
      fun hv => by simp [decryptBlock_length c hs, hv]
    rw [cbcDecryptLoop, cbcDecryptLoop, List.drop_left' (hfirst hp), List.drop_left' (hfirst hp')]

end Loops

/-! ## The mode functions, block by block -/

section Modes

variable {d k iv : Bytes} {j : Nat}

theorem blockAt_cbcEncrypt (hk : 16 ≤ k.length) (hd : d.length % 16 = 0) (hj : j < d.length / 16) :
    blockAt (cbcEncrypt d k iv) j =
      encryptBlock (xorBytes (blockAt d j) (if j = 0 then iv else blockAt (cbcEncrypt d k iv) (j - 1)))
        (expandKey k) := by
  rw [blockAt_eq_blocks_getD hd]
  exact blockAt_cbcEncryptLoop (expandKey_long hk) (by rwa [blocks_length])

theorem blockAt_cbcDecrypt (hk : 16 ≤ k.length) (hiv : iv.length = 16) (hd : d.length % 16 = 0)
    (hj : j < d.length / 16) :
    blockAt (cbcDecrypt d k iv) j =
      xorBytes (decryptBlock (blockAt d j) (expandKey k)) (if j = 0 then iv else blockAt d (j - 1)) := by
  simp only [blockAt_eq_blocks_getD hd]
  exact blockAt_cbcDecryptLoop (expandKey_long hk) hiv (blocks_all_length d) (by rwa [blocks_length])

/-- A change confined to ciphertext block `j` reaches plaintext blocks `j` and `j + 1` at most. -/
theorem cbcDecrypt_getElem?_congr {d' : Bytes} {i : Nat} (hk : 16 ≤ k.length) (hiv : iv.length = 16)
    (hd : d.length % 16 = 0) (hlen : d'.length = d.length)
    (h : ∀ i, Outside i (16 * j) 16 → d'[i]? = d[i]?) (hi : Outside i (16 * j) 32) :
    (cbcDecrypt d' k iv)[i]? = (cbcDecrypt d k iv)[i]? := by
  have hd' : d'.length % 16 = 0 := by rwa [hlen]
  obtain hlt | hge := Nat.lt_or_ge (i / 16) (d.length / 16)
  · have hsame : blockAt d' (i / 16) = blockAt d (i / 16) :=
      blockAt_congr h (by unfold Outside at hi; omega)
    have hprev : blockAt d' (i / 16 - 1) = blockAt d (i / 16 - 1) :=
      blockAt_congr h (by unfold Outside at hi; omega)
    rw [← blockAt_getElem?, ← blockAt_getElem? (cbcDecrypt d k iv),
      blockAt_cbcDecrypt hk hiv hd' (by rwa [hlen]), blockAt_cbcDecrypt hk hiv hd hlt, hsame, hprev]
  · rw [List.getElem?_eq_none, List.getElem?_eq_none]
    · rw [cbcDecrypt_length hk hiv hd]
      omega
    · rw [cbcDecrypt_length hk hiv hd']
      omega

end Modes

/-! ## The checks of a CBC command -/

section CbcCommand

variable {f : Bytes → Bytes → Bytes → Bytes} {s : State}

theorem cbcCommand_of_not_keyLengthOk (hk : ¬ s.keyLengthOk) :
    cbcCommand f s = .next (s.raise .invalidKeyLength) :=
  if_pos hk

theorem cbcCommand_of_ivlen_ne (hk : s.keyLengthOk) (hiv : s.ivlen.toNat ≠ 16) :
    cbcCommand f s = .next (s.raise .invalidBlockLength) :=
  (if_neg (not_not_intro hk)).trans (if_pos hiv)

theorem cbcCommand_of_slen_partial (hk : s.keyLengthOk) (hiv : s.ivlen.toNat = 16)
    (hl : s.slen.toNat % 16 ≠ 0) :
    cbcCommand f s = .next (s.raise .invalidDataLength) :=
  (if_neg (not_not_intro hk)).trans ((if_neg (not_not_intro hiv)).trans (if_pos hl))

theorem cbcCommand_of_not_rangesOk (hk : s.keyLengthOk) (hiv : s.ivlen.toNat = 16)
    (hl : s.slen.toNat % 16 = 0)
    (hr : ¬ (s.keyRangeOk ∧ s.ivRangeOk 16 ∧ s.dataRangeOk ∧ s.outRangeOk s.slen.toNat)) :
    cbcCommand f s = .next (s.raise .accessFault) :=
  (if_neg (not_not_intro hk)).trans ((if_neg (not_not_intro hiv)).trans
    ((if_neg (not_not_intro hl)).trans (if_pos hr)))

theorem cbcCommand_of_ok (hk : s.keyLengthOk) (hiv : s.ivlen.toNat = 16) (hl : s.slen.toNat % 16 = 0)
    (hr : s.keyRangeOk ∧ s.ivRangeOk 16 ∧ s.dataRangeOk ∧ s.outRangeOk s.slen.toNat) :
    cbcCommand f s =
      .next ((s.memWrite s.dst.toNat (f s.dataOperand s.keyOperand s.ivOperand)).succeed s.slen) :=
  (if_neg (not_not_intro hk)).trans ((if_neg (not_not_intro hiv)).trans
    ((if_neg (not_not_intro hl)).trans (if_neg (not_not_intro hr))))

end CbcCommand

/-! ## The obligations -/

/-- Settles O29: both commands are `cbcCommand` of their mode function, which keeps the length of the data. -/
theorem cbcCommandsTransformTheData : Obligations.CbcCommandsTransformTheData := by
  unfold Obligations.CbcCommandsTransformTheData
  refine ⟨rfl, rfl, fun s hwf => ⟨fun hk hiv hl hkey hivr hdata hout => ?_, fun hk => ?_,
    fun hk hiv => ?_, fun hk hiv hl => ?_, fun hk hiv hl hr => ?_⟩⟩
  · have hklen := State.keyOperand_long (not_not_intro hk)
    have hdlen : s.dataOperand.length % 16 = 0 := by rwa [s.dataOperand_length]
    have hr := And.intro hkey (And.intro hivr (And.intro hdata hout))
    exact ⟨completes_of_store hwf ((cbcEncrypt_length _ hklen hdlen).trans s.dataOperand_length)
        (cbcCommand_of_ok hk hiv hl hr),
      completes_of_store hwf
        ((cbcDecrypt_length hklen s.ivOperand_length hdlen).trans s.dataOperand_length)
        (cbcCommand_of_ok hk hiv hl hr)⟩
  · constructor <;> exact faultsWith_of_raise (f := .invalidKeyLength) (cbcCommand_of_not_keyLengthOk hk)
  · constructor <;> exact faultsWith_of_raise (f := .invalidBlockLength) (cbcCommand_of_ivlen_ne hk hiv)
  · constructor <;>
      exact faultsWith_of_raise (f := .invalidDataLength) (cbcCommand_of_slen_partial hk hiv hl)
  · constructor <;> exact faultsWith_of_raise (f := .accessFault) (cbcCommand_of_not_rangesOk hk hiv hl hr)

/-- Settles O45: the two loops keep the lengths and chain as rules R121 and R122 say. -/
theorem cbcChaining : Obligations.CbcChaining := by
  unfold Obligations.CbcChaining
  intro d k iv hk hiv hd
  have h16 := sixteen_le_of_keyLength hk
  exact ⟨cbcEncrypt_length iv h16 hd, cbcDecrypt_length h16 hiv hd, fun j hj =>
    ⟨blockAt_cbcEncrypt h16 hd hj, blockAt_cbcDecrypt h16 hiv hd hj⟩⟩

/-- Settles O46: decryption undoes each link of the chain, and a plaintext block is made of two
consecutive input blocks alone. -/
theorem cbcRoundTripAndLocality : Obligations.CbcRoundTripAndLocality := by
  unfold Obligations.CbcRoundTripAndLocality
  intro d k iv hk hiv hd
  have h16 := sixteen_le_of_keyLength hk
  have hsch := expandKey_long h16
  refine ⟨?_, fun iv' hiv' => cbcDecryptLoop_drop hsch hiv hiv', fun d' j hlen h i hi =>
    cbcDecrypt_getElem?_congr h16 hiv hd hlen h hi⟩
  exact (cbcDecryptLoop_cbcEncryptLoop hsch hiv (blocks_all_length d)).trans (blocks_flatten hd)

end Sys2Proof.Machine
end

section
/-! PROOFS. The CTR mode and its commands (spec/44_modes_ecb_cbc_ctr.md rules R132 to R136). -/

namespace Sys2Proof.Machine

open Sys2Proof.Claims

/-! ## The counter (rule R132) -/

@[simp] theorem incReversed_length (r : Bytes) : (incReversed r).length = r.length := by
  induction r with
  | nil => rfl
  | cons x r ih =>
    rw [incReversed]
    split <;> simp [ih]

/-- The byte form of the increment adds one, modulo the range of the bytes. -/
theorem be_incReversed (r : Bytes) :
    be (incReversed r).reverse = (be r.reverse + 1) % 256 ^ r.length := by
  induction r with
  | nil => rfl
  | cons x r ih =>
    rw [incReversed, List.reverse_cons, be_concat, List.length_cons, Nat.pow_succ]
    split
    case isTrue hx =>
      have hcarry : be r.reverse * 256 + x.toNat + 1 = (be r.reverse + 1) * 256 := by
        rw [hx, Nat.succ_mul]
        rfl
      rw [List.reverse_cons, be_concat, ih, hcarry, Nat.mul_mod_mul_right]
      exact Nat.add_zero _
    case isFalse hx =>
      have hr : be r.reverse < 256 ^ r.length := (be_lt r.reverse).trans_eq (by rw [List.length_reverse])
      have hsum : (x + 1).toNat = x.toNat + 1 := by bv_omega
      have hlt := (x + 1).isLt
      rw [List.reverse_cons, be_concat, hsum, Nat.mod_eq_of_lt (by omega), Nat.add_assoc]

@[simp] theorem inc128_length (c : Bytes) : (inc128 c).length = 16 := bytesBe_length _ _

theorem be_inc128 (c : Bytes) : be (inc128 c) = (be c + 1) % 2 ^ 128 := by
  rw [inc128, be_bytesBe]
  exact Nat.mod_mod _ _

theorem inc128_eq_incReversed {c : Bytes} (hc : c.length = 16) :
    inc128 c = (incReversed c.reverse).reverse := by
  have hbe := be_incReversed c.reverse
  rw [List.reverse_reverse, List.length_reverse, hc] at hbe
  have hlen : (incReversed c.reverse).reverse.length = 16 := by simp [hc]
  rw [← bytesBe_be (incReversed c.reverse).reverse, hlen, hbe]
  rfl

/-- The counter block of segment `j` (rule R133): `bytes_be((be(IV) + j) mod 2^128, 16)`. -/
def counterAt (iv : Bytes) (j : Nat) : Bytes := bytesBe ((be iv + j) % 2 ^ 128) 16

theorem counterAt_zero {iv : Bytes} (hiv : iv.length = 16) : counterAt iv 0 = iv := by
  have hlt : be iv < 2 ^ 128 := (be_lt iv).trans_eq (by rw [hiv]; rfl)
  rw [counterAt, Nat.add_zero, Nat.mod_eq_of_lt hlt, ← hiv, bytesBe_be]

theorem counterAt_inc128 (iv : Bytes) (j : Nat) : counterAt (inc128 iv) j = counterAt iv (j + 1) := by
  rw [counterAt, counterAt, be_inc128, Nat.mod_add_mod, Nat.add_assoc, Nat.add_comm 1 j]

/-! ## The keystream (rule R133) -/

/-- The keystream of `n` segments: the encrypted counter blocks, joined. -/
def keystream (sch iv : Bytes) (n : Nat) : Bytes :=
  ((List.range n).map fun j => encryptBlock (counterAt iv j) sch).flatten

section Keystream

variable {sch iv d k : Bytes} {n i : Nat}

theorem keystream_succ (hiv : iv.length = 16) (n : Nat) :
    keystream sch iv (n + 1) = encryptBlock iv sch ++ keystream sch (inc128 iv) n := by
  simp only [keystream, List.range_succ_eq_map, List.map_cons, List.map_map, List.flatten_cons,
    counterAt_zero hiv, counterAt_inc128, Function.comp_def, Nat.succ_eq_add_one]

theorem keystream_all_length (hs : 16 ≤ sch.length) (iv : Bytes) (n : Nat) :
    ∀ p ∈ (List.range n).map fun j => encryptBlock (counterAt iv j) sch, p.length = 16 :=
  List.forall_mem_map.mpr fun _ _ => encryptBlock_length _ hs

theorem keystream_length (hs : 16 ≤ sch.length) (iv : Bytes) (n : Nat) :
    (keystream sch iv n).length = 16 * n := by
  rw [keystream, flatten_length_of_all 16 _ (keystream_all_length hs iv n), List.length_map,
    List.length_range]

/-- Byte `i` of the keystream is byte `i mod 16` of the encrypted counter of segment `i div 16`. -/
theorem keystream_getD (hs : 16 ≤ sch.length) (iv : Bytes) (hi : i < 16 * n) :
    (keystream sch iv n).getD i 0 = (encryptBlock (counterAt iv (i / 16)) sch).getD (i % 16) 0 := by
  have hblock : blockAt (keystream sch iv n) (i / 16) = encryptBlock (counterAt iv (i / 16)) sch := by
    have hj : i / 16 < n := by omega
    rw [blockAt, keystream, take_drop_flatten (keystream_all_length hs iv n)]
    simp [hj]
  rw [List.getD_eq_getElem?_getD, ← blockAt_getElem?, hblock, ← List.getD_eq_getElem?_getD]

/-- The loop of rule R133 is one XOR with the keystream. -/
theorem ctrLoop_pieces (hs : 16 ≤ sch.length) (hiv : iv.length = 16) (n : Nat) (d : Bytes) :
    ctrLoop sch iv (pieces 16 n d) = xorBytes d (keystream sch iv n) := by
  induction n generalizing iv d with
  | zero => simp [pieces, ctrLoop, keystream, xorBytes]
  | succ n ih =>
    rw [pieces, ctrLoop, ih (inc128_length iv), keystream_succ hiv,
      xorBytes_append (encryptBlock_length iv hs)]

theorem ctrXcrypt_eq_xor_keystream (hk : 16 ≤ k.length) (hiv : iv.length = 16) (d : Bytes) :
    ctrXcrypt d k iv = xorBytes d (keystream (expandKey k) iv ((d.length + 15) / 16)) :=
  ctrLoop_pieces (expandKey_long hk) hiv _ d

theorem ctrXcrypt_getD (hk : 16 ≤ k.length) (hiv : iv.length = 16) (hi : i < d.length) :
    (ctrXcrypt d k iv).getD i 0 =
      d.getD i 0 ^^^ (encryptBlock (counterAt iv (i / 16)) (expandKey k)).getD (i % 16) 0 := by
  have hsch := expandKey_long hk
  have hfits : i < 16 * ((d.length + 15) / 16) := by omega
  rw [ctrXcrypt_eq_xor_keystream hk hiv, xorBytes_getD hi (by rwa [keystream_length hsch]),
    keystream_getD hsch iv hfits]

/-- The keystream depends on the length of the data alone, so it cancels. -/
theorem ctrXcrypt_ctrXcrypt (hk : 16 ≤ k.length) (hiv : iv.length = 16) (d : Bytes) :
    ctrXcrypt (ctrXcrypt d k iv) k iv = d := by
  rw [ctrXcrypt_eq_xor_keystream hk hiv (ctrXcrypt d k iv), ctrXcrypt_length d iv hk,
    ctrXcrypt_eq_xor_keystream hk hiv d]
  apply xorBytes_cancel
  rw [keystream_length (expandKey_long hk)]
  omega

end Keystream

/-! ## The checks of a CTR command -/

section CtrCommand

variable {s : State}

theorem ctrCommand_of_not_keyLengthOk (hk : ¬ s.keyLengthOk) :
    ctrCommand s = .next (s.raise .invalidKeyLength) :=
  if_pos hk

theorem ctrCommand_of_ivlen_ne (hk : s.keyLengthOk) (hiv : s.ivlen.toNat ≠ 16) :
    ctrCommand s = .next (s.raise .invalidBlockLength) :=
  (if_neg (not_not_intro hk)).trans (if_pos hiv)

theorem ctrCommand_of_not_rangesOk (hk : s.keyLengthOk) (hiv : s.ivlen.toNat = 16)
    (hr : ¬ (s.keyRangeOk ∧ s.ivRangeOk 16 ∧ s.dataRangeOk ∧ s.outRangeOk s.slen.toNat)) :
    ctrCommand s = .next (s.raise .accessFault) :=
  (if_neg (not_not_intro hk)).trans ((if_neg (not_not_intro hiv)).trans (if_pos hr))

theorem ctrCommand_of_ok (hk : s.keyLengthOk) (hiv : s.ivlen.toNat = 16)
    (hr : s.keyRangeOk ∧ s.ivRangeOk 16 ∧ s.dataRangeOk ∧ s.outRangeOk s.slen.toNat) :
    ctrCommand s =
      .next ((s.memWrite s.dst.toNat
        (ctrXcrypt s.dataOperand s.keyOperand s.ivOperand)).succeed s.slen) :=
  (if_neg (not_not_intro hk)).trans ((if_neg (not_not_intro hiv)).trans (if_neg (not_not_intro hr)))

end CtrCommand

theorem State.accept_memRead (s : State) (w : Word) (a n : Nat) :
    (s.accept w).memRead a n = s.memRead a n :=
  State.memRead_congr a n fun _ _ => rfl

/-- The word that issued the command is left in `CMD` and has no other effect. -/
theorem ctrCommand_accept (s : State) :
    ∃ t : State, ∀ w, ctrCommand (s.accept w) = .next { t with cmd := w } := by
  by_cases hk : s.keyLengthOk
  case neg => exact ⟨(s.accept 0).raise .invalidKeyLength, fun w => ctrCommand_of_not_keyLengthOk hk⟩
  by_cases hiv : s.ivlen.toNat = 16
  case neg => exact ⟨(s.accept 0).raise .invalidBlockLength, fun w => ctrCommand_of_ivlen_ne hk hiv⟩
  by_cases hr : s.keyRangeOk ∧ s.ivRangeOk 16 ∧ s.dataRangeOk ∧ s.outRangeOk s.slen.toNat
  case neg => exact ⟨(s.accept 0).raise .accessFault, fun w => ctrCommand_of_not_rangesOk hk hiv hr⟩
  refine ⟨((s.accept 0).memWrite s.dst.toNat
    (ctrXcrypt s.dataOperand s.keyOperand s.ivOperand)).succeed s.slen, fun w => ?_⟩
  rw [ctrCommand_of_ok (s := s.accept w) hk hiv hr]
  simp only [State.dataOperand, State.keyOperand, State.ivOperand, State.accept_memRead]
  rfl

/-! ## The obligations -/

/-- Settles O30: both commands are `ctrCommand`, which reads neither `CMD` nor the response. -/
theorem ctrCommandsTransformTheData : Obligations.CtrCommandsTransformTheData := by
  unfold Obligations.CtrCommandsTransformTheData
  refine ⟨rfl, rfl, fun s => ?_, fun s hwf => ⟨fun hk hiv hkey hivr hdata hout => ?_, fun hk => ?_,
    fun hk hiv => ?_, fun hk hiv hr => ?_⟩⟩
  · obtain ⟨t, ht⟩ := ctrCommand_accept s
    exact ⟨{ t with cmd := 0x00000014 },
      (issue_of_decode_ok s (decode_encode (i := .ctre) rfl)).trans (ht _),
      (issue_of_decode_ok s (decode_encode (i := .ctrd) rfl)).trans (ht _)⟩
  · have hlen := (ctrXcrypt_length s.dataOperand s.ivOperand
      (State.keyOperand_long (not_not_intro hk))).trans s.dataOperand_length
    have hr := And.intro hkey (And.intro hivr (And.intro hdata hout))
    exact ⟨completes_of_store hwf hlen (ctrCommand_of_ok hk hiv hr),
      completes_of_store hwf hlen (ctrCommand_of_ok hk hiv hr)⟩
  · constructor <;> exact faultsWith_of_raise (f := .invalidKeyLength) (ctrCommand_of_not_keyLengthOk hk)
  · constructor <;> exact faultsWith_of_raise (f := .invalidBlockLength) (ctrCommand_of_ivlen_ne hk hiv)
  · constructor <;> exact faultsWith_of_raise (f := .accessFault) (ctrCommand_of_not_rangesOk hk hiv hr)

/-- Settles O47: both forms spell the value plus one, and sixteen bytes are determined by what they spell. -/
theorem counterIncrement : Obligations.CounterIncrement := by
  unfold Obligations.CounterIncrement
  exact ⟨fun c hc => ⟨inc128_eq_incReversed hc, be_inc128 c, inc128_length c⟩, by decide⟩

/-- Settles O48: CTR is one XOR with the keystream, whose bytes are those of the encrypted counters. -/
theorem ctrKeystream : Obligations.CtrKeystream := by
  unfold Obligations.CtrKeystream
  intro d k iv hk hiv
  have h16 := sixteen_le_of_keyLength hk
  exact ⟨ctrXcrypt_length d iv h16, fun i hi => ctrXcrypt_getD h16 hiv hi⟩

/-- Settles O49: the keystream cancels, and its byte `i` does not depend on the data. -/
theorem ctrIsItsOwnInverse : Obligations.CtrIsItsOwnInverse := by
  unfold Obligations.CtrIsItsOwnInverse
  refine ⟨fun d k iv hk hiv => ctrXcrypt_ctrXcrypt (sixteen_le_of_keyLength hk) hiv d,
    fun d d' k iv i hk hiv hi hi' h => ?_, fun s => rfl⟩
  have h16 := sixteen_le_of_keyLength hk
  rw [ctrXcrypt_getD h16 hiv hi, ctrXcrypt_getD h16 hiv hi', h]

end Sys2Proof.Machine
end

section
/-! PROOFS. The GCM length block and the GCM counters (spec/45_gcm_ghash.md rules R142 and R145 to R148). -/

namespace Sys2Proof.Machine

open Sys2Proof.Claims

/-! ## Joined bytes and the integer they spell -/

theorem be_append (a b : Bytes) : be (a ++ b) = be a * 256 ^ b.length + be b := by
  induction b using List.reverseRecOn with
  | nil => simp
  | append_singleton b x ih =>
    rw [← List.append_assoc, be_concat, be_concat, ih, List.length_append, List.length_singleton,
      Nat.pow_succ, Nat.add_mul, Nat.mul_assoc, Nat.add_assoc]

/-- Bytes are the spelling of the integer they spell. -/
theorem bytesBe_of_be_eq {b : Bytes} {v n : Nat} (hlen : b.length = n) (hv : be b = v) :
    bytesBe v n = b := by
  rw [← hlen, ← hv, bytesBe_be]

/-- An integer below `2^40` leaves the first three of eight bytes zero. -/
theorem bytesBe_eight {v : Nat} (hv : v < 256 ^ 5) : bytesBe v 8 = zeros 3 ++ bytesBe v 5 := by
  have hzero : be (zeros 3) = 0 := by decide
  refine bytesBe_of_be_eq (by simp) ?_
  rw [be_append, hzero, be_bytesBe, Nat.mod_eq_of_lt hv, Nat.zero_mul, Nat.zero_add]

theorem bytesBe_eight_take_three {v : Nat} (hv : v < 256 ^ 5) : (bytesBe v 8).take 3 = zeros 3 := by
  rw [bytesBe_eight hv, List.take_left' (zeros_length 3)]

/-! ## The length block (rule R142) -/

theorem lenblock_take (a c : Bytes) : (lenblock a c).take 8 = bytesBe (8 * a.length) 8 :=
  List.take_left' (bytesBe_length _ _)

theorem lenblock_drop (a c : Bytes) : (lenblock a c).drop 8 = bytesBe (8 * c.length) 8 :=
  List.drop_left' (bytesBe_length _ _)

/-! ## The counters (rules R145 and R148) -/

/-- The GCM counters are those of CTR, started at `counter_0`. -/
theorem gcmCounter_eq_counterAt (n : Bytes) (k : Nat) :
    gcmCounter n k = counterAt (initialCounter n) k :=
  rfl

theorem initialCounter_length {n : Bytes} (hn : n.length = 12) : (initialCounter n).length = 16 := by
  simp [initialCounter, hn]

theorem be_initialCounter (n : Bytes) : be (initialCounter n) = be n * 2 ^ 32 + 1 :=
  be_append n [0x00, 0x00, 0x00, 0x01]

theorem be_counterAt (iv : Bytes) (j : Nat) : be (counterAt iv j) = (be iv + j) % 2 ^ 128 := by
  rw [counterAt, be_bytesBe]
  exact Nat.mod_mod _ _

theorem inc128_counterAt (iv : Bytes) (j : Nat) : inc128 (counterAt iv j) = counterAt iv (j + 1) := by
  rw [inc128, be_counterAt, Nat.mod_add_mod, Nat.add_assoc, counterAt]

/-- A count that fits the low word changes the low word alone. -/
theorem gcmCounter_eq_append {n : Bytes} {k : Nat} (hn : n.length = 12) (hk : 1 + k < 2 ^ 32) :
    gcmCounter n k = n ++ bytesBe (1 + k) 4 := by
  have hnonce : be n < 2 ^ 96 := (be_lt n).trans_eq (by rw [hn]; rfl)
  refine bytesBe_of_be_eq (by simp [hn]) ?_
  rw [be_append, be_bytesBe, bytesBe_length, be_initialCounter]
  omega

theorem gcmCtr_getD {d k n : Bytes} {i : Nat} (hk : 16 ≤ k.length) (hi : i < d.length) :
    (gcmCtr d k n).getD i 0 =
      d.getD i 0 ^^^ (encryptBlock (gcmCounter n (1 + i / 16)) (expandKey k)).getD (i % 16) 0 := by
  rw [gcmCtr, ctrXcrypt_getD hk (inc128_length _) hi, counterAt_inc128, gcmCounter_eq_counterAt,
    Nat.add_comm 1]

/-! ## The obligations -/

/-- Settles O50: bit lengths below `2^35` fit eight bytes and leave the first three of them zero. -/
theorem lengthBlock : Obligations.LengthBlock := by
  unfold Obligations.LengthBlock
  intro a c ha hc
  have hspell : ∀ {v}, v < 2 ^ 32 → be (bytesBe (8 * v) 8) = 8 * v := fun hv => by
    rw [be_bytesBe, Nat.mod_eq_of_lt (by omega)]
  have hfirst : (lenblock a c).take 3 = ((lenblock a c).take 8).take 3 := by
    rw [List.take_take, Nat.min_eq_left (by decide)]
  rw [hfirst, lenblock_take, lenblock_drop]
  exact ⟨by simp [lenblock], hspell ha, hspell hc, bytesBe_eight_take_three (by omega),
    bytesBe_eight_take_three (by omega)⟩

/-- Settles O51: the GCM counters are the CTR counters from `counter_0` on, and the data meets them from
`counter_1` on, since CTR starts at the increment of `counter_0`. -/
theorem gcmCountersStayInLowWord : Obligations.GcmCountersStayInLowWord := by
  unfold Obligations.GcmCountersStayInLowWord
  refine ⟨fun n k hn hk => gcmCounter_eq_append hn (by omega), fun n k hn =>
    ⟨counterAt_zero (initialCounter_length hn), inc128_counterAt _ k, be_counterAt _ k⟩,
    fun d k n hk _ => ?_⟩
  have h16 := sixteen_le_of_keyLength hk
  exact ⟨rfl, gcmCtr_length d n h16, fun i hi => gcmCtr_getD h16 hi⟩

end Sys2Proof.Machine
end

section
/-! PROOFS. Multiplication by `x` in the block field, GHASH, and the tag (spec/40_gf_and_tables.md rules R70
and R71, spec/45_gcm_ghash.md rules R141, R143, R144 and R149). -/

namespace Sys2Proof.Machine

open Sys2Proof.Claims

/-! ## Multiplication by `x` -/

/-- The product with `x`, the block `40 00 … 00`, is one step of `V`. -/
theorem x_gf128Mul (v : Bytes) : gf128Mul (0x40 :: zeros 15) v = bitsBlock (gf128Shift (blockBits v)) := by
  have hx : blockBits (0x40 :: zeros 15) = gf128Shift gf128One := by decide +kernel
  rw [gf128Mul_comm, gf128Mul_eq_shiftMul, hx, blockRing.mul_shift, blockRing.mul_one]

theorem bitsBlock_getLsbD (u : BitVec 128) {j b : Nat} (hj : j < 16) (hb : b < 8) :
    ((bitsBlock u).getD j 0).getLsbD b = u.getLsbD (8 * (15 - j) + b) := by
  have hu : be (bitsBlock u) = u.toNat := by
    rw [bitsBlock, be_bytesBe]
    exact Nat.mod_eq_of_lt u.isLt
  have hbyte : 16 - 1 - (8 * (15 - j) + b) / 8 = j := by omega
  have hbit : (8 * (15 - j) + b) % 8 = b := by omega
  have h := testBit_be (bitsBlock u) (k := 8 * (15 - j) + b) (by rw [bitsBlock_length]; omega)
  rw [hu, bitsBlock_length, hbyte, hbit] at h
  exact h.symm

/-- A right shift by one bit over the bytes: each takes the low bit of the byte before as its top bit. -/
theorem bitsBlock_ushiftRight_one (u : BitVec 128) {j : Nat} (hj : j < 16) :
    (bitsBlock (u >>> 1)).getD j 0 =
      ((bitsBlock u).getD j 0 >>> 1) ^^^
        (if j = 0 then 0x00 else (bitsBlock u).getD (j - 1) 0 <<< 7 : Byte) := by
  apply BitVec.eq_of_getLsbD_eq
  intro b hb
  rw [bitsBlock_getLsbD _ hj hb, BitVec.getLsbD_ushiftRight, BitVec.getLsbD_xor,
    BitVec.getLsbD_ushiftRight]
  obtain hlow | rfl : b < 7 ∨ b = 7 := by omega
  · have hcarry : (if j = 0 then 0x00 else (bitsBlock u).getD (j - 1) 0 <<< 7 : Byte).getLsbD b = false := by
      split <;> simp [hlow]
    rw [bitsBlock_getLsbD u hj (by omega), hcarry, Bool.xor_false, Nat.add_left_comm]
  · have htop : ((bitsBlock u).getD j 0).getLsbD (1 + 7) = false := BitVec.getLsbD_of_ge _ _ le_rfl
    rw [htop, Bool.false_xor]
    split
    case isTrue h0 => rw [h0]; exact BitVec.getLsbD_of_ge _ _ le_rfl
    case isFalse h0 =>
      have hindex : 1 + (8 * (15 - j) + 7) = 8 * (15 - (j - 1)) + 0 := by omega
      rw [BitVec.getLsbD_shiftLeft, hindex, ← bitsBlock_getLsbD u (by omega) (by decide)]
      simp

theorem bitsBlock_gf128R_getD (j : Nat) : (bitsBlock gf128R).getD j 0 = if j = 0 then 0xe1 else 0x00 := by
  have hr : bitsBlock gf128R = 0xe1 :: zeros 15 := by decide +kernel
  rw [hr]
  cases j with
  | zero => rfl
  | succ j => exact List.getElem?_getD_replicate_default_eq 0 15 j

/-- One step of `V` (rule R71), byte by byte. -/
theorem bitsBlock_gf128Shift_getD (u : BitVec 128) {j : Nat} (hj : j < 16) :
    (bitsBlock (gf128Shift u)).getD j 0 =
      ((bitsBlock u).getD j 0 >>> 1) ^^^
        (if j = 0 then bif ((bitsBlock u).getD 15 0).getLsbD 0 then 0xe1 else 0x00
        else (bitsBlock u).getD (j - 1) 0 <<< 7 : Byte) := by
  have hout : ((bitsBlock u).getD 15 0).getLsbD 0 = u.getLsbD 0 :=
    bitsBlock_getLsbD u (by decide) (by decide)
  rw [hout, gf128Shift]
  cases u.getLsbD 0
  case false => exact bitsBlock_ushiftRight_one u hj
  case true =>
    have hlen : ∀ w, j < (bitsBlock w).length := fun w => by rwa [bitsBlock_length]
    rw [if_pos rfl, bitsBlock_xor, xorBytes_getD (hlen _) (hlen _), bitsBlock_ushiftRight_one u hj,
      bitsBlock_gf128R_getD, BitVec.xor_assoc]
    split <;> simp

/-! ## GHASH (rule R143) -/

theorem ghashLoop_concat (h y b : Bytes) (xs : List Bytes) :
    ghashLoop h y (xs ++ [b]) = gf128Mul (xorBytes (ghashLoop h y xs) b) h := by
  induction xs generalizing y with
  | nil => rfl
  | cons x xs ih => exact ih _

theorem blocks_concat {x b : Bytes} (hx : x.length % 16 = 0) (hb : b.length = 16) :
    blocks (x ++ b) = blocks x ++ [b] := by
  have hall : ∀ p ∈ blocks x ++ [b], p.length = 16 :=
    List.forall_mem_append.mpr ⟨blocks_all_length x, by simpa using hb⟩
  have hjoin : (blocks x ++ [b]).flatten = x ++ b := by simp [blocks_flatten hx]
  rw [← hjoin, blocks_of_flatten hall]

theorem ghash_append {h x b : Bytes} (hx : x.length % 16 = 0) (hb : b.length = 16) :
    ghash h (x ++ b) = gf128Mul (xorBytes (ghash h x) b) h := by
  rw [ghash, blocks_concat hx hb, ghashLoop_concat, ghash]

/-! ## The zero padding (rule R141) -/

theorem pad16_length (b : Bytes) : (pad16 b).length = b.length + (16 - b.length % 16) % 16 := by
  simp [pad16]

/-! ## The obligation -/

/-- Settles O59: multiplication by `x` is one step of `V`, GHASH is a fold over the blocks, and the tag is its
own definition. -/
theorem ghashAndTag : Obligations.GhashAndTag := by
  unfold Obligations.GhashAndTag
  refine ⟨fun v hv => ⟨gf128Mul_length _ _, fun j hj => ?_⟩,
    fun h x b hx hb => ⟨rfl, ghash_append hx hb⟩, fun b => ?_,
    fun k n a c hk _ => ⟨rfl, gcmTag_length n a c (sixteen_le_of_keyLength hk), rfl, rfl⟩⟩
  · have hbyte := bitsBlock_gf128Shift_getD (blockBits v) hj
    rwa [bitsBlock_blockBits hv, ← x_gf128Mul] at hbyte
  · rw [pad16_length, Nat.add_sub_cancel_left]
    exact ⟨by omega, by omega, rfl⟩

end Sys2Proof.Machine
end

section
/-! PROOFS. The commands `GCME` and `GCMD` (spec/45_gcm_ghash.md rules R154 and R155). -/

namespace Sys2Proof.Machine

open Sys2Proof.Claims

/-! ## Two outputs -/

/-- Bytes that a later write does not overlap still stand. -/
theorem holds_memWrite_of_not_overlap {t : State} {p q : Nat} {v w : Bytes} (hwf : t.mem.wf)
    (h : Holds t p v) (hd : ¬ overlap p v.length q w.length) : Holds (t.memWrite q w) p v := by
  intro k hk
  obtain hw | hw := Nat.eq_zero_or_pos w.length
  · rw [List.eq_nil_of_length_eq_zero hw]
    exact h k hk
  · rw [t.byteAt_memWrite_outside q (p + k) w hwf (by unfold overlap at hd; omega), h k hk]

theorem byteAt_memWrite_memWrite_outside {s : State} {a p q : Nat} {v w : Bytes} (hwf : s.mem.wf)
    (hp : Outside a p v.length) (hq : Outside a q w.length) :
    ((s.memWrite p v).memWrite q w).byteAt a = s.byteAt a := by
  rw [State.byteAt_memWrite_outside _ q a w (s.memWrite_mem_wf p v hwf) hq,
    s.byteAt_memWrite_outside p a v hwf hp]

/-! ## The tag check of `GCMD` (rule R151) -/

theorem gcmDecryptAndVerify_of_tag_eq {c k t n a : Bytes} (h : gcmTag k n a c = t) :
    gcmDecryptAndVerify c k t n a = some (gcmCtr c k n) :=
  if_neg (not_not_intro h)

theorem gcmDecryptAndVerify_of_tag_ne {c k t n a : Bytes} (h : gcmTag k n a c ≠ t) :
    gcmDecryptAndVerify c k t n a = none :=
  if_pos h

/-! ## The checks of the GCM commands -/

section GcmCommands

variable {s : State}

theorem exec_gcme_of_not_keyLengthOk (hk : ¬ s.keyLengthOk) :
    exec .gcme s = .next (s.raise .invalidKeyLength) :=
  if_pos hk

theorem exec_gcme_of_ivlen_ne (hk : s.keyLengthOk) (hiv : s.ivlen.toNat ≠ 12) :
    exec .gcme s = .next (s.raise .unsupportedNonceLength) :=
  (if_neg (not_not_intro hk)).trans (if_pos hiv)

theorem exec_gcme_of_not_rangesOk (hk : s.keyLengthOk) (hiv : s.ivlen.toNat = 12)
    (hr : ¬ s.gcmRangesOk ∨ s.outputsOverlap) : exec .gcme s = .next (s.raise .accessFault) :=
  (if_neg (not_not_intro hk)).trans ((if_neg (not_not_intro hiv)).trans (if_pos hr))

theorem exec_gcme_of_ok (hk : s.keyLengthOk) (hiv : s.ivlen.toNat = 12) (hr : s.gcmRangesOk)
    (hd : ¬ s.outputsOverlap) :
    exec .gcme s =
      .next (((s.memWrite s.dst.toNat
          (gcmEncryptAndTag s.dataOperand s.keyOperand s.nonceOperand s.aadOperand).1).memWrite
        s.tagp.toNat
          (gcmEncryptAndTag s.dataOperand s.keyOperand s.nonceOperand s.aadOperand).2).succeed s.slen) :=
  (if_neg (not_not_intro hk)).trans ((if_neg (not_not_intro hiv)).trans
    (if_neg (not_or.mpr ⟨not_not_intro hr, hd⟩)))

theorem exec_gcmd_of_not_keyLengthOk (hk : ¬ s.keyLengthOk) :
    exec .gcmd s = .next (s.raise .invalidKeyLength) :=
  if_pos hk

theorem exec_gcmd_of_ivlen_ne (hk : s.keyLengthOk) (hiv : s.ivlen.toNat ≠ 12) :
    exec .gcmd s = .next (s.raise .unsupportedNonceLength) :=
  (if_neg (not_not_intro hk)).trans (if_pos hiv)

theorem exec_gcmd_of_not_rangesOk (hk : s.keyLengthOk) (hiv : s.ivlen.toNat = 12)
    (hr : ¬ s.gcmRangesOk) : exec .gcmd s = .next (s.raise .accessFault) :=
  (if_neg (not_not_intro hk)).trans ((if_neg (not_not_intro hiv)).trans (if_pos hr))

theorem exec_gcmd_of_tag_ne (hk : s.keyLengthOk) (hiv : s.ivlen.toNat = 12) (hr : s.gcmRangesOk)
    (ht : gcmTag s.keyOperand s.nonceOperand s.aadOperand s.dataOperand ≠ s.tagOperand) :
    exec .gcmd s = .next (s.raise .authenticationError) :=
  (if_neg (not_not_intro hk)).trans ((if_neg (not_not_intro hiv)).trans
    ((if_neg (not_not_intro hr)).trans (by rw [gcmDecryptAndVerify_of_tag_ne ht])))

theorem exec_gcmd_of_tag_eq (hk : s.keyLengthOk) (hiv : s.ivlen.toNat = 12) (hr : s.gcmRangesOk)
    (ht : gcmTag s.keyOperand s.nonceOperand s.aadOperand s.dataOperand = s.tagOperand) :
    exec .gcmd s =
      .next ((s.memWrite s.dst.toNat
        (gcmCtr s.dataOperand s.keyOperand s.nonceOperand)).succeed s.slen) :=
  (if_neg (not_not_intro hk)).trans ((if_neg (not_not_intro hiv)).trans
    ((if_neg (not_not_intro hr)).trans (by rw [gcmDecryptAndVerify_of_tag_eq ht])))

/-- The data of a GCM command keeps its length. -/
theorem gcmCtr_dataOperand_length (hk : s.keyLengthOk) :
    (gcmCtr s.dataOperand s.keyOperand s.nonceOperand).length = s.slen.toNat :=
  (gcmCtr_length _ _ (State.keyOperand_long (not_not_intro hk))).trans s.dataOperand_length

theorem gcmTag_operands_length (hk : s.keyLengthOk) (c : Bytes) :
    (gcmTag s.keyOperand s.nonceOperand s.aadOperand c).length = 16 :=
  gcmTag_length _ _ _ (State.keyOperand_long (not_not_intro hk))

end GcmCommands

/-! ## The obligations -/

/-- Settles O31: the checks of `GCME` fail in the order of the codes; past them the tag is stored after the
ciphertext and leaves it, for the two outputs do not overlap. -/
theorem gcmeWritesCiphertextAndTag : Obligations.GcmeWritesCiphertextAndTag := by
  unfold Obligations.GcmeWritesCiphertextAndTag
  refine ⟨rfl, fun s hwf => ⟨fun hk hiv hr hd => ?_,
    fun hk => faultsWith_of_raise (f := .invalidKeyLength) (exec_gcme_of_not_keyLengthOk hk),
    fun hk hiv => faultsWith_of_raise (f := .unsupportedNonceLength) (exec_gcme_of_ivlen_ne hk hiv),
    fun hk hiv hr => faultsWith_of_raise (f := .accessFault) (exec_gcme_of_not_rangesOk hk hiv hr)⟩⟩
  have hexec := exec_gcme_of_ok hk hiv hr hd
  have hc : (gcmEncryptAndTag s.dataOperand s.keyOperand s.nonceOperand s.aadOperand).1.length =
      s.slen.toNat := gcmCtr_dataOperand_length hk
  have hg : (gcmEncryptAndTag s.dataOperand s.keyOperand s.nonceOperand s.aadOperand).2.length = 16 :=
    gcmTag_operands_length hk _
  have hwf' := s.memWrite_mem_wf s.dst.toNat
    (gcmEncryptAndTag s.dataOperand s.keyOperand s.nonceOperand s.aadOperand).1 hwf
  exact ⟨hc, hg, _, hexec, rfl, rfl, exec_untouched hexec,
    holds_memWrite_of_not_overlap hwf' (s.holds_memWrite _ _ hwf) (by rwa [hc, hg]),
    State.holds_memWrite _ _ _ hwf',
    fun a hdst htag => byteAt_memWrite_memWrite_outside hwf (hc ▸ hdst) (hg ▸ htag)⟩

/-- Settles O32: the checks of `GCMD` fail in the order of the codes, the tag last; past them the plaintext is
stored at `DST`. -/
theorem gcmdVerifiesThenDecrypts : Obligations.GcmdVerifiesThenDecrypts := by
  unfold Obligations.GcmdVerifiesThenDecrypts
  exact ⟨rfl, fun s hwf =>
    ⟨fun hk hiv hr ht => completes_of_store hwf (gcmCtr_dataOperand_length hk)
      (exec_gcmd_of_tag_eq hk hiv hr ht),
    fun hk => faultsWith_of_raise (f := .invalidKeyLength) (exec_gcmd_of_not_keyLengthOk hk),
    fun hk hiv => faultsWith_of_raise (f := .unsupportedNonceLength) (exec_gcmd_of_ivlen_ne hk hiv),
    fun hk hiv hr => faultsWith_of_raise (f := .accessFault) (exec_gcmd_of_not_rangesOk hk hiv hr),
    fun hk hiv hr ht => faultsWith_of_raise (f := .authenticationError)
      (exec_gcmd_of_tag_ne hk hiv hr ht)⟩⟩

end Sys2Proof.Machine
end

section
/-! PROOFS. The faults: the first one is reported, it has no other effect, and engines side by side do not
disturb one another (spec/60_exceptions.md rules R166 to R177 and R183). -/

namespace Sys2Proof.Machine

open Sys2Proof.Claims

/-! ## The first cause decides (rule R177) -/

/-- `t` reports the first of the causes `c` in the priority order, and success when there is none. -/
def ReportsFirst (c : ErrorCode → Prop) (t : State) : Prop :=
  (∀ f : ErrorCode, t.err = f.code ↔ c f ∧ ∀ g, rank g < rank f → ¬ c g) ∧ (t.err = 0 ↔ ∀ f, ¬ c f)

section Causes

variable {c : ErrorCode → Prop} {s : State} {f : ErrorCode}

theorem reportsFirst_raise (hf : c f) (hrank : ∀ g, c g → g ≠ f → rank f < rank g) :
    ReportsFirst c (s.raise f) := by
  rw [ReportsFirst, State.raise_err]
  refine ⟨fun g => ⟨fun hcode => ?_, fun ⟨hg, hnone⟩ => ?_⟩,
    iff_of_false f.code_ne_zero fun hnone => hnone f hf⟩
  · obtain rfl := ErrorCode.code_injective hcode
    exact ⟨hf, fun g hlt hg => lt_asymm hlt (hrank g hg (by rintro rfl; exact lt_irrefl _ hlt))⟩
  · by_contra hcode
    exact hnone f (hrank g hg (by rintro rfl; exact hcode rfl)) hf

theorem reportsFirst_succeed (hnone : ∀ f, ¬ c f) (n : Word) : ReportsFirst c (s.succeed n) := by
  rw [ReportsFirst, State.succeed_err]
  exact ⟨fun f => iff_of_false f.code_ne_zero.symm fun ⟨hf, _⟩ => hnone f hf, iff_of_true rfl hnone⟩

/-- A command from `s` that looks for the causes `c` in the order of the list: it raises the first that is
there, and succeeds past the last. -/
inductive Checks (c : ErrorCode → Prop) (s : State) :
    List ErrorCode → Host.Outcome State Fault Refusal → Prop
  | succeed (u : State) (n : Word) : Checks c s [] (.next (u.succeed n))
  | raise {f : ErrorCode} {fs : List ErrorCode} (hf : c f) : Checks c s (f :: fs) (.next (s.raise f))
  | pass {f : ErrorCode} {fs : List ErrorCode} {o : Host.Outcome State Fault Refusal} (hf : ¬ c f)
      (ho : Checks c s fs o) : Checks c s (f :: fs) o

/-- One check of a command, then the others. -/
theorem Checks.ite {p : Prop} [Decidable p] {fs : List ErrorCode}
    {o : Host.Outcome State Fault Refusal} (hp : p ↔ c f) (ho : Checks c s fs o) :
    Checks c s (f :: fs) (if p then .next (s.raise f) else o) := by
  split
  · exact .raise (hp.mp ‹_›)
  · exact .pass (mt hp.mpr ‹_›) ho

/-- Checks of every cause, in the priority order, report the first one. -/
theorem Checks.reportsFirst {fs : List ErrorCode} {o : Host.Outcome State Fault Refusal} {t : State}
    (h : Checks c s fs o) (hall : ∀ f, c f → f ∈ fs) (hsorted : fs.Pairwise (rank · < rank ·))
    (ho : o = .next t) : ReportsFirst c t := by
  induction h with
  | succeed u n =>
    cases ho
    exact reportsFirst_succeed (fun f hf => List.not_mem_nil (hall f hf)) n
  | raise hf =>
    cases ho
    exact reportsFirst_raise hf fun g hg hne =>
      List.rel_of_pairwise_cons hsorted ((List.mem_cons.mp (hall g hg)).resolve_left hne)
  | pass hf _ ih =>
    exact ih (fun g hg => (List.mem_cons.mp (hall g hg)).resolve_left (by rintro rfl; exact hf hg))
      hsorted.of_cons ho

end Causes

/-! ## The causes of a command, in the order it looks for them -/

/-- The error codes a command can report, in the order of its checks. -/
def checkOrder : Instr → List ErrorCode
  | .kexp => [.invalidKeyLength, .accessFault]
  | .encb | .decb => [.invalidKeyLength, .invalidBlockLength, .accessFault]
  | .padb _ => [.invalidSchemeError, .invalidInputError, .accessFault]
  | .ecbe | .ecbd => [.invalidKeyLength, .invalidDataLength, .accessFault]
  | .cbce | .cbcd => [.invalidKeyLength, .invalidBlockLength, .invalidDataLength, .accessFault]
  | .ctre | .ctrd => [.invalidKeyLength, .invalidBlockLength, .accessFault]
  | .gcme => [.invalidKeyLength, .unsupportedNonceLength, .accessFault]
  | .gcmd => [.invalidKeyLength, .unsupportedNonceLength, .accessFault, .authenticationError]

/-- Every command checks in the priority order of rule R177. -/
theorem checkOrder_sorted (i : Instr) : (checkOrder i).Pairwise (rank · < rank ·) := by
  cases i <;> simp [checkOrder, rank]

section Commands

variable {i : Instr} {s : State}

/-- A command checks for every code it has a cause of. -/
theorem mem_checkOrder_of_cause {f : ErrorCode} (h : Cause i s f) : f ∈ checkOrder i := by
  cases f with
  | invalidKeyLength | invalidBlockLength | invalidDataLength =>
    cases i <;> simp_all [Cause, checkOrder]
  | invalidSchemeError =>
    obtain ⟨n, rfl⟩ := h
    exact List.mem_cons_self
  | authenticationError =>
    obtain ⟨rfl, -⟩ := h
    decide
  | malformedInputError | illegalCommand => exact h.elim
  | invalidInputError =>
    obtain ⟨⟨sch, rfl⟩, -⟩ := h
    simp [checkOrder]
  | accessFault => cases i <;> simp [checkOrder]
  | unsupportedNonceLength => obtain ⟨rfl | rfl, -⟩ := h <;> decide

theorem not_keyLengthOk_iff : ¬ s.keyLengthOk ↔ s.klen.toNat ∉ [16, 24, 32] := by
  simp [State.keyLengthOk]

theorem not_scheduleLengthOk_iff : ¬ s.scheduleLengthOk ↔ s.klen.toNat ∉ [176, 208, 240] := by
  simp [State.scheduleLengthOk]

/-- The ranges a command checks are those it reads and those it writes (rule R174). -/
theorem not_rangesOk_iff {p : Prop}
    (hp : p ↔ ∀ r ∈ inputRanges i s ++ outputRanges i s, s.rangeValid r.1 r.2) :
    ¬ p ↔ ∃ r ∈ inputRanges i s ++ outputRanges i s, ¬ s.rangeValid r.1 r.2 := by
  simp only [hp, not_forall, exists_prop]

theorem not_rangesOk_iff_cause (hi : i ≠ .gcme) {p : Prop}
    (hp : p ↔ ∀ r ∈ inputRanges i s ++ outputRanges i s, s.rangeValid r.1 r.2) :
    ¬ p ↔ Cause i s .accessFault :=
  (not_rangesOk_iff hp).trans (or_iff_left fun h => hi h.1).symm

/-- Every command looks for its causes one after the other. -/
theorem exec_checks (i : Instr) (s : State) : Checks (Cause i s) s (checkOrder i) (exec i s) := by
  cases i with
  | kexp =>
    exact .ite not_keyLengthOk_iff <|
      .ite (not_rangesOk_iff_cause (by decide) (by simp [inputRanges, outputRanges, scheduleLength])) <|
      .succeed _ _
  | encb | decb =>
    exact .ite not_scheduleLengthOk_iff <| .ite Iff.rfl <|
      .ite (not_rangesOk_iff_cause (by decide) (by simp [inputRanges, outputRanges])) <|
      .succeed _ _
  | padb sch =>
    cases sch with
    | unrecognized n => exact .raise ⟨n, rfl⟩
    | scheme sc =>
      exact .pass (by rintro ⟨n, h⟩; cases h) <|
        .ite (by simp [Cause]) <|
        .ite (not_rangesOk_iff_cause (by simp) (by simp [inputRanges, outputRanges])) <|
        .succeed _ _
  | ecbe | ecbd =>
    exact .ite not_keyLengthOk_iff <| .ite Iff.rfl <|
      .ite (not_rangesOk_iff_cause (by decide) (by simp [inputRanges, outputRanges])) <|
      .succeed _ _
  | cbce | cbcd =>
    exact .ite not_keyLengthOk_iff <| .ite Iff.rfl <| .ite Iff.rfl <|
      .ite (not_rangesOk_iff_cause (by decide) (by simp [inputRanges, outputRanges])) <|
      .succeed _ _
  | ctre | ctrd =>
    exact .ite not_keyLengthOk_iff <| .ite Iff.rfl <|
      .ite (not_rangesOk_iff_cause (by decide) (by simp [inputRanges, outputRanges])) <|
      .succeed _ _
  | gcme =>
    exact .ite not_keyLengthOk_iff <| .ite (by simp [Cause]) <|
      .ite (or_congr (not_rangesOk_iff (by simp [inputRanges, outputRanges])) (and_iff_right rfl).symm) <|
      .succeed _ _
  | gcmd =>
    refine .ite not_keyLengthOk_iff <| .ite (by simp [Cause]) <|
      .ite (not_rangesOk_iff_cause (by decide)
        (by simp [State.gcmRangesOk, inputRanges, outputRanges, and_comm, and_left_comm])) ?_
    by_cases ht : gcmTag s.keyOperand s.nonceOperand s.aadOperand s.dataOperand = s.tagOperand
    · rw [gcmDecryptAndVerify_of_tag_eq ht]
      exact .pass (fun h => h.2 ht) (.succeed _ _)
    · rw [gcmDecryptAndVerify_of_tag_ne ht]
      exact .raise ⟨rfl, ht⟩

end Commands

theorem exec_reportsFirst {i : Instr} {s t : State} (h : exec i s = .next t) :
    ReportsFirst (Cause i s) t :=
  (exec_checks i s).reportsFirst (fun _ => mem_checkOrder_of_cause) (checkOrder_sorted i) h

/-! ## A command word that has just arrived -/

@[simp] theorem State.memRead_accept (s : State) (w : Word) (a n : Nat) :
    (s.accept w).memRead a n = s.memRead a n :=
  State.memRead_congr a n fun _ _ => rfl

/-- The causes do not look at `CMD`. -/
theorem cause_accept (i : Instr) (s : State) (w : Word) : Cause i (s.accept w) = Cause i s := by
  funext f
  cases f with
  | authenticationError =>
    simp [Cause, State.keyOperand, State.nonceOperand, State.aadOperand, State.dataOperand,
      State.tagOperand]
  | _ => rfl

theorem issue_reportsFirst {w : Word} {s t : State} (h : issue w s = .next t) :
    ReportsFirst (CauseOfWord w s) t := by
  cases hd : decode w with
  | error e =>
    have hcause : CauseOfWord w s = (· = .illegalCommand) := by
      funext f
      simp only [CauseOfWord, hd]
    rw [issue_of_decode_error s hd] at h
    cases h
    rw [hcause]
    exact reportsFirst_raise rfl fun _ hg hne => absurd hg hne
  | ok i =>
    have hcause : CauseOfWord w s = Cause i s := by
      funext f
      simp only [CauseOfWord, hd]
    rw [issue_of_decode_ok s hd] at h
    rw [hcause, ← cause_accept i s w]
    exact exec_reportsFirst h

/-! ## A fault's effect (rule R176) -/

theorem issue_next_ends {w : Word} {s t : State} (h : issue w s = .next t) : Ends (s.accept w) t := by
  obtain ⟨u, hu, he⟩ := issue_ends w s
  obtain rfl : u = t := by simpa [hu] using h
  exact he

/-- An end that leaves a nonzero error code is the raise of a fault. -/
theorem Ends.exists_raise_of_err {s t : State} (h : Ends s t) (he : t.err ≠ 0) :
    ∃ f, t = s.raise f := by
  obtain ⟨f, -, ht⟩ | ⟨u, n, rfl⟩ := h.raise_or_succeed
  · exact ⟨f, ht⟩
  · exact absurd (u.succeed_err n) he

/-! ## Engines side by side (rule R183) -/

section Platform

variable {j : Nat} {es : List State} {s : State}

theorem stepInstance_of_next {t : State} (hs : es[j]? = some s) (h : step s = .next t) :
    stepInstance j es = .next (es.set j t) := by
  rw [step] at h
  simp only [stepInstance, hs, h]

theorem stepInstance_of_refused {r : Refusal} (hs : es[j]? = some s) (h : step s = .refused r) :
    stepInstance j es = .refused r := by
  rw [step] at h
  simp only [stepInstance, hs, h]

/-- A step of one engine leaves every other engine as it is. -/
theorem stepInstance_other {es1 : List State} {m : Nat} (h : stepInstance j es = .next es1)
    (hm : m ≠ j) : es1[m]? = es[m]? := by
  obtain ⟨_, t, -, -, rfl⟩ := stepInstance_next h
  exact List.getElem?_set_ne hm.symm

theorem stepInstance_comm {k : Nat} {es1 es2 : List State} (hjk : j ≠ k)
    (hj : stepInstance j es = .next es1) (hk : stepInstance k es1 = .next es2) :
    ∃ es1', stepInstance k es = .next es1' ∧ stepInstance j es1' = .next es2 := by
  have hother := stepInstance_other hj hjk.symm
  obtain ⟨sj, tj, hsj, hstepj, rfl⟩ := stepInstance_next hj
  obtain ⟨sk, tk, hsk, hstepk, rfl⟩ := stepInstance_next hk
  have hfirst := stepInstance_of_next (hother ▸ hsk) hstepk
  refine ⟨_, hfirst, ?_⟩
  rw [stepInstance_of_next ((stepInstance_other hfirst hjk).trans hsj) hstepj,
    List.set_comm _ _ hjk.symm]

end Platform

/-! ## The obligations -/

/-- Settles O24: every command looks for its causes in the priority order, and an illegal word has one cause
alone. -/
theorem firstFaultIsReported : Obligations.FirstFaultIsReported := by
  unfold Obligations.FirstFaultIsReported
  exact ⟨rfl, fun _ _ _ h => issue_reportsFirst h⟩

/-- Settles O23: a nonzero code comes from `raise` alone, and `raise` changes `STATUS` and `RLEN` alone. -/
theorem faultsHaveNoOtherEffect : Obligations.FaultsHaveNoOtherEffect := by
  unfold Obligations.FaultsHaveNoOtherEffect
  intro w s t h he
  have hend := issue_next_ends h
  obtain ⟨f, rfl⟩ := hend.exists_raise_of_err he
  exact ⟨rfl, rfl, by rw [State.raise_err]; rfl, hend.untouched, (s.accept w).byteAt_raise f⟩

/-- Settles O57: a step puts its engine's next state in its place, so it reads and writes that place alone. -/
theorem enginesAreIndependent : Obligations.EnginesAreIndependent := by
  unfold Obligations.EnginesAreIndependent
  refine ⟨fun j es s hs => ⟨fun t h => ?_, fun r h => stepInstance_of_refused hs h⟩,
    fun j k es es1 es2 hjk hj hk =>
      ⟨fun m hm => stepInstance_other hj hm, stepInstance_comm hjk hj hk⟩⟩
  have hstep := stepInstance_of_next hs h
  obtain ⟨hlt, -⟩ := List.getElem?_eq_some_iff.mp hs
  exact ⟨_, hstep, rfl, List.getElem?_set_self hlt, fun m hm => stepInstance_other hstep hm⟩

end Sys2Proof.Machine
end

section
/-! PROOFS. Hazards: a `CMD` write is never stuck (spec/70_reset_and_hazards.md rule R194). -/

namespace Sys2Proof.Machine

/-- Settles O9: an illegal word and a command both answer a next state in one of the ways of `Ends`, and each
of these reports success or a code the engine can raise. -/
theorem everyCommandEnds : Obligations.EveryCommandEnds := by
  unfold Obligations.EveryCommandEnds
  intro w s
  obtain ⟨t, ht, hend⟩ := issue_ends w s
  exact ⟨t, ht, hend.reportsOutcome⟩

end Sys2Proof.Machine
end

section
/-! PROOFS. The decoder and the encoder undo each other, a `CMD` write runs the decoded command, the ranges, and
the state after a reset (spec/30_encoding.md rules R46, R47, R49 and R57, spec/20_memory.md rule R33,
spec/10_state.md rule R26). -/

namespace Sys2Proof.Machine

/-! ## The fetch word -/

theorem withFetchWord_pending (s : State) (w : Word) :
    (s.withFetchWord 32 w.toNat).pending = .regWrite 0 w :: s.pending := by
  simp [State.withFetchWord, Reg.number, Nat.mod_eq_of_lt w.isLt]

/-! ## The obligations -/

/-- Settles O2: the fields of a command's word are the command's, and the decoder reads them back. -/
theorem decodeOfEncode : Obligations.DecodeOfEncode := by
  unfold Obligations.DecodeOfEncode
  exact fun _ hi => decode_encode hi

/-- Settles O3: the decoder reads all three fields, and they make up the word. -/
theorem encodeOfDecode : Obligations.EncodeOfDecode := by
  unfold Obligations.EncodeOfDecode
  exact fun _ _ h => encode_of_decode h

/-- Settles O1: the legal words are encodings, and each illegal one stops at its own line of rule R49. -/
theorem sampleWordsDecode : Obligations.SampleWordsDecode := by
  unfold Obligations.SampleWordsDecode
  exact ⟨decode_encode (i := .kexp) rfl, decode_encode (i := .encb) rfl, decode_encode (i := .decb) rfl,
    decode_encode (i := .padb (.scheme .zero)) rfl, decode_encode (i := .padb (.unrecognized 255)) rfl,
    decode_encode (i := .ecbe) rfl, decode_encode (i := .cbcd) rfl, decode_encode (i := .ctre) rfl,
    decode_encode (i := .gcmd) rfl, rfl, rfl, rfl⟩

/-- Settles O7: the step performs the `CMD` write, the write is `issue`, and `issue` asks the decoder. -/
theorem stepRunsTheDecodedCommand : Obligations.StepRunsTheDecodedCommand := by
  unfold Obligations.StepRunsTheDecodedCommand
  refine ⟨fun s w rest i hp hd => ?_, fun s w rest e hp hd => ?_,
    fun s w => ⟨withFetchWord_pending s w, rfl⟩⟩
  · rw [step_of_pending hp, perform_cmdWrite, issue_of_decode_ok _ hd]
    rfl
  · rw [step_of_pending hp, perform_cmdWrite, issue_of_decode_error _ hd]
    rfl

/-- Settles O18: a range is a sum of naturals below `MEM_BYTES`, which is at most `2^32`. -/
theorem rangesDoNotWrap : Obligations.RangesDoNotWrap := by
  unfold Obligations.RangesDoNotWrap
  intro s hsize
  have hmax : s.memBytes ≤ 2 ^ 32 := hsize.2
  refine ⟨fun p => .inl rfl, fun p q n => ⟨fun h => lt_irrefl 0 h.1, fun h => lt_irrefl 0 h.2.1⟩,
    fun p n hn => ⟨fun hvalid k hk => ?_, fun hall => ?_⟩, fun p n hn hend hvalid => ?_⟩
  · obtain hzero | hinside := hvalid <;> omega
  · have hlast := hall (n - 1) (by omega)
    exact .inr (by omega)
  · obtain hzero | hinside := hvalid <;> omega

/-- Settles O20: a reset is `resetEngine`, whose memory lists no byte. -/
theorem resetState : Obligations.ResetState := by
  unfold Obligations.ResetState
  exact fun s => ⟨_, rfl, fun r => by cases r <;> rfl, rfl, rfl, fun _ => rfl⟩

/-- Settles O21: the reset memory lists no byte, and the reset registers and the launch size are numbers. -/
theorem resetSatisfiesInvariant : Obligations.ResetSatisfiesInvariant := by
  unfold Obligations.ResetSatisfiesInvariant
  exact ⟨State.reset_mem_wf, fun _ hc => absurd hc List.not_mem_nil, by decide, by decide⟩

end Sys2Proof.Machine
end

section
/-! PROOFS. The invariant of the machine (spec/10_state.md rule R27), and the fault record beside the engine
(spec/60_exceptions.md rule R179). -/

namespace Sys2Proof.Machine

/-! ## The memory part of the invariant -/

/-- A write of a valid range stays inside `M`. -/
theorem State.memWrite_memInside {s : State} {a : Nat} {v : Bytes} (h : s.memInside)
    (hv : s.rangeValid a v.length) : (s.memWrite a v).memInside := by
  intro c hc
  rw [State.memWrite_memBytes]
  obtain hwritten | hold := Memory.mem_putAll hc
  · obtain hzero | hvalid := hv <;> omega
  · exact h c hold

/-- A command keeps the canonical form. -/
theorem Ends.mem_wf {s t : State} (h : Ends s t) (hwf : s.mem.wf) : t.mem.wf := by
  cases h with
  | raised f _ ht => exact ht ▸ hwf
  | stored v n _ ht => exact ht ▸ s.memWrite_mem_wf _ v hwf
  | storedTwo c g n _ _ _ ht => exact ht ▸ State.memWrite_mem_wf _ g (s.memWrite_mem_wf _ c hwf)

/-- A command writes inside `M`. -/
theorem Ends.memInside {s t : State} (h : Ends s t) (hin : s.memInside) : t.memInside := by
  cases h with
  | raised f _ ht => exact ht ▸ hin
  | stored v n hv ht => exact ht ▸ s.memWrite_memInside hin hv
  | storedTwo c g n hc hg _ ht =>
    exact ht ▸ State.memWrite_memInside (s.memWrite_memInside hin hc) hg

/-! ## The status part of the invariant -/

/-- A command leaves `STATUS`, `RLEN` and `CMD` as the invariant asks, whatever they were. -/
theorem Ends.statusOk {s t : State} (h : Ends s t) : t.statusOk := by
  obtain ⟨hvalid, hreserved, hle, hne⟩ := h.status_fields
  refine ⟨hreserved, hle, hne, fun hinvalid => ?_, fun herr => ?_⟩
  · rw [hvalid] at hinvalid
    cases hinvalid
  · obtain ⟨f, rfl⟩ := h.exists_raise_of_err herr
    rfl

/-! ## The whole invariant -/

/-- A command reaches the invariant from its memory part alone: a word has just arrived in `CMD`. -/
theorem Ends.inv {s t : State} (h : Ends s t) (hwf : s.mem.wf) (hin : s.memInside) (hsize : s.memBytesOk) :
    t.Inv := by
  obtain ⟨-, hbytes, -⟩ := h.untouched
  exact ⟨h.mem_wf hwf, h.memInside hin, by rwa [State.memBytesOk, hbytes], h.statusOk⟩

/-- A host write of a register other than `CMD` keeps everything the invariant looks at. -/
theorem State.setReg_inv {s : State} {r : Reg} (v : Word) (hr : r ≠ .cmd) (hs : s.Inv) :
    (s.setReg r v).Inv := by
  cases r with
  | cmd => exact absurd rfl hr
  | _ => exact hs

@[simp] theorem State.resetEngine_statusReserved (s : State) : s.resetEngine.statusReserved = 0 := by
  simp [State.statusReserved]

theorem State.resetEngine_inv {s : State} (hs : s.Inv) : s.resetEngine.Inv := by
  obtain ⟨-, -, hsize, -⟩ := hs
  exact ⟨s.resetEngine_mem_wf, fun _ hc => absurd hc List.not_mem_nil, hsize,
    by simp [State.statusOk]⟩

/-- Every transaction that answers a next state keeps the invariant. -/
theorem Performed.inv {x : Transaction} {s u : State} (h : Performed x s u) (hs : s.Inv) : u.Inv := by
  cases h with
  | command w _ he =>
    obtain ⟨hwf, hin, hsize, -⟩ := hs
    exact he.inv hwf hin hsize
  | wrote r v _ hr hu => exact hu ▸ s.setReg_inv v hr hs
  | read r _ hu => exact hu ▸ hs
  | stored a v _ hv hu =>
    obtain ⟨hwf, hin, hsize, hstatus⟩ := hs
    exact hu ▸ ⟨s.memWrite_mem_wf _ v hwf, s.memWrite_memInside hin hv.2, hsize, hstatus⟩
  | loaded a n _ _ hu => exact hu ▸ hs
  | wasReset _ hu => exact hu ▸ s.resetEngine_inv hs

/-! ## The fault record -/

theorem Monitor.step_next {m m' : Monitor} (h : m.step = .next m') :
    Machine.step m.engine = .next m'.engine ∧ m'.faulted = (m.faulted || m'.engine.err != 0) := by
  unfold Monitor.step at h
  split at h <;> cases h
  exact ⟨‹_›, rfl⟩

/-! ## The obligations -/

/-- Settles O22: the transaction of the step keeps the invariant; an idle step changes nothing. -/
theorem stepKeepsInvariant : Obligations.StepKeepsInvariant := by
  unfold Obligations.StepKeepsInvariant
  intro s t hs h
  obtain ⟨-, rfl⟩ | ⟨x, rest, -, hperf⟩ := step_cases h
  · exact hs
  · exact hperf.inv hs

/-- Settles O58: the record is the disjunction of what it was and of the new error code. -/
theorem faultRecordIsSticky : Obligations.FaultRecordIsSticky := by
  unfold Obligations.FaultRecordIsSticky
  intro m m' h
  obtain ⟨hstep, hrecord⟩ := Monitor.step_next h
  refine ⟨fun hset => by rw [hrecord, hset, Bool.true_or], fun hclear => ?_, hstep⟩
  rw [hrecord] at hclear
  simpa using (Bool.or_eq_false_iff.mp hclear).2

end Sys2Proof.Machine
end

section
/-! PROOFS. What a command stores, as a function of its operands: so its outcome depends on the registers it
reads and on the bytes of its input ranges alone, and its output does not depend on its place
(spec/10_state.md rule R13, spec/20_memory.md rule R37, spec/70_reset_and_hazards.md rule R186). -/

namespace Sys2Proof.Machine

open Sys2Proof.Claims

/-! ## The outputs -/

/-- The bytes a command puts at `DST` when it succeeds. -/
def output (i : Instr) (s : State) : Bytes :=
  match i with
  | .kexp => expandKey s.keyOperand
  | .encb => encryptBlock s.blockOperand s.keyOperand
  | .decb => decryptBlock s.blockOperand s.keyOperand
  | .padb (.scheme sc) => padBlock s.dataOperand sc
  | .padb (.unrecognized _) => []
  | .ecbe => ecbEncrypt s.dataOperand s.keyOperand
  | .ecbd => ecbDecrypt s.dataOperand s.keyOperand
  | .cbce => cbcEncrypt s.dataOperand s.keyOperand s.ivOperand
  | .cbcd => cbcDecrypt s.dataOperand s.keyOperand s.ivOperand
  | .ctre | .ctrd => ctrXcrypt s.dataOperand s.keyOperand s.ivOperand
  | .gcme | .gcmd => gcmCtr s.dataOperand s.keyOperand s.nonceOperand

/-- Everything a command stores when it succeeds: its output at `DST` and, for `GCME`, the tag at `TAGP`. -/
def outputs (i : Instr) (s : State) : List (Nat × Bytes) :=
  (s.dst.toNat, output i s) ::
    match i with
    | .gcme => [(s.tagp.toNat, gcmTag s.keyOperand s.nonceOperand s.aadOperand (output .gcme s))]
    | .kexp | .encb | .decb | .padb _ | .ecbe | .ecbd | .cbce | .cbcd | .ctre | .ctrd | .gcmd => []

/-- `o` answers a next state in which a fault was raised, or in which `outs` was stored and the command
succeeded with `RLEN = n`. -/
def FaultsOrStores (s : State) (outs : List (Nat × Bytes)) (n : Word)
    (o : Host.Outcome State Fault Refusal) : Prop :=
  (∃ f, o = .next (s.raise f)) ∨ o = .next ((s.memWrites outs).succeed n)

section Checks

variable {s : State} {outs : List (Nat × Bytes)} {n : Word}

theorem FaultsOrStores.raise (f : ErrorCode) : FaultsOrStores s outs n (.next (s.raise f)) :=
  .inl ⟨f, rfl⟩

theorem FaultsOrStores.store : FaultsOrStores s outs n (.next ((s.memWrites outs).succeed n)) :=
  .inr rfl

/-- One check of a command, then the others. -/
theorem FaultsOrStores.check {c : Prop} [Decidable c] {f : ErrorCode}
    {o : Host.Outcome State Fault Refusal} (h : FaultsOrStores s outs n o) :
    FaultsOrStores s outs n (if c then .next (s.raise f) else o) := by
  split
  · exact .raise f
  · exact h

end Checks

/-- Past its checks a command stores its outputs and reports its result length. -/
theorem exec_faultsOrStores (i : Instr) (s : State) :
    FaultsOrStores s (outputs i s) (resultLength s i) (exec i s) := by
  cases i with
  | kexp => exact .check <| .check .store
  | encb | decb => exact .check <| .check <| .check .store
  | padb sch =>
    cases sch with
    | unrecognized n => exact .raise _
    | scheme sc => exact .check <| .check .store
  | ecbe | ecbd => exact .check <| .check <| .check .store
  | cbce | cbcd => exact .check <| .check <| .check <| .check .store
  | ctre | ctrd => exact .check <| .check <| .check .store
  | gcme => exact .check <| .check <| .check .store
  | gcmd =>
    refine .check <| .check <| .check ?_
    by_cases ht : gcmTag s.keyOperand s.nonceOperand s.aadOperand s.dataOperand = s.tagOperand
    · rw [gcmDecryptAndVerify_of_tag_eq ht]
      exact .store
    · rw [gcmDecryptAndVerify_of_tag_ne ht]
      exact .raise _

/-! ## Their lengths -/

section Lengths

variable {i : Instr} {s : State}

theorem keyOperand_long_of_legal (hk : ¬ s.klen.toNat ∉ [16, 24, 32]) : 16 ≤ s.keyOperand.length :=
  State.keyOperand_long (mt not_keyLengthOk_iff.mp hk)

theorem keyOperand_long_of_legal_schedule (hk : ¬ s.klen.toNat ∉ [176, 208, 240]) :
    16 ≤ s.keyOperand.length :=
  s.keyOperand_length ▸ s.scheduleLengthOk_ge (not_not.mp (mt not_scheduleLengthOk_iff.mp hk))

theorem dataOperand_length_mod_of_legal (hd : ¬ s.slen.toNat % 16 ≠ 0) : s.dataOperand.length % 16 = 0 :=
  s.dataOperand_length ▸ not_not.mp hd

/-- Without a cause to fault, the output has the length `RLEN` reports. -/
theorem output_length (hnone : ∀ f, ¬ Cause i s f) : (output i s).length = (resultLength s i).toNat := by
  have hkey := hnone .invalidKeyLength
  have hdata := hnone .invalidDataLength
  cases i with
  | kexp =>
    have hge := keyOperand_long_of_legal hkey
    rw [output, expandKey_length (by omega), s.keyOperand_length]
    exact (scheduleLength_toNat (not_not.mp (mt not_keyLengthOk_iff.mp hkey))).symm
  | encb => exact encryptBlock_length _ (keyOperand_long_of_legal_schedule hkey)
  | decb => exact decryptBlock_length _ (keyOperand_long_of_legal_schedule hkey)
  | padb sch =>
    cases sch with
    | unrecognized n => exact absurd ⟨n, rfl⟩ (hnone .invalidSchemeError)
    | scheme sc =>
      exact padBlock_dataOperand_length (not_lt.mp fun hl => hnone .invalidInputError ⟨⟨_, rfl⟩, hl⟩)
  | ecbe =>
    exact (ecbEncrypt_length (keyOperand_long_of_legal hkey) (dataOperand_length_mod_of_legal hdata)).trans
      s.dataOperand_length
  | ecbd =>
    exact (ecbDecrypt_length (keyOperand_long_of_legal hkey) (dataOperand_length_mod_of_legal hdata)).trans
      s.dataOperand_length
  | cbce =>
    exact (cbcEncrypt_length _ (keyOperand_long_of_legal hkey)
      (dataOperand_length_mod_of_legal hdata)).trans s.dataOperand_length
  | cbcd =>
    exact (cbcDecrypt_length (keyOperand_long_of_legal hkey) s.ivOperand_length
      (dataOperand_length_mod_of_legal hdata)).trans s.dataOperand_length
  | ctre | ctrd => exact (ctrXcrypt_length _ _ (keyOperand_long_of_legal hkey)).trans s.dataOperand_length
  | gcme | gcmd => exact (gcmCtr_length _ _ (keyOperand_long_of_legal hkey)).trans s.dataOperand_length

/-- Without a cause to fault, the output ranges are where the outputs go. -/
theorem outputRanges_eq_map_outputs (hnone : ∀ f, ¬ Cause i s f) :
    outputRanges i s = (outputs i s).map fun o => (o.1, o.2.length) := by
  have hlen := output_length hnone
  have hkey := hnone .invalidKeyLength
  cases i with
  | kexp =>
    rw [resultLength, scheduleLength_toNat (not_not.mp (mt not_keyLengthOk_iff.mp hkey))] at hlen
    simp [outputRanges, outputs, hlen, scheduleLength]
  | gcme =>
    have htag := gcmTag_operands_length (not_not.mp (mt not_keyLengthOk_iff.mp hkey)) (output .gcme s)
    simp [outputRanges, outputs, hlen, htag, resultLength]
  | _ => simp [outputRanges, outputs, hlen, resultLength]

end Lengths

/-! ## A command that succeeds -/

section Success

variable {i : Instr} {s t : State} (h : exec i s = .next t) (he : t.err = 0)

include h he

theorem not_cause_of_success : ∀ f, ¬ Cause i s f := (exec_reportsFirst h).2.mp he

theorem eq_memWrites_of_success : t = (s.memWrites (outputs i s)).succeed (resultLength s i) := by
  obtain ⟨f, hf⟩ | hstore := exec_faultsOrStores i s
  · obtain rfl : t = s.raise f := by simpa [h] using hf
    exact absurd (s.raise_err f ▸ he) f.code_ne_zero
  · simpa [h] using hstore

/-- Every output stands in memory at the end: the tag of `GCME` does not overlap the ciphertext. -/
theorem holds_outputs_of_success (hwf : s.mem.wf) : ∀ o ∈ outputs i s, Holds t o.1 o.2 := by
  have hnone := not_cause_of_success h he
  have hranges := outputRanges_eq_map_outputs hnone
  obtain rfl := eq_memWrites_of_success h he
  have hfirst := s.holds_memWrite s.dst.toNat (output i s) hwf
  cases i with
  | gcme =>
    have hwf' := s.memWrite_mem_wf s.dst.toNat (output .gcme s) hwf
    simp only [outputRanges, outputs, List.map_cons, List.map_nil, List.cons.injEq, Prod.mk.injEq,
      true_and, and_true] at hranges
    obtain ⟨hc, hg⟩ := hranges
    have hdisjoint : ¬ overlap s.dst.toNat s.slen.toNat s.tagp.toNat 16 := fun hov =>
      hnone .accessFault (.inr ⟨rfl, hov⟩)
    rw [hc, hg] at hdisjoint
    simp only [outputs, List.forall_mem_cons]
    exact ⟨holds_memWrite_of_not_overlap hwf' hfirst hdisjoint, State.holds_memWrite _ _ _ hwf', nofun⟩
  | _ => exact List.forall_mem_singleton.mpr hfirst

theorem holds_output_of_success (hwf : s.mem.wf) : Holds t s.dst.toNat (output i s) :=
  holds_outputs_of_success h he hwf (s.dst.toNat, output i s) List.mem_cons_self

theorem rlen_of_success : t.rlen.toNat = (output i s).length := by
  rw [exec_rlen_of_success h he, output_length (not_cause_of_success h he)]

end Success

theorem exec_next_ends {i : Instr} {s t : State} (h : exec i s = .next t) : Ends s t := by
  obtain ⟨u, hu, he⟩ := exec_ends i s
  obtain rfl : u = t := by simpa [hu] using h
  exact he

/-! ## Two states that agree on what a command reads -/

theorem dst_mem_readRegs (i : Instr) : Reg.dst ∈ readRegs i := by
  cases i <;> simp [readRegs]

section Agreement

variable {i : Instr} {s s' : State}

/-- The output is a function of the input ranges' bytes, so the register `DST` is not looked at. -/
theorem output_eq_of_agree (hregs : ∀ r ∈ readRegs i, r ≠ .dst → s'.reg r = s.reg r)
    (hread : ∀ r ∈ inputRanges i s, s'.memRead r.1 r.2 = s.memRead r.1 r.2) : output i s' = output i s := by
  cases i
  case' padb sch => cases sch
  case padb.unrecognized => rfl
  all_goals
    simp only [inputRanges, List.forall_mem_cons] at hread
    simp only [readRegs, List.forall_mem_cons, State.reg, ne_eq, reduceCtorEq, not_false_eq_true,
      forall_const] at hregs
    simp only [output, State.keyOperand, State.dataOperand, State.blockOperand, State.ivOperand,
      State.nonceOperand, hregs, hread]

variable (hregs : ∀ r ∈ readRegs i, s'.reg r = s.reg r)

include hregs

theorem inputRanges_eq_of_agree : inputRanges i s' = inputRanges i s := by
  cases i <;> simp only [readRegs, List.forall_mem_cons, State.reg] at hregs <;>
    simp only [inputRanges, hregs]

theorem outputRanges_eq_of_agree : outputRanges i s' = outputRanges i s := by
  cases i <;> simp only [readRegs, List.forall_mem_cons, State.reg] at hregs <;>
    simp only [outputRanges, hregs]

theorem resultLength_eq_of_agree : resultLength s' i = resultLength s i := by
  cases i <;> simp only [readRegs, List.forall_mem_cons, State.reg] at hregs <;>
    simp only [resultLength, hregs]

variable (hread : ∀ r ∈ inputRanges i s, s'.memRead r.1 r.2 = s.memRead r.1 r.2)

include hread

theorem outputs_eq_of_agree : outputs i s' = outputs i s := by
  have hdst : s'.dst = s.dst := hregs .dst (dst_mem_readRegs i)
  have hout := output_eq_of_agree (fun r hr _ => hregs r hr) hread
  cases i with
  | gcme =>
    simp only [inputRanges, List.forall_mem_cons] at hread
    simp only [readRegs, List.forall_mem_cons, State.reg] at hregs
    simp only [outputs, State.keyOperand, State.nonceOperand, State.aadOperand, hregs, hread, hout]
  | _ => simp only [outputs, hdst, hout]

theorem cause_iff_of_agree (hsize : s'.memBytes = s.memBytes) (f : ErrorCode) :
    Cause i s' f ↔ Cause i s f := by
  cases f with
  | invalidKeyLength | invalidBlockLength | invalidDataLength =>
    cases i <;> simp only [readRegs, List.forall_mem_cons, State.reg] at hregs <;> simp only [Cause, hregs]
  | invalidSchemeError | malformedInputError | illegalCommand => exact Iff.rfl
  | authenticationError =>
    refine and_congr_right ?_
    rintro rfl
    simp only [inputRanges, List.forall_mem_cons] at hread
    simp only [readRegs, List.forall_mem_cons, State.reg] at hregs
    simp only [State.keyOperand, State.dataOperand, State.nonceOperand, State.aadOperand, State.tagOperand,
      hregs, hread]
  | invalidInputError =>
    refine and_congr_right ?_
    rintro ⟨sch, rfl⟩
    have hslen : s'.slen = s.slen := hregs .slen (by simp [readRegs])
    rw [hslen]
  | accessFault =>
    simp only [Cause, inputRanges_eq_of_agree hregs, outputRanges_eq_of_agree hregs, State.rangeValid, hsize]
    refine or_congr_right (and_congr_right ?_)
    rintro rfl
    simp only [readRegs, List.forall_mem_cons, State.reg] at hregs
    simp only [hregs]
  | unsupportedNonceLength =>
    refine and_congr_right fun hi => ?_
    have hivlen : s'.ivlen = s.ivlen := hregs .ivlen (by obtain rfl | rfl := hi <;> decide)
    rw [hivlen]

end Agreement

/-! ## The causes decide the status -/

/-- States that report the first of the same causes have the same error code. -/
theorem ReportsFirst.err_eq {c : ErrorCode → Prop} {t u : State} (ht : ReportsFirst c t)
    (hu : ReportsFirst c u) (hcode : t.err = 0 ∨ ∃ f : ErrorCode, t.err = f.code) : u.err = t.err := by
  obtain hzero | ⟨f, hf⟩ := hcode
  · rw [hzero, hu.2.mpr (ht.2.mp hzero)]
  · rw [hf, (hu.1 f).mpr ((ht.1 f).mp hf)]

section Status

variable {i : Instr} {s t : State}

theorem exec_err_eq_zero_or_code (h : exec i s = .next t) :
    t.err = 0 ∨ ∃ f : ErrorCode, t.err = f.code := by
  obtain ⟨f, rfl⟩ | ⟨outs, -, rfl⟩ := exec_next_cases h
  · exact .inr ⟨f, s.raise_err f⟩
  · exact .inl (State.succeed_err _ _)

/-- `STATUS` is `0x100` and the error code. -/
theorem exec_status (h : exec i s = .next t) : t.status = 0x00000100 + BitVec.ofNat 32 t.err := by
  obtain ⟨f, rfl⟩ | ⟨outs, -, rfl⟩ := exec_next_cases h
  · rw [State.raise_err]
    rfl
  · rw [State.succeed_err]
    rfl

end Status

/-! ## `DECB` after `ENCB` -/

section DecbAfterEncb

variable {s t : State} (h : exec .encb s = .next t)

include h

/-- What `ENCB` has checked when it succeeds. -/
theorem encb_legal_of_success (he : t.err = 0) :
    s.scheduleLengthOk ∧ s.slen.toNat = 16 ∧ s.keyRangeOk ∧ s.rangeValid s.src.toNat 16 ∧ s.outRangeOk 16 := by
  have hnone := not_cause_of_success h he
  have hranges : ¬ ¬ (s.keyRangeOk ∧ s.rangeValid s.src.toNat 16 ∧ s.outRangeOk 16) := fun hn =>
    hnone .accessFault ((not_rangesOk_iff_cause (by decide) (by simp [inputRanges, outputRanges])).mp hn)
  exact ⟨not_not.mp (mt not_scheduleLengthOk_iff.mp (hnone .invalidKeyLength)),
    not_not.mp (hnone .invalidBlockLength), not_not.mp hranges⟩

variable (hwf : s.mem.wf)

include hwf

/-- `ENCB` leaves a schedule that its output does not cover. -/
theorem encb_keeps_schedule
    (hkeep : ∀ k, k < s.klen.toNat → Outside (s.keyp.toNat + k) s.dst.toNat 16) :
    t.keyOperand = s.keyOperand := by
  obtain ⟨hregs, -⟩ := exec_untouched h
  have hkeyp : t.keyp = s.keyp := hregs .keyp (by decide) (by decide)
  have hklen : t.klen = s.klen := hregs .klen (by decide) (by decide)
  rw [State.keyOperand, hkeyp, hklen]
  refine State.memRead_congr _ _ fun k hk => ?_
  by_contra hchanged
  obtain ⟨-, r, hr, hinside⟩ := exec_changes_outputs_only hwf h hchanged
  obtain rfl : r = (s.dst.toNat, 16) := List.mem_singleton.mp hr
  exact hinside (hkeep k hk)

/-- The encrypted block is read back at `DST`. -/
theorem encb_output_read (he : t.err = 0) :
    t.memRead s.dst.toNat 16 = encryptBlock s.blockOperand s.keyOperand := by
  have hread := memRead_of_holds (holds_output_of_success h he hwf)
  rwa [← rlen_of_success h he, exec_rlen_of_success h he] at hread

end DecbAfterEncb

/-- `DECB` of an encrypted block completes with the block. -/
theorem decb_completes_of_encrypted {s : State} {b : Bytes} (hwf : s.mem.wf) (hb : b.length = 16)
    (hblock : s.blockOperand = encryptBlock b s.keyOperand) (hk : s.scheduleLengthOk)
    (hl : s.slen.toNat = 16) (hr : s.keyRangeOk ∧ s.rangeValid s.src.toNat 16 ∧ s.outRangeOk 16) :
    Completes .decb s 16 b := by
  have hsch : 16 ≤ s.keyOperand.length := s.keyOperand_length ▸ s.scheduleLengthOk_ge hk
  have hdone := blockCommand_completes (i := .decb) rfl hwf (decryptBlock_length _ hsch) hk hl hr
  rwa [hblock, decryptBlock_encryptBlock hb hsch] at hdone

/-! ## The obligations -/

/-- Settles O55: the causes and the outputs of a command are functions of the registers it reads and of the
bytes of its input ranges. -/
theorem commandDependsOnItsOperandsOnly : Obligations.CommandDependsOnItsOperandsOnly := by
  unfold Obligations.CommandDependsOnItsOperandsOnly
  intro i s s' t t' hwf hwf' hsize hregs hbytes h h'
  have hread : ∀ r ∈ inputRanges i s, s'.memRead r.1 r.2 = s.memRead r.1 r.2 :=
    fun r hr => State.memRead_congr r.1 r.2 (hbytes r hr)
  have hcause : Cause i s' = Cause i s := funext fun f => propext (cause_iff_of_agree hregs hread hsize f)
  have herr : t'.err = t.err :=
    (exec_reportsFirst h).err_eq (hcause ▸ exec_reportsFirst h') (exec_err_eq_zero_or_code h)
  refine ⟨by rw [exec_status h', exec_status h, herr], ?_, fun he r hr k hk => ?_⟩
  · by_cases he : t.err = 0
    · rw [exec_rlen_of_success h' (herr.trans he), exec_rlen_of_success h he,
        resultLength_eq_of_agree hregs]
    · rw [exec_rlen_of_fault h' (herr ▸ he), exec_rlen_of_fault h he]
  · rw [outputRanges_eq_map_outputs (not_cause_of_success h he)] at hr
    obtain ⟨o, ho, rfl⟩ := List.mem_map.mp hr
    have ho' : o ∈ outputs i s' := outputs_eq_of_agree hregs hread ▸ ho
    rw [holds_outputs_of_success h' (herr.trans he) hwf' o ho' k hk,
      holds_outputs_of_success h he hwf o ho k hk]

/-- Settles O56: the output does not look at `DST`, and a command that succeeds puts it there. -/
theorem outputDoesNotDependOnItsPlace : Obligations.OutputDoesNotDependOnItsPlace := by
  unfold Obligations.OutputDoesNotDependOnItsPlace
  intro i s t t' d hwf h h' he he'
  have hsame : output i { s with dst := d } = output i s :=
    output_eq_of_agree (fun r _ hr => by cases r <;> trivial)
      fun r _ => State.memRead_congr r.1 r.2 fun _ _ => rfl
  have hrlen := rlen_of_success h he
  have hrlen' := rlen_of_success h' he'
  refine ⟨BitVec.eq_of_toNat_eq (by rw [hrlen', hrlen, hsame]), fun k hk => ?_⟩
  have hput := holds_output_of_success h he hwf
  have hput' := holds_output_of_success h' he' hwf
  rw [hsame] at hput'
  rw [hrlen] at hk
  exact (hput' k hk).trans (hput k hk).symm

/-- Settles O41: the schedule stays, `DECB` reads the block `ENCB` stored, and its block function undoes the
other one. -/
theorem decbUndoesEncb : Obligations.DecbUndoesEncb := by
  unfold Obligations.DecbUndoesEncb
  intro s t d hwf h he hkeep hd
  obtain ⟨hk, hl, hkey, -, hout⟩ := encb_legal_of_success h he
  obtain ⟨hregs, hsize, -⟩ := exec_untouched h
  have hslen : t.slen = s.slen := hregs .slen (by decide) (by decide)
  have hkeyp : t.keyp = s.keyp := hregs .keyp (by decide) (by decide)
  have hklen : t.klen = s.klen := hregs .klen (by decide) (by decide)
  have hmem : ∀ a n, State.memRead { t with src := s.dst, dst := d } a n = t.memRead a n :=
    fun a n => State.memRead_congr a n fun _ _ => rfl
  have hsched : State.keyOperand { t with src := s.dst, dst := d } = s.keyOperand :=
    (hmem _ _).trans (encb_keeps_schedule h hwf hkeep)
  have hblock : State.blockOperand { t with src := s.dst, dst := d } =
      encryptBlock s.blockOperand s.keyOperand :=
    (hmem _ _).trans (encb_output_read h hwf he)
  have hwf' : t.mem.wf := (exec_next_ends h).mem_wf hwf
  obtain ⟨-, u, hu, hstatus, -, -, hholds, -⟩ :=
    decb_completes_of_encrypted (s := { t with src := s.dst, dst := d }) hwf' s.blockOperand_length
      (hsched.symm ▸ hblock) (by simpa only [State.scheduleLengthOk, hklen] using hk) (hslen ▸ hl)
      (by simpa only [State.rangeValid, hkeyp, hklen, hsize] using And.intro hkey (And.intro hout hd))
  refine ⟨u, hu, by rw [State.err, hstatus]; rfl, fun k hk16 => ?_⟩
  rw [hholds k (s.blockOperand_length ▸ hk16)]
  exact s.memRead_getElem _ _ _ _

end Sys2Proof.Machine
end

section
/-! PROOFS. The padded block, byte by byte (spec/43_padding.md rules R105 and R106). -/

namespace Sys2Proof.Machine

/-- The fill of a scheme at its byte `j` of `n` (rule R106). -/
theorem paddingBytes_getElem? (sc : Scheme) {j n : Nat} (hj : j < n) :
    (paddingBytes sc n)[j]? = some
      (match sc with
      | .pkcs7 => BitVec.ofNat 8 n
      | .iso7816 => if j = 0 then 0x80 else 0x00
      | .whitespace => 0x20
      | .zero => 0x00) := by
  cases sc with
  | iso7816 =>
    cases j with
    | zero => rfl
    | succ j =>
      have hj' : j < n - 1 := by omega
      simp [paddingBytes, zeros, rep, hj']
  | pkcs7 | whitespace | zero => simp [paddingBytes, zeros, rep, hj]

theorem padBlock_of_length_eq {d : Bytes} (sc : Scheme) (h : d.length = 16) : padBlock d sc = d :=
  if_pos (by rw [h])

theorem padBlock_of_length_lt {d : Bytes} (sc : Scheme) (h : d.length < 16) :
    padBlock d sc = d ++ paddingBytes sc (16 - d.length) :=
  if_neg (by omega)

theorem padBlock_take {d : Bytes} (sc : Scheme) (h : d.length ≤ 16) : (padBlock d sc).take d.length = d := by
  obtain hlt | heq := Nat.lt_or_eq_of_le h
  · rw [padBlock_of_length_lt sc hlt, List.take_left]
  · rw [padBlock_of_length_eq sc heq, List.take_length]

/-- Settles O42: the padding follows the data, and a padded block has the 16 bytes that are not padded. -/
theorem paddingFillsTheTail : Obligations.PaddingFillsTheTail := by
  unfold Obligations.PaddingFillsTheTail
  intro d sc hd
  have hlen := padBlock_length sc hd
  refine ⟨hlen, padBlock_take sc hd, padBlock_of_length_eq sc, fun k hk hk16 => ?_,
    fun sc' => padBlock_of_length_eq sc' hlen⟩
  rw [padBlock_of_length_lt sc (by omega), List.getElem?_append_right hk, paddingBytes_getElem? sc (by omega)]
  cases sc with
  | iso7816 => simp only [Nat.sub_eq_zero_iff_le, hk.ge_iff_eq']
  | pkcs7 | whitespace | zero => rfl

end Sys2Proof.Machine
end

section
/-! PROOFS. The GCM construction: the empty message, the round trip, and the refusal of every other tag
(spec/45_gcm_ghash.md rules R143 and R149 to R151). -/

namespace Sys2Proof.Machine

open Sys2Proof.Claims

theorem zeros_gf128Mul (x : Bytes) : gf128Mul (zeros 16) x = zeros 16 := by
  rw [gf128Mul_comm, gf128Mul_zeros]

theorem zeros_xorBytes {b : Bytes} {n : Nat} (h : b.length = n) : xorBytes (zeros n) b = b := by
  subst h
  induction b with
  | nil => rfl
  | cons x b ih => exact congrArg₂ _ BitVec.zero_xor ih

/-- The length block of nothing is zero, and so is the GHASH of it. -/
theorem ghash_empty_message (h : Bytes) : ghash h (pad16 [] ++ pad16 [] ++ lenblock [] []) = zeros 16 := by
  have hblock : pad16 [] ++ pad16 [] ++ lenblock [] [] = [] ++ zeros 16 := by decide
  rw [hblock, ghash_append rfl (zeros_length 16)]
  exact (congrArg (gf128Mul · h) (zeros_xorBytes (zeros_length 16))).trans (zeros_gf128Mul h)

theorem gcmCtr_gcmCtr (p n : Bytes) {k : Bytes} (hk : 16 ≤ k.length) : gcmCtr (gcmCtr p k n) k n = p :=
  ctrXcrypt_ctrXcrypt hk (inc128_length _) p

/-! ## The obligations -/

/-- Settles O52: the only block of the empty message is its zero length block, which zero times `H` keeps
zero. -/
theorem emptyMessageTag : Obligations.EmptyMessageTag := by
  unfold Obligations.EmptyMessageTag
  intro k n hk _
  have h16 := sixteen_le_of_keyLength hk
  have hempty : gcmCtr [] k n = [] := List.eq_nil_of_length_eq_zero (gcmCtr_length [] n h16)
  refine ⟨fun h => rfl, ?_⟩
  simp only [gcmEncryptAndTag, hempty, gcmTag, ghash_empty_message,
    zeros_xorBytes (encryptBlock_length _ (expandKey_long h16))]

/-- Settles O53: the recomputed tag is the supplied one exactly for the right tag, and CTR undoes itself. -/
theorem gcmRoundTripAndTagCheck : Obligations.GcmRoundTripAndTagCheck := by
  unfold Obligations.GcmRoundTripAndTagCheck
  intro p k n a hk _
  refine ⟨(gcmDecryptAndVerify_of_tag_eq rfl).trans ?_,
    fun c tag hne => gcmDecryptAndVerify_of_tag_ne hne.symm⟩
  exact congrArg some (gcmCtr_gcmCtr p n (sixteen_le_of_keyLength hk))

end Sys2Proof.Machine
end

section
/-! PROOFS. The block ring has no zero divisors, so GHASH is injective in each block when `H` is not zero and a
flipped bit of the ciphertext is detected (spec/40_gf_and_tables.md rules R70 and R71, spec/45_gcm_ghash.md
rules R143, R149 and R153). -/

namespace Sys2Proof.Machine

open Sys2Proof.Claims

/-! ## Rings that are fields by their squaring -/

/-- The squaring map of a finite field of characteristic 2 has the order of its degree, so it tells its size. -/
theorem natCard_of_frobenius {K : Type*} [Field K] [Finite K] [CharP K 2] {n : ℕ} {x : K}
    (hfix : ∀ a : K, a ^ 2 ^ 2 ^ (n + 1) = a) (hx : x ^ 2 ^ 2 ^ n ≠ x) :
    Nat.card K = 2 ^ 2 ^ (n + 1) := by
  let _ := ZMod.algebra K 2
  have hpow : ∀ m (a : K), (FiniteField.frobeniusAlgHom (ZMod 2) K ^ m) a = a ^ 2 ^ m := fun m a => by
    rw [AlgHom.coe_pow, FiniteField.coe_frobeniusAlgHom, ZMod.card, pow_iterate]
  have horder : orderOf (FiniteField.frobeniusAlgHom (ZMod 2) K) = 2 ^ (n + 1) := by
    refine orderOf_eq_prime_pow (fun h => hx ?_) (AlgHom.ext fun a => (hpow _ a).trans (hfix a))
    rw [← hpow, h, AlgHom.one_apply]
  rw [Module.natCard_eq_pow_finrank (K := ZMod 2), Nat.card_zmod, ← FiniteField.orderOf_frobeniusAlgHom,
    horder]

/-- A ring of characteristic 2 with `2 ^ 2 ^ (n + 1)` elements in which squaring has the order `2 ^ (n + 1)` has
no zero divisors: one of its residue fields already has as many elements. -/
theorem eq_zero_or_eq_zero_of_frobenius {R : Type*} [CommRing R] [Finite R] [CharP R 2] {n : ℕ} {x : R}
    (hcard : Nat.card R = 2 ^ 2 ^ (n + 1)) (hfix : ∀ a : R, a ^ 2 ^ 2 ^ (n + 1) = a)
    (hx : x ^ 2 ^ 2 ^ n ≠ x) {a b : R} (hab : a * b = 0) : a = 0 ∨ b = 0 := by
  have hreduced : IsReduced R :=
    (isReduced_iff_pow_one_lt (2 ^ 2 ^ (n + 1)) (Nat.one_lt_two_pow (by simp))).mpr
      fun a ha => (hfix a).symm.trans ha
  obtain ⟨Q, hQ, hxQ⟩ : ∃ Q : Ideal R, Q.IsPrime ∧ x ^ 2 ^ 2 ^ n - x ∉ Q := by
    have hnil : ¬ IsNilpotent (x ^ 2 ^ 2 ^ n - x) := fun h => hx (sub_eq_zero.mp h.eq_zero)
    simpa only [nilpotent_iff_mem_prime, not_forall, exists_prop] using hnil
  have hmax : Q.IsMaximal := IsArtinianRing.isMaximal_of_isPrime Q
  let _ := Ideal.Quotient.field Q
  have hchar : CharP (R ⧸ Q) 2 := (CharP.charP_iff_prime_eq_zero Nat.prime_two).mpr (by
    rw [← map_natCast (Ideal.Quotient.mk Q), CharP.cast_eq_zero, map_zero])
  have hfinite : Finite (R ⧸ Q) := Finite.of_surjective _ Ideal.Quotient.mk_surjective
  have hsize : Nat.card (R ⧸ Q) = 2 ^ 2 ^ (n + 1) := by
    refine natCard_of_frobenius (x := Ideal.Quotient.mk Q x) (fun a => ?_) fun h => hxQ ?_
    · obtain ⟨a, rfl⟩ := Ideal.Quotient.mk_surjective a
      rw [← map_pow, hfix]
    · rwa [← Ideal.Quotient.eq_zero_iff_mem, map_sub, map_pow, sub_eq_zero]
  have hbij : Function.Bijective (Ideal.Quotient.mk Q) :=
    (Nat.bijective_iff_surjective_and_card _).mpr ⟨Ideal.Quotient.mk_surjective, hcard.trans hsize.symm⟩
  have hmk := congrArg (Ideal.Quotient.mk Q) hab
  rw [map_mul, map_zero, mul_eq_zero] at hmk
  simpa only [map_eq_zero_iff _ hbij.injective] using hmk

/-! ## The ring of blocks -/

/-- The 128-bit strings of rule R69 with `xor` as addition and the multiplication of rule R71; a type of its
own, for `BitVec 128` already has the arithmetic modulo `2^128`. -/
def BlockField : Type := BitVec 128

/-- The laws of rule R72 are those of a commutative ring. -/
@[reducible] def blockCommRing : CommRing BlockField :=
  @CommRing.ofMinimalAxioms BlockField ⟨BitVec.xor⟩ ⟨shiftMul gf128Shift BitVec.getMsbD⟩ ⟨id⟩ ⟨0#128⟩
    ⟨gf128One⟩ BitVec.xor_assoc (fun _ => BitVec.zero_xor) (fun _ => BitVec.xor_self) blockRing.mul_assoc
    blockRing.mul_comm blockRing.one_mul blockRing.linear_right

theorem natCard_blockField : Nat.card BlockField = 2 ^ 2 ^ (6 + 1) :=
  (Nat.card_congr BitVec.equivFin.toEquiv).trans (Nat.card_fin _)

/-- The element `x`: the coefficient of `x^1` alone. -/
def gf128X : BlockField := gf128Shift gf128One

/-- Multiplication by `x` is the shift. -/
theorem shiftMul_gf128X (u : BitVec 128) : shiftMul gf128Shift BitVec.getMsbD u gf128X = gf128Shift u := by
  rw [gf128X, blockRing.mul_shift, blockRing.mul_one]

section Generation

variable {S : @Subring BlockField blockCommRing.toNonAssocRing} (hx : gf128X ∈ S)

include hx

theorem gf128Shift_iterate_mem (i : ℕ) : gf128Shift^[i] gf128One ∈ S := by
  let _ := blockCommRing
  induction i with
  | zero => exact S.one_mem
  | succ i ih =>
    rw [Function.iterate_succ_apply', ← shiftMul_gf128X]
    exact S.mul_mem ih hx

theorem shiftSum_gf128One_mem (c : ℕ → Bool) (n : ℕ) : shiftSum gf128Shift c gf128One n ∈ S := by
  let _ := blockCommRing
  induction n with
  | zero => exact S.zero_mem
  | succ n ih =>
    refine S.add_mem ih ?_
    cases c n
    · exact S.zero_mem
    · exact gf128Shift_iterate_mem hx n

end Generation

/-- Every element is a polynomial in `x`. -/
theorem closure_gf128X : @Subring.closure BlockField blockCommRing.toNonAssocRing {gf128X} = ⊤ := by
  let _ := blockCommRing
  refine (Subring.eq_top_iff' _).mpr fun u => ?_
  have hx : gf128X ∈ Subring.closure ({gf128X} : Set BlockField) :=
    Subring.subset_closure (Set.mem_singleton _)
  exact blockRing.expand u ▸ shiftSum_gf128One_mem hx (BitVec.getMsbD u) 128

/-! ## Squaring -/

/-- Squaring, by the loop of rule R71. -/
def gf128Square (u : BitVec 128) : BitVec 128 := gf128Loop u 128 0 0 u

theorem gf128Square_eq_mul_self : gf128Square = fun u => blockCommRing.mul u u :=
  funext fun u => gf128Loop_eq_shiftSum u u 128 0

/-- The element `x^(2^64)`. -/
def gf128XMiddle : BitVec 128 := 148340141898206687063724843373059155590#128

theorem gf128Square_iterate_x : gf128Square^[2 ^ 6] (gf128Shift gf128One) = gf128XMiddle := by
  decide +kernel

theorem gf128Square_iterate_middle : gf128Square^[2 ^ 6] gf128XMiddle = gf128Shift gf128One := by
  decide +kernel

theorem gf128XMiddle_ne_x : gf128XMiddle ≠ gf128Shift gf128One := by
  decide +kernel

theorem gf128Square_iterate_period :
    gf128Square^[2 ^ (6 + 1)] (gf128Shift gf128One) = gf128Shift gf128One := by
  rw [pow_succ 2 6, Nat.mul_two, Function.iterate_add_apply, gf128Square_iterate_x,
    gf128Square_iterate_middle]

theorem iterate_mul_self {M : Type*} [Monoid M] (n : ℕ) (a : M) : (fun u => u * u)^[n] a = a ^ 2 ^ n := by
  simp only [← pow_two, pow_iterate]

/-! ## No zero divisors -/

/-- Squaring has the order 128 in the block ring, which can be seen at the generator `x`. -/
theorem eq_zero_or_eq_zero_of_shiftMul {u v : BitVec 128}
    (h : shiftMul gf128Shift BitVec.getMsbD u v = 0) : u = 0 ∨ v = 0 := by
  let _ := blockCommRing
  have hchar : CharP BlockField 2 :=
    CharTwo.of_one_ne_zero_of_two_eq_zero (show gf128One ≠ 0 by decide)
      (one_add_one_eq_two.symm.trans BitVec.xor_self)
  have hfinite : Finite BlockField := inferInstanceAs (Finite (BitVec 128))
  have hpow : ∀ n, gf128X ^ 2 ^ n = gf128Square^[n] (gf128Shift gf128One) := fun n =>
    gf128Square_eq_mul_self ▸ (iterate_mul_self n gf128X).symm
  have hmiddle : gf128X ^ 2 ^ 2 ^ 6 ≠ gf128X := fun hx =>
    gf128XMiddle_ne_x (gf128Square_iterate_x.symm.trans ((hpow _).symm.trans hx))
  have hperiod : gf128X ^ 2 ^ 2 ^ (6 + 1) = gf128X :=
    (hpow _).trans gf128Square_iterate_period
  have hfrobenius : iterateFrobenius BlockField 2 (2 ^ (6 + 1)) = RingHom.id BlockField :=
    RingHom.eq_of_eqOn_set_dense closure_gf128X (Set.eqOn_singleton.mpr hperiod)
  exact eq_zero_or_eq_zero_of_frobenius natCard_blockField (RingHom.congr_fun hfrobenius) hmiddle h

/-! ## Blocks -/

theorem blockBits_eq_zero_iff {x : Bytes} (hx : x.length = 16) : blockBits x = 0 ↔ x = zeros 16 := by
  have hzero : bitsBlock 0 = zeros 16 := by decide +kernel
  refine ⟨fun h => ?_, ?_⟩
  · rw [← bitsBlock_blockBits hx, h, hzero]
  · rintro rfl
    rw [← hzero, blockBits_bitsBlock]

/-- Multiplication by a nonzero block is injective. -/
theorem gf128Mul_right_cancel {x y h : Bytes} (hx : x.length = 16) (hy : y.length = 16)
    (hh : h.length = 16) (hne : h ≠ zeros 16) (heq : gf128Mul x h = gf128Mul y h) : x = y := by
  have hbits := congrArg blockBits heq
  rw [gf128Mul_eq_shiftMul, gf128Mul_eq_shiftMul, blockBits_bitsBlock, blockBits_bitsBlock] at hbits
  have hprod : shiftMul gf128Shift BitVec.getMsbD (blockBits x ^^^ blockBits y) (blockBits h) = 0 :=
    (blockRing.linear_left _ _ _).trans (BitVec.xor_eq_zero_iff.mpr hbits)
  obtain hxy | hzero := eq_zero_or_eq_zero_of_shiftMul hprod
  · rw [← bitsBlock_blockBits hx, BitVec.xor_eq_zero_iff.mp hxy, bitsBlock_blockBits hy]
  · exact absurd ((blockBits_eq_zero_iff hh).mp hzero) hne

/-! ## GHASH, one block changed -/

theorem xorBytes_comm (a b : Bytes) : xorBytes a b = xorBytes b a :=
  List.zipWith_comm_of_comm BitVec.xor_comm

theorem xorBytes_right_cancel {a b c : Bytes} (ha : a.length ≤ c.length) (hb : b.length ≤ c.length)
    (h : xorBytes a c = xorBytes b c) : a = b := by
  rw [← xorBytes_cancel a c ha, h, xorBytes_cancel b c hb]

section Ghash

variable {h : Bytes} (hh : h.length = 16) (hne : h ≠ zeros 16)

include hh hne

/-- One step of GHASH is injective in what it folds. -/
theorem ghashStep_right_cancel {y y' x : Bytes} (hy : y.length = 16) (hy' : y'.length = 16)
    (hx : x.length = 16) (heq : gf128Mul (xorBytes y x) h = gf128Mul (xorBytes y' x) h) : y = y' := by
  refine xorBytes_right_cancel (hy.trans hx.symm).le (hy'.trans hx.symm).le ?_
  exact gf128Mul_right_cancel (by simp [hy, hx]) (by simp [hy', hx]) hh hne heq

theorem ghashLoop_injective {xs : List Bytes} (hxs : ∀ x ∈ xs, x.length = 16) {y y' : Bytes}
    (hy : y.length = 16) (hy' : y'.length = 16) (heq : ghashLoop h y xs = ghashLoop h y' xs) : y = y' := by
  induction xs generalizing y y' with
  | nil => exact heq
  | cons x xs ih =>
    obtain ⟨hx, hxs⟩ := List.forall_mem_cons.mp hxs
    rw [ghashLoop, ghashLoop] at heq
    exact ghashStep_right_cancel hh hne hy hy' hx (ih hxs (gf128Mul_length _ _) (gf128Mul_length _ _) heq)

/-- A changed block changes the accumulator at the end. -/
theorem ghashLoop_set_injective {xs : List Bytes} (hxs : ∀ x ∈ xs, x.length = 16) {y b : Bytes}
    (hy : y.length = 16) (hb : b.length = 16) {j : ℕ} (hj : j < xs.length)
    (heq : ghashLoop h y (xs.set j b) = ghashLoop h y xs) : b = xs[j] := by
  induction xs generalizing y j with
  | nil => cases hj
  | cons x xs ih =>
    obtain ⟨hx, hxs⟩ := List.forall_mem_cons.mp hxs
    cases j with
    | zero =>
      rw [List.set_cons_zero, ghashLoop, ghashLoop] at heq
      have hfirst := ghashLoop_injective hh hne hxs (gf128Mul_length _ _) (gf128Mul_length _ _) heq
      rw [xorBytes_comm y, xorBytes_comm y] at hfirst
      exact ghashStep_right_cancel hh hne hb hx hy hfirst
    | succ j =>
      rw [List.set_cons_succ, ghashLoop, ghashLoop] at heq
      exact ih hxs (gf128Mul_length _ _) (Nat.lt_of_succ_lt_succ hj) heq

end Ghash

theorem blocks_getElem {d : Bytes} (hd : d.length % 16 = 0) {q : ℕ} (hq : q < (blocks d).length) :
    (blocks d)[q] = blockAt d q := by
  rw [blockAt_eq_blocks_getD hd, List.getD_eq_getElem _ _ hq]

/-- A changed byte changes its own block alone. -/
theorem blocks_set {d : Bytes} (hd : d.length % 16 = 0) (i : ℕ) (v : Byte) :
    blocks (d.set i v) = (blocks d).set (i / 16) (blockAt (d.set i v) (i / 16)) := by
  apply List.ext_getElem (by simp)
  intro q hq hq'
  rw [blocks_getElem (by simpa using hd), List.getElem_set]
  split
  case isTrue h => rw [h]
  case isFalse h =>
    rw [blocks_getElem hd]
    refine blockAt_congr (j := i / 16) (fun p hp => List.getElem?_set_ne ?_) (Ne.symm h)
    rintro rfl
    unfold Outside at hp
    omega

/-- GHASH under a nonzero subkey tells the bytes at one place apart. -/
theorem ghash_set_injective {h d : Bytes} {i : ℕ} {v : Byte} (hh : h.length = 16) (hne : h ≠ zeros 16)
    (hd : d.length % 16 = 0) (hi : i < d.length) (heq : ghash h (d.set i v) = ghash h d) :
    d.getD i 0 = v := by
  have hj : i / 16 < (blocks d).length := by rw [blocks_length]; omega
  have hlen : (blockAt (d.set i v) (i / 16)).length = 16 := by simp [blockAt]; omega
  rw [ghash, ghash, blocks_set hd] at heq
  have hblock := ghashLoop_set_injective hh hne (blocks_all_length d) (zeros_length 16) hlen hj heq
  rw [blocks_getElem hd hj] at hblock
  have hbyte := congrArg (·[i % 16]?) hblock
  simp only [blockAt_getElem?] at hbyte
  simpa [hi] using hbyte.symm

/-! ## The tag, one byte of the ciphertext changed -/

theorem pad16_set {c : Bytes} {i : ℕ} (v : Byte) (hi : i < c.length) :
    pad16 (c.set i v) = (pad16 c).set i v := by
  rw [pad16, pad16, List.length_set, List.set_append_left _ _ hi]

/-- What the tag hashes: the padded associated data, the padded ciphertext and the length block (rule R149). -/
def tagInput (a c : Bytes) : Bytes := pad16 a ++ pad16 c ++ lenblock a c

theorem gcmTag_eq_xorBytes (k n a c : Bytes) :
    gcmTag k n a c = xorBytes (ghash (hashSubkey (expandKey k)) (tagInput a c))
      (encryptBlock (initialCounter n) (expandKey k)) :=
  rfl

theorem tagInput_length_mod (a c : Bytes) : (tagInput a c).length % 16 = 0 := by
  simp only [tagInput, lenblock, List.length_append, pad16_length, bytesBe_length]
  omega

section TagInput

variable (a : Bytes) {c : Bytes} {i : ℕ} (hi : i < c.length)

include hi

theorem lt_length_pad16 : i < (pad16 c).length := by
  rw [pad16_length]
  omega

theorem tagInput_set (v : Byte) : tagInput a (c.set i v) = (tagInput a c).set ((pad16 a).length + i) v := by
  have hpad := lt_length_pad16 hi
  have hlen : lenblock a (c.set i v) = lenblock a c := by rw [lenblock, lenblock, List.length_set]
  rw [tagInput, tagInput, hlen, pad16_set v hi, List.set_append_left _ _ (by simp [hpad]),
    List.set_append_right _ _ (Nat.le_add_right _ _), Nat.add_sub_cancel_left]

theorem tagInput_getD : (tagInput a c).getD ((pad16 a).length + i) 0 = c.getD i 0 := by
  have hpad := lt_length_pad16 hi
  rw [tagInput, List.getD_append _ _ _ _ (by simp [hpad]),
    List.getD_append_right _ _ _ _ (Nat.le_add_right _ _), Nat.add_sub_cancel_left, pad16,
    List.getD_append _ _ _ _ hi]

/-- A tag over another byte is another tag. -/
theorem gcmTag_set_injective {k : Bytes} (n : Bytes) {v : Byte} (hk : 16 ≤ k.length)
    (hne : hashSubkey (expandKey k) ≠ zeros 16) (heq : gcmTag k n a (c.set i v) = gcmTag k n a c) :
    c.getD i 0 = v := by
  have hsch := expandKey_long hk
  have hfits : ∀ x, (ghash (hashSubkey (expandKey k)) x).length ≤
      (encryptBlock (initialCounter n) (expandKey k)).length := fun x =>
    ((ghash_length _ x).trans (encryptBlock_length _ hsch).symm).le
  have hplace : (pad16 a).length + i < (tagInput a c).length := by
    have hpad := lt_length_pad16 hi
    simp only [tagInput, List.length_append]
    omega
  rw [gcmTag_eq_xorBytes, gcmTag_eq_xorBytes, tagInput_set a hi] at heq
  rw [← tagInput_getD a hi]
  exact ghash_set_injective (encryptBlock_length _ hsch) hne (tagInput_length_mod a c) hplace
    (xorBytes_right_cancel (hfits _) (hfits _) heq)

end TagInput

/-! ## The obligation -/

/-- Settles O54: the flipped byte is in one block of what the tag hashes, and in a ring without zero divisors
a changed block changes the GHASH under a nonzero subkey. -/
theorem ciphertextBitFlipIsDetected : Obligations.CiphertextBitFlipIsDetected := by
  unfold Obligations.CiphertextBitFlipIsDetected
  intro c k n a i b hk _ hne hi hb
  have hchanged : gcmTag k n a (c.set i (c.getD i 0 ^^^ ((0x01 : Byte) <<< b))) ≠ gcmTag k n a c := by
    intro heq
    have hsame := gcmTag_set_injective a hi n (sixteen_le_of_keyLength hk) hne heq
    have hbit : (0x01 : Byte) <<< b = 0 :=
      (BitVec.xor_right_inj (c.getD i 0)).mp (hsame.symm.trans BitVec.xor_zero.symm)
    exact absurd hbit ((by decide : ∀ b < 8, (0x01 : Byte) <<< b ≠ 0) b hb)
  exact ⟨hchanged, gcmDecryptAndVerify_of_tag_ne hchanged⟩

end Sys2Proof.Machine
end
